-- ==== Sys2Proof/Word.lean ====
section
/-! DEFINITION. The words the block's ports and tables are written in (00_scope.md R10, R12). -/

namespace Sys2Proof

/-- A byte of a packet, of the PS/2 line or of a register (R10). -/
abbrev Byte := BitVec 8

/-- A letter index `0..25` of the alphabet (R12). Addition, subtraction and negation on it are the
arithmetic "mod 26" of R10. -/
abbrev Letter := Fin 26

/-- A translated key identity; 0 means "no key" (R13, R107). -/
abbrev KeyCode := Byte

/-- A 16-bit key event, `(keystatus << 8) | key_code` (R105). -/
abbrev KeyEvent := BitVec 16

end Sys2Proof
end

