-- ==== Sys2Proof/Syntax.lean ====
section
/-! DEFINITION. The command packets of the command port: one constructor per row of
spec/opcode_table.json (30_encoding.md R88). Operands are the packet's operand bytes as sent; the
ranges of R90 are judged by each command's own checks, never by the syntax. -/

namespace Sys2Proof

/-- The 18 commands of R88, operands in packet order (R90). -/
inductive Instr where
  /-- `ENG_INIT rot1, rot2, rot3, refl, off1, off2, off3` (R133, R134). -/
  | engInit (rot1 rot2 rot3 refl off1 off2 off3 : Byte)
  /-- `ENG_SET_PLUGBOARD p0, …, p25`: the 26 operand bytes in order (R136, R137). -/
  | engSetPlugboard (p : List Byte)
  /-- `ENG_ENCRYPT ch`: an ASCII code (R135). -/
  | engEncrypt (ch : Byte)
  /-- `ENG_ROTOR_OFFSET i` (R138). -/
  | engRotorOffset (i : Byte)
  /-- `PS2_INIT` (R235). -/
  | ps2Init
  /-- `PS2_ENABLE_IRQ` (R236). -/
  | ps2EnableIrq
  /-- `PS2_DISABLE_IRQ` (R237). -/
  | ps2DisableIrq
  /-- `PS2_AVAILABLE` (R238). -/
  | ps2Available
  /-- `PS2_READ` (R239). -/
  | ps2Read
  /-- `PS2_GET_LOCK` (R240). -/
  | ps2GetLock
  /-- `PS2_SET_LOCK mask` (R241). -/
  | ps2SetLock (mask : Byte)
  /-- `PS2_SET_NO_BREAKS flag` (R242). -/
  | ps2SetNoBreaks (flag : Byte)
  /-- `PS2_SET_NO_REPEATS flag` (R243). -/
  | ps2SetNoRepeats (flag : Byte)
  /-- `PS2_ECHO` (R244). -/
  | ps2Echo
  /-- `PS2_READ_ID` (R245). -/
  | ps2ReadId
  /-- `PS2_GET_SCANCODE_SET` (R246). -/
  | ps2GetScancodeSet
  /-- `PS2_TYPEMATIC rate, delay` (R247). -/
  | ps2Typematic (rate delay : Byte)
  /-- `PS2_RESET` (R248). -/
  | ps2Reset
  deriving DecidableEq, Repr

/-- Why a packet is no command (R89, R108). -/
inductive IllegalPacket where
  /-- The packet has no byte at all (R89 step 1). -/
  | empty
  /-- The opcode is not in the map of R88 (R89 step 1). -/
  | unknownOpcode (op : Byte)
  /-- The packet's length is not the one R88 gives its opcode (R89 step 2). -/
  | wrongLength (op : Byte) (length : Nat)
  deriving DecidableEq, Repr

end Sys2Proof
end

