-- ==== Sys2Proof/WellFormed.lean ====
section
/-! DEFINITION. Which terms of `Instr` stand for a packet. R86: every value of every operand byte is
legal or refused by the command's own check, so the one thing a term can get wrong is the number of
operand bytes of ENG_SET_PLUGBOARD, which R88 fixes at 26. -/

namespace Sys2Proof

/-- The instruction is the reading of some packet: ENG_SET_PLUGBOARD has its 26 operands (R88). -/
def Instr.wellFormed : Instr → Bool
  | .engInit _ _ _ _ _ _ _ => true
  | .engSetPlugboard p => p.length == 26
  | .engEncrypt _ => true
  | .engRotorOffset _ => true
  | .ps2Init => true
  | .ps2EnableIrq => true
  | .ps2DisableIrq => true
  | .ps2Available => true
  | .ps2Read => true
  | .ps2GetLock => true
  | .ps2SetLock _ => true
  | .ps2SetNoBreaks _ => true
  | .ps2SetNoRepeats _ => true
  | .ps2Echo => true
  | .ps2ReadId => true
  | .ps2GetScancodeSet => true
  | .ps2Typematic _ _ => true
  | .ps2Reset => true

end Sys2Proof
end

