-- ==== Sys2Proof/Decode.lean ====
section
/-! DEFINITION. Decoding and encoding of command packets (30_encoding.md R86, R88 to R90). -/

namespace Sys2Proof

/-- The packet length the opcode byte fixes, column L of R88's map; `none` for an opcode outside it
(R108). -/
def packetLength (op : Byte) : Option Nat :=
  match op.toNat with
  | 0x01 => some 8
  | 0x02 => some 27
  | 0x03 => some 2
  | 0x04 => some 2
  | 0x10 => some 1
  | 0x11 => some 1
  | 0x12 => some 1
  | 0x13 => some 1
  | 0x14 => some 1
  | 0x15 => some 1
  | 0x16 => some 2
  | 0x17 => some 2
  | 0x18 => some 2
  | 0x19 => some 1
  | 0x1A => some 1
  | 0x1B => some 1
  | 0x1C => some 3
  | 0x1D => some 1
  | _ => none

/-- A command without operands (R88, L = 1). -/
def noOperand (i : Instr) : List Byte → Option Instr
  | [] => some i
  | _ => none

/-- A command with one operand byte (R88, L = 2). -/
def oneOperand (f : Byte → Instr) : List Byte → Option Instr
  | [a] => some (f a)
  | _ => none

/-- A command with two operand bytes (R88, L = 3). -/
def twoOperands (f : Byte → Byte → Instr) : List Byte → Option Instr
  | [a, b] => some (f a b)
  | _ => none

/-- ENG_INIT's seven operand bytes in the order of R90. -/
def initOperands : List Byte → Option Instr
  | [rot1, rot2, rot3, refl, off1, off2, off3] => some (.engInit rot1 rot2 rot3 refl off1 off2 off3)
  | _ => none

/-- ENG_SET_PLUGBOARD's 26 operand bytes (R90). -/
def plugboardOperands (p : List Byte) : Option Instr :=
  if p.length = 26 then some (.engSetPlugboard p) else none

/-- The command of opcode `op` with exactly the operand bytes `args`, when R88 gives that opcode that
many operands. The opcode numbers and operand orders are R88's and R90's. -/
def commandOf (op : Byte) (args : List Byte) : Option Instr :=
  match op.toNat with
  | 0x01 => initOperands args
  | 0x02 => plugboardOperands args
  | 0x03 => oneOperand .engEncrypt args
  | 0x04 => oneOperand .engRotorOffset args
  | 0x10 => noOperand .ps2Init args
  | 0x11 => noOperand .ps2EnableIrq args
  | 0x12 => noOperand .ps2DisableIrq args
  | 0x13 => noOperand .ps2Available args
  | 0x14 => noOperand .ps2Read args
  | 0x15 => noOperand .ps2GetLock args
  | 0x16 => oneOperand .ps2SetLock args
  | 0x17 => oneOperand .ps2SetNoBreaks args
  | 0x18 => oneOperand .ps2SetNoRepeats args
  | 0x19 => noOperand .ps2Echo args
  | 0x1A => noOperand .ps2ReadId args
  | 0x1B => noOperand .ps2GetScancodeSet args
  | 0x1C => twoOperands .ps2Typematic args
  | 0x1D => noOperand .ps2Reset args
  | _ => none

/-- The decode checks of R89 in their order: an empty packet or an opcode outside the map, then a
length other than R88's. Total on any bytes; a packet that passes is a command. -/
def decode : List Byte → Except IllegalPacket Instr
  | [] => .error .empty
  | op :: args =>
    match packetLength op with
    | none => .error (.unknownOpcode op)
    | some _ =>
      match commandOf op args with
      | some i => .ok i
      | none => .error (.wrongLength op (args.length + 1))

/-- The packet of a command, byte 0 first (R67, R86, R88, R90). -/
def encode : Instr → List Byte
  | .engInit rot1 rot2 rot3 refl off1 off2 off3 => [0x01, rot1, rot2, rot3, refl, off1, off2, off3]
  | .engSetPlugboard p => 0x02 :: p
  | .engEncrypt ch => [0x03, ch]
  | .engRotorOffset i => [0x04, i]
  | .ps2Init => [0x10]
  | .ps2EnableIrq => [0x11]
  | .ps2DisableIrq => [0x12]
  | .ps2Available => [0x13]
  | .ps2Read => [0x14]
  | .ps2GetLock => [0x15]
  | .ps2SetLock mask => [0x16, mask]
  | .ps2SetNoBreaks flag => [0x17, flag]
  | .ps2SetNoRepeats flag => [0x18, flag]
  | .ps2Echo => [0x19]
  | .ps2ReadId => [0x1A]
  | .ps2GetScancodeSet => [0x1B]
  | .ps2Typematic rate delay => [0x1C, rate, delay]
  | .ps2Reset => [0x1D]

/-- The `n` bytes of the number `w`, the least significant first. -/
def bytesOfNat : Nat → Nat → List Byte
  | 0, _ => []
  | n + 1, w => BitVec.ofNat 8 w :: bytesOfNat n (w / 256)

/-- The packet whose bits the opcode table numbers as `w`: byte 0 is bits 7..0, byte 1 bits 15..8, and
so on; the operand bytes above `nbits` that R88's length calls for are 0 (log entry 16). -/
def tablePacket (nbits w : Nat) : List Byte :=
  let bits := w % 2 ^ nbits
  bytesOfNat (max (nbits / 8) ((packetLength (BitVec.ofNat 8 bits)).getD 1)) bits

/-- The instruction the decoder reads from the packet that the opcode table numbers as `w`. -/
def decodeTableWord (nbits w : Nat) : Option Instr :=
  match decode (tablePacket nbits w) with
  | .ok i => some i
  | .error _ => none

end Sys2Proof
end

