-- ==== Sys2Proof/Config.lean ====
section
/-! DEFINITION. The open parameters of the block (00_scope.md R5, 92_eei_decisions.md D30): plain data
that the model takes as an argument, through the field `cfg` of State, and the opaque choice an
implementation makes among the values that meet the spec's constraints. -/

namespace Sys2Proof.Config

/-- The open parameters of R5. The tables are plain data; a byte that a scan table does not list maps to
0, "no key" (R107). -/
structure Params where
  /-- `RAW_CAP`, usable entries of the raw ring. -/
  rawCap : Nat
  /-- `EVT_CAP`, usable entries of the event ring. -/
  evtCap : Nat
  /-- `TXQ_CAP`, usable items of the outbound command queue. -/
  txqCap : Nat
  /-- `ScanTable`, as pairs of a scan code and its key code. -/
  scanTable : List (Byte × KeyCode)
  /-- `ScanTableE0`, as pairs of a scan code and its key code. -/
  scanTableE0 : List (Byte × KeyCode)
  /-- The keypad keys KEY_KP0 … KEY_KP9, KEY_KP_DOT in this order, each with its `KeypadRemap` value
  (0 means IGNORE). The first components are the domain of `KeypadRemap` (R195). -/
  keypadRemap : List (KeyCode × KeyCode)
  /-- The key-code constants of R106, from here on. -/
  keyScroll : KeyCode
  keyNum : KeyCode
  keyCaps : KeyCode
  keyLShift : KeyCode
  keyRShift : KeyCode
  keyLCtrl : KeyCode
  keyRCtrl : KeyCode
  keyLAlt : KeyCode
  keyRAlt : KeyCode
  keyLGui : KeyCode
  keyRGui : KeyCode
  keyPause : KeyCode
  keyUpArrow : KeyCode
  deriving DecidableEq, Repr, Inhabited

/-- `ScanTable[b]` (R192). -/
def Params.scan (p : Params) (b : Byte) : KeyCode := (p.scanTable.lookup b).getD 0

/-- `ScanTableE0[b]` (R192). -/
def Params.scanE0 (p : Params) (b : Byte) : KeyCode := (p.scanTableE0.lookup b).getD 0

/-- All symbolic key codes of R106's table. -/
def Params.constants (p : Params) : List KeyCode :=
  [p.keyScroll, p.keyNum, p.keyCaps, p.keyLShift, p.keyRShift, p.keyLCtrl, p.keyRCtrl, p.keyLAlt,
   p.keyRAlt, p.keyLGui, p.keyRGui, p.keyPause, p.keyUpArrow] ++ p.keypadRemap.map Prod.fst

/-- The key codes kept for keyboard responses, which no key has: R106 (f). -/
def responseCodes : List KeyCode := [0xAA, 0xFC, 0xFE]

/-- A code that R106 gives to a key of its own: the digits and letters (R106 (b)) and 0x8B, the extra
European key (R106 (e)). -/
def namedCode (c : KeyCode) : Bool :=
  decide (0x30 ≤ c.toNat ∧ c.toNat ≤ 0x39 ∨ 0x41 ≤ c.toNat ∧ c.toNat ≤ 0x5A ∨ c = 0x8B)

/-- No key code of the table is one kept for keyboard responses (R106 (f)). -/
def noResponseCode (t : List (Byte × KeyCode)) : Bool := t.all fun e => !responseCodes.contains e.2

/-- The capacity bounds of R5 and R103. -/
abbrev Params.CapacitiesValid (p : Params) : Prop :=
  1 ≤ p.rawCap ∧ 1 ≤ p.evtCap ∧ p.evtCap ≤ 255 ∧ 5 ≤ p.txqCap

/-- The symbolic key codes are distinct, nonzero, none of a letter, a digit or the European key, and no
response codes (R106 (a), (b), (e), (f)), the keypad has its 11 keys, and the up arrow carries the
function flag, lying in one of R201's ranges (R106 (d)). -/
abbrev Params.ConstantsValid (p : Params) : Prop :=
  p.constants.Nodup ∧
  (p.constants.all fun c => c != 0 && !namedCode c && !responseCodes.contains c) = true ∧
  p.keypadRemap.length = 11 ∧
  ((1 ≤ p.keyUpArrow.toNat ∧ p.keyUpArrow.toNat ≤ 0x1F) ∨
    (0x61 ≤ p.keyUpArrow.toNat ∧ p.keyUpArrow.toNat ≤ 0xA0))

/-- The two table entries the source fixes (R106 (c), (d)), and no response code in a table (R106 (f)). -/
abbrev Params.TablesValid (p : Params) : Prop :=
  p.scan 0x1C = 0x41 ∧ p.scanE0 0x75 = p.keyUpArrow ∧
  noResponseCode p.scanTable = true ∧ noResponseCode p.scanTableE0 = true ∧
  noResponseCode p.keypadRemap = true

/-- The constraints the spec puts on the open parameters (R5, R103, R106). No table entry beside the
letter A's is bound by R106 (b) or (e) (log entry 7). -/
abbrev Params.Valid (p : Params) : Prop :=
  p.CapacitiesValid ∧ p.ConstantsValid ∧ p.TablesValid

/-- `ScanTable` of the reference case: letters and digits (93_implementation_defined.md B2). -/
def referenceScanLetters : List (Byte × KeyCode) :=
  [(0x1C, 0x41), (0x32, 0x42), (0x21, 0x43), (0x23, 0x44), (0x24, 0x45), (0x2B, 0x46),
   (0x34, 0x47), (0x33, 0x48), (0x43, 0x49), (0x3B, 0x4A), (0x42, 0x4B), (0x4B, 0x4C),
   (0x3A, 0x4D), (0x31, 0x4E), (0x44, 0x4F), (0x4D, 0x50), (0x15, 0x51), (0x2D, 0x52),
   (0x1B, 0x53), (0x2C, 0x54), (0x3C, 0x55), (0x2A, 0x56), (0x1D, 0x57), (0x22, 0x58),
   (0x35, 0x59), (0x1A, 0x5A), (0x45, 0x30), (0x16, 0x31), (0x1E, 0x32), (0x26, 0x33),
   (0x25, 0x34), (0x2E, 0x35), (0x36, 0x36), (0x3D, 0x37), (0x3E, 0x38), (0x46, 0x39)]

/-- `ScanTable` of the reference case: every other key (93_implementation_defined.md B2). -/
def referenceScanOther : List (Byte × KeyCode) :=
  [(0x12, 0x06), (0x59, 0x07), (0x14, 0x08), (0x11, 0x0A), (0x58, 0x03), (0x77, 0x01),
   (0x7E, 0x02), (0x70, 0x20), (0x69, 0x21), (0x72, 0x22), (0x7A, 0x23), (0x6B, 0x24),
   (0x73, 0x25), (0x74, 0x26), (0x6C, 0x27), (0x75, 0x28), (0x7D, 0x29), (0x71, 0x2A),
   (0x29, 0x1F), (0x5A, 0x1E), (0x0D, 0x1D), (0x66, 0x1C), (0x76, 0x1B), (0x05, 0x61),
   (0x06, 0x62), (0x04, 0x63), (0x0C, 0x64), (0x03, 0x65), (0x0B, 0x66), (0x83, 0x67),
   (0x0A, 0x68), (0x01, 0x69), (0x09, 0x6A), (0x78, 0x6B), (0x07, 0x6C)]

/-- `ScanTableE0` of the reference case (93_implementation_defined.md B3). -/
def referenceScanE0 : List (Byte × KeyCode) :=
  [(0x14, 0x09), (0x11, 0x0B), (0x1F, 0x0C), (0x27, 0x0D), (0x2F, 0x0E), (0x75, 0x17),
   (0x72, 0x18), (0x6B, 0x15), (0x74, 0x16), (0x70, 0x19), (0x71, 0x1A), (0x6C, 0x11),
   (0x69, 0x12), (0x7D, 0x13), (0x7A, 0x14), (0x5A, 0x2B)]

/-- `KeypadRemap` of the reference case (93_implementation_defined.md B4). -/
def referenceKeypad : List (KeyCode × KeyCode) :=
  [(0x20, 0x19), (0x21, 0x12), (0x22, 0x18), (0x23, 0x14), (0x24, 0x15), (0x25, 0x00),
   (0x26, 0x16), (0x27, 0x11), (0x28, 0x17), (0x29, 0x13), (0x2A, 0x1A)]

/-- The reference case of the open parameters (93_implementation_defined.md part B, capacities of A3):
general knowledge, as the spec says. The tests use it; no rule depends on it (log entry 8). -/
def reference : Params where
  rawCap := 16
  evtCap := 16
  txqCap := 16
  scanTable := referenceScanLetters ++ referenceScanOther
  scanTableE0 := referenceScanE0
  keypadRemap := referenceKeypad
  keyScroll := 0x02
  keyNum := 0x01
  keyCaps := 0x03
  keyLShift := 0x06
  keyRShift := 0x07
  keyLCtrl := 0x08
  keyRCtrl := 0x09
  keyLAlt := 0x0A
  keyRAlt := 0x0B
  keyLGui := 0x0C
  keyRGui := 0x0D
  keyPause := 0x05
  keyUpArrow := 0x17

/-- An implementation's own values of the open parameters, which nothing in Lean can evaluate. FREE:
the spec leaves them open (D30; log entry 6). -/
opaque freeParams : Params

/-- The parameters of this machine: the implementation's own where they meet the spec's constraints. So
`params` can be any valid assignment, is always valid, and is no assignment in particular (log entry
6). -/
def params : Params := if freeParams.Valid then freeParams else reference

end Sys2Proof.Config
end

