-- ==== Sys2Proof/Machine/State.lean ====
section
/-! DEFINITION. The block's state as plain data (10_state.md), its reset value (70_reset_and_hazards.md
R280), the agents' steps, the status codes, and the ways a step can stop. -/

namespace Sys2Proof.Machine

/-! ### Cipher engine (10_state.md section 2) -/

/-- A rotor of the catalogue, by its number `1..8` in R60's table (4 bits, R23). -/
inductive RotorNo where
  | I | II | III | IV | V | VI | VII | VIII
  deriving DecidableEq, Repr

/-- A reflector of the catalogue, by its index `0..2` in R61's table (2 bits, R24). -/
inductive ReflectorNo where
  | A | B | C
  deriving DecidableEq, Repr

/-- One rotor position: `eng.rsel[j]`, `eng.off[j]` and `eng.step_next[j]`. -/
structure Rotor where
  /-- `eng.rsel[j]`, the catalogue number (R23). -/
  sel : RotorNo
  /-- `eng.off[j]`, the offset `0..25`, 5 bits (R25). -/
  off : Letter
  /-- `eng.step_next[j]`, 1 bit (R26). -/
  stepNext : Bool
  deriving DecidableEq, Repr

/-- The cipher engine's state. -/
structure Engine where
  /-- `eng.configured` (R22). -/
  configured : Bool
  /-- Position j = 0: R1, the fast rotor (R23). -/
  r1 : Rotor
  /-- Position j = 1: R2, the middle rotor. -/
  r2 : Rotor
  /-- Position j = 2: R3, the slow rotor. -/
  r3 : Rotor
  /-- `eng.refl` (R24). -/
  refl : ReflectorNo
  /-- `eng.pb`: entry c is the plugboard image of letter index c (R27). -/
  pb : Vector Letter 26
  deriving DecidableEq, Repr

/-! ### PS/2 unit (10_state.md sections 3 to 8) -/

/-- `rx.status` (R34). -/
inductive RxStatus where
  | ok | parityError | timeoutResync
  deriving DecidableEq, Repr

/-- The receive frame state (section 4). -/
structure Rx where
  /-- `rx.n`: the frame's bits received so far, 4 bits wide, `0..10` between steps (R30). -/
  n : BitVec 4
  /-- `rx.sr`, the receive shift register (R31). -/
  sr : Byte
  /-- `rx.par`, the XOR of the data bits so far (R32). -/
  par : Bool
  /-- `rx.perr`, the frame's parity check failed (R32). -/
  perr : Bool
  /-- `rx.last_ms`, `tick_ms` at the last accepted receive falling edge (R33). -/
  lastMs : BitVec 32
  /-- `rx.status` (R34). -/
  status : RxStatus
  deriving DecidableEq, Repr

/-- The decoder state (section 5). -/
structure Dec where
  /-- `dec.e0` (R35). -/
  e0 : Bool
  /-- `dec.brk` (R35). -/
  brk : Bool
  /-- `dec.e1_rem` (R36). -/
  e1Rem : BitVec 3
  /-- `dec.expected` (R37). -/
  expected : Byte
  /-- `dec.last_make` (R38). -/
  lastMake : Byte
  deriving DecidableEq, Repr

/-- `tx.phase` (R39). -/
inductive TxPhase where
  | idle | prep | inhibit | shift
  deriving DecidableEq, Repr

/-- The transmit state (section 6). -/
structure Tx where
  /-- `tx.phase` (R39). -/
  phase : TxPhase
  /-- `tx.byte`, the byte being sent (R40). -/
  byte : Byte
  /-- `tx.k`: the device falling edges seen in SHIFT, `0..10` between steps (R40; log entry
  9). -/
  k : Nat
  /-- `tx.ack` (R41). -/
  ack : Bool
  /-- `tx.imm_valid` (R42). -/
  immValid : Bool
  /-- `tx.imm_byte` (R42). -/
  immByte : Byte
  /-- `tx.last_sent` (R43). -/
  lastSent : Byte
  /-- `tx.last_valid` (R43). -/
  lastValid : Bool
  deriving DecidableEq, Repr

/-- The two line drivers; true pulls the open-collector line low (R44). -/
structure Lines where
  /-- `line.clk_drv_low` (R44). -/
  clkDrvLow : Bool
  /-- `line.data_drv_low` (R44). -/
  dataDrvLow : Bool
  deriving DecidableEq, Repr

/-- An item of the outbound queue: `Cmd(b)` or the placeholder `Ign` (R45, R96). -/
inductive TxItem where
  | cmd (b : Byte)
  | ign
  deriving DecidableEq, Repr

/-- A raw entry by its fields; the 12-bit layout of R104 is `RawEntry.bits`. -/
structure RawEntry where
  byte : Byte
  e0 : Bool
  e1 : Bool
  brk : Bool
  resp : Bool
  deriving DecidableEq, Repr

/-- `ks`, the modifier state (R49). -/
structure Modifiers where
  shift : Bool
  ctrl : Bool
  alt : Bool
  altGr : Bool
  gui : Bool
  deriving DecidableEq, Repr

/-- `lock_held[k]` for k = 0 scroll, 1 num, 2 caps (R51). -/
structure LockHeld where
  scroll : Bool
  num : Bool
  caps : Bool
  deriving DecidableEq, Repr

/-- The PS/2 unit's state: what PS2_INIT returns to its reset value (R235). -/
structure Ps2 where
  /-- `ps2.irq_en` (R28). -/
  irqEn : Bool
  /-- `ps2.no_breaks` (R29). -/
  noBreaks : Bool
  /-- `ps2.no_repeats` (R29). -/
  noRepeats : Bool
  rx : Rx
  dec : Dec
  tx : Tx
  line : Lines
  /-- `txq`, oldest item first (R45). -/
  txq : List TxItem
  /-- `raw`, oldest entry first (R46). -/
  raw : List RawEntry
  /-- `raw_drops` (R47). -/
  rawDrops : BitVec 16
  /-- `evt`, oldest event first (R48). -/
  evt : List KeyEvent
  ks : Modifiers
  /-- `lock_mask`: bit 0 scroll, bit 1 num, bit 2 caps, bit 3 extra (R50). -/
  lockMask : BitVec 4
  lockHeld : LockHeld
  deriving DecidableEq, Repr

/-! ### The agents' steps and the whole machine -/

/-- One step of one agent (R7): the host's command packet, an edge of the device on `clk` with the level
the device gives `data` and the value of `tick_ms` (R150), or a step of the transmit sequencer. -/
inductive AgentStep where
  | command (packet : List Byte)
  | fall (data : Bool) (tickMs : BitVec 32)
  | rise
  | txStart
  | txInhibit
  | txRelease
  deriving DecidableEq, Repr

/-- The whole machine: the block's two units, and the model's own fields `cfg`, `inputs` and
`response`. -/
structure State where
  eng : Engine
  ps2 : Ps2
  /-- The open parameters of R5; no step writes them (log entry 6). -/
  cfg : Config.Params
  /-- The agents' steps still to come, in the order their interleaving chooses (R7, R71; log entry
  1). -/
  inputs : List AgentStep
  /-- The response packet of the last command exchange, empty before the first (R85, R87; log entry
  2). -/
  response : List Byte
  deriving DecidableEq, Repr

/-- The status codes of a response (R91). -/
inductive Status where
  | ok
  | invalidRotorIndex
  | invalidOffset
  | invalidReflector
  | invalidPlugboard
  | invalidArg
  | notConfigured
  | txQueueFull
  | illegalCommand
  deriving DecidableEq, Repr

/-- The one behaviour the spec leaves undefined (R266). -/
inductive Fault where
  /-- Raised by ENG_ENCRYPT of a byte that is no ASCII letter, on a configured engine (R135, R266). Safe:
  the block may do anything there, and the model says nothing about what follows. -/
  | encryptNonLetter (ch : Byte)
  deriving DecidableEq, Repr

/-- Why the model gives an instruction no meaning. -/
inductive Refusal where
  /-- Raised by an arm of `exec` whose instruction has no meaning yet. Safe: nothing follows from it. No arm
  answers so now. -/
  | notModelled (mnemonic : String)
  deriving DecidableEq, Repr

/-! ### Reset (R280) -/

/-- The rotor every position holds at reset. Its selection and offset are unspecified and unobservable
(R23, R25, R282): rotor I at offset 0 is a DESIGN CHOICE, unsafe (log entry 5); `step_next` is 0
(R26). -/
def Rotor.reset : Rotor where
  sel := .I
  off := 0
  stepNext := false

/-- The engine at reset: unconfigured, the identity plugboard (R22, R27). The reflector is unspecified
(R24): A is a DESIGN CHOICE, unsafe (log entry 5). -/
def Engine.reset : Engine where
  configured := false
  r1 := Rotor.reset
  r2 := Rotor.reset
  r3 := Rotor.reset
  refl := .A
  pb := Vector.ofFn fun c => c

/-- Every PS/2 element at its reset value (R28 to R51). -/
def Ps2.reset : Ps2 where
  irqEn := false
  noBreaks := false
  noRepeats := false
  rx := { n := 0, sr := 0, par := false, perr := false, lastMs := 0, status := .ok }
  dec := { e0 := false, brk := false, e1Rem := 0, expected := 0, lastMake := 0 }
  tx := { phase := .idle, byte := 0, k := 0, ack := false, immValid := false, immByte := 0,
          lastSent := 0, lastValid := false }
  line := { clkDrvLow := false, dataDrvLow := false }
  txq := []
  raw := []
  rawDrops := 0
  evt := []
  ks := { shift := false, ctrl := false, alt := false, altGr := false, gui := false }
  lockMask := 0
  lockHeld := { scroll := false, num := false, caps := false }

/-- The block after reset (R280) with the open parameters `p`: no agent's step taken and none pending,
no response given. -/
def State.resetWith (p : Config.Params) : State where
  eng := Engine.reset
  ps2 := Ps2.reset
  cfg := p
  inputs := []
  response := []

/-- The block after reset (R280), with the implementation's own parameters (log entry 6). -/
def State.reset : State := State.resetWith Config.params

end Sys2Proof.Machine
end

