-- ==== Sys2Proof/Machine/Flags.lean ====
section
/-! DEFINITION. Parity (00_scope.md R10) and the flag byte of a key event (30_encoding.md R105,
43_ps2_translation.md R200, R201). -/

namespace Sys2Proof.Machine

/-- `xor8(b) = b[0] ⊕ … ⊕ b[7]` (R10). -/
def xor8 (b : Byte) : Bool :=
  b.getLsbD 0 ^^ b.getLsbD 1 ^^ b.getLsbD 2 ^^ b.getLsbD 3 ^^
    b.getLsbD 4 ^^ b.getLsbD 5 ^^ b.getLsbD 6 ^^ b.getLsbD 7

/-- `oddpar(b) = 1 ⊕ xor8(b)` (R10). -/
def oddPar (b : Byte) : Bool := !xor8 b

/-- `fnflag(code)`: the code lies in 0x01..0x1F or 0x61..0xA0 (R201). -/
def fnFlag (code : KeyCode) : Bool :=
  (decide (0x01 ≤ code.toNat) && decide (code.toNat ≤ 0x1F)) ||
    (decide (0x61 ≤ code.toNat) && decide (code.toNat ≤ 0xA0))

/-- `keystatus`, bits 7..0: break, shift, ctrl, caps, alt, alt_gr, gui, function (R105, R200). -/
def keyStatus (brk : Bool) (ks : Modifiers) (lockMask : BitVec 4) (code : KeyCode) : Byte :=
  (BitVec.ofBool brk ++ BitVec.ofBool ks.shift ++ BitVec.ofBool ks.ctrl ++
    BitVec.ofBool (lockMask.getLsbD 2) ++ BitVec.ofBool ks.alt ++ BitVec.ofBool ks.altGr ++
    BitVec.ofBool ks.gui ++ BitVec.ofBool (fnFlag code) : BitVec 8)

/-- `ev = (keystatus << 8) | code` (R200). -/
def keyEvent (brk : Bool) (ks : Modifiers) (lockMask : BitVec 4) (code : KeyCode) : KeyEvent :=
  (keyStatus brk ks lockMask code ++ code : BitVec 16)

/-- The event of a response entry, `zext_16(byte)` with all flags 0 (R191). -/
def responseEvent (b : Byte) : KeyEvent := b.setWidth 16

end Sys2Proof.Machine
end

