-- ==== Sys2Proof/Machine/Tables.lean ====
section
/-! DEFINITION. The read-only tables: rotor wirings with their notch and turnover sets (20_memory.md
R60) and reflectors (R61), transcribed letter by letter. -/

namespace Sys2Proof.Letters

/-- Letter index 0 (R12). -/
abbrev A : Letter := 0
/-- Letter index 1 (R12). -/
abbrev B : Letter := 1
/-- Letter index 2 (R12). -/
abbrev C : Letter := 2
/-- Letter index 3 (R12). -/
abbrev D : Letter := 3
/-- Letter index 4 (R12). -/
abbrev E : Letter := 4
/-- Letter index 5 (R12). -/
abbrev F : Letter := 5
/-- Letter index 6 (R12). -/
abbrev G : Letter := 6
/-- Letter index 7 (R12). -/
abbrev H : Letter := 7
/-- Letter index 8 (R12). -/
abbrev I : Letter := 8
/-- Letter index 9 (R12). -/
abbrev J : Letter := 9
/-- Letter index 10 (R12). -/
abbrev K : Letter := 10
/-- Letter index 11 (R12). -/
abbrev L : Letter := 11
/-- Letter index 12 (R12). -/
abbrev M : Letter := 12
/-- Letter index 13 (R12). -/
abbrev N : Letter := 13
/-- Letter index 14 (R12). -/
abbrev O : Letter := 14
/-- Letter index 15 (R12). -/
abbrev P : Letter := 15
/-- Letter index 16 (R12). -/
abbrev Q : Letter := 16
/-- Letter index 17 (R12). -/
abbrev R : Letter := 17
/-- Letter index 18 (R12). -/
abbrev S : Letter := 18
/-- Letter index 19 (R12). -/
abbrev T : Letter := 19
/-- Letter index 20 (R12). -/
abbrev U : Letter := 20
/-- Letter index 21 (R12). -/
abbrev V : Letter := 21
/-- Letter index 22 (R12). -/
abbrev W : Letter := 22
/-- Letter index 23 (R12). -/
abbrev X : Letter := 23
/-- Letter index 24 (R12). -/
abbrev Y : Letter := 24
/-- Letter index 25 (R12). -/
abbrev Z : Letter := 25

end Sys2Proof.Letters

namespace Sys2Proof.Machine

open Sys2Proof.Letters

/-- `RomWiring(r)`: the letter that input index i maps to at offset 0 (R60). -/
def romWiring : RotorNo → Vector Letter 26
  | .I => #v[E, K, M, F, L, G, D, Q, V, Z, N, T, O,
            W, Y, H, X, U, S, P, A, I, B, R, C, J]
  | .II => #v[A, J, D, K, S, I, R, U, X, B, L, H, W,
            T, M, C, Q, G, Z, N, P, Y, F, V, O, E]
  | .III => #v[B, D, F, H, J, L, C, P, R, T, X, V, Z,
            N, Y, E, I, W, G, A, K, M, U, S, Q, O]
  | .IV => #v[E, S, O, V, P, Z, J, A, Y, Q, U, I, R,
            H, X, L, N, F, T, G, K, D, C, M, W, B]
  | .V => #v[V, Z, B, R, G, I, T, Y, U, P, S, D, N,
            H, L, X, A, W, M, J, Q, O, F, E, C, K]
  | .VI => #v[J, P, G, V, O, U, M, F, Y, Q, B, E, N,
            H, Z, R, D, K, A, S, X, L, I, C, T, W]
  | .VII => #v[N, Z, J, H, G, R, C, X, M, Y, S, W, B,
            O, U, F, A, I, V, L, P, E, K, Q, D, T]
  | .VIII => #v[F, K, Q, H, T, L, X, O, C, B, J, S, P,
            D, Z, R, A, M, E, W, N, I, U, Y, G, V]

/-- `RomNotch(r)`, a set of letter indices (R60). -/
def romNotch : RotorNo → List Letter
  | .I => [Q]
  | .II => [E]
  | .III => [V]
  | .IV => [J]
  | .V => [Z]
  | .VI => [Z, M]
  | .VII => [Z, M]
  | .VIII => [Z, M]

/-- `RomTurnover(r)`, a set of letter indices (R60). -/
def romTurnover : RotorNo → List Letter
  | .I => [R]
  | .II => [F]
  | .III => [W]
  | .IV => [K]
  | .V => [A]
  | .VI => [A, N]
  | .VII => [A, N]
  | .VIII => [A, N]

/-- `RomReflector(f)` (R61). -/
def romReflector : ReflectorNo → Vector Letter 26
  | .A => #v[E, J, M, Z, A, L, Y, X, V, B, W, F, C,
            R, Q, U, O, N, T, S, P, I, K, H, G, D]
  | .B => #v[Y, R, U, H, Q, S, L, D, P, X, N, G, O,
            K, M, I, E, B, F, Z, C, W, V, J, A, T]
  | .C => #v[F, V, P, J, I, A, O, Y, E, D, R, Z, X,
            W, G, C, T, K, U, Q, S, B, N, M, H, L]

/-- `RomInv(r)[y]`: the letter index that the wiring of rotor `r` maps to `y` (R63, R127). Every wiring is
a bijection, so the search always finds one (`romWiring_romInverse`). -/
def romInverse (r : RotorNo) (y : Letter) : Letter :=
  ((List.finRange 26).find? fun k => (romWiring r)[k] == y).getD 0

end Sys2Proof.Machine
end

