-- ==== Sys2Proof/Machine/Operands.lean ====
section
/-! DEFINITION. Operand forms of the commands and the bit layouts of the internal words
(30_encoding.md R90, R91, R96, R97, R104). A reading answers `none` exactly where the operand lies
outside its legal range. -/

namespace Sys2Proof.Machine

/-- A rotor choice: the catalogue number `1..8` (R23, R90). -/
def rotorOfByte (b : Byte) : Option RotorNo :=
  match b.toNat with
  | 1 => some .I
  | 2 => some .II
  | 3 => some .III
  | 4 => some .IV
  | 5 => some .V
  | 6 => some .VI
  | 7 => some .VII
  | 8 => some .VIII
  | _ => none

/-- A reflector choice: the catalogue index `0..2` (R24, R90). -/
def reflectorOfByte (b : Byte) : Option ReflectorNo :=
  match b.toNat with
  | 0 => some .A
  | 1 => some .B
  | 2 => some .C
  | _ => none

/-- A letter index `0..25`: an offset of ENG_INIT or an entry of ENG_SET_PLUGBOARD (R90). -/
def letterOfByte (b : Byte) : Option Letter :=
  if h : b.toNat < 26 then some ⟨b.toNat, h⟩ else none

/-- The letter of an ASCII code, lower case folded to upper case: 0x41..0x5A and 0x61..0x7A (R12,
R135). -/
def letterOfAscii (ch : Byte) : Option Letter :=
  if 0x41 ≤ ch.toNat ∧ ch.toNat ≤ 0x5A then some (Fin.ofNat 26 (ch.toNat - 0x41))
  else if 0x61 ≤ ch.toNat ∧ ch.toNat ≤ 0x7A then some (Fin.ofNat 26 (ch.toNat - 0x61))
  else none

/-- The ASCII code of a letter, always the capital: `0x41 + i` (R12, R135). -/
def asciiOfLetter (c : Letter) : Byte := BitVec.ofNat 8 (0x41 + c.val)

/-- The letter that entry `i` of a plugboard operand names, for entries below 26 (R90). -/
def plugEntry (p : List Byte) (i : Letter) : Letter := Fin.ofNat 26 (p.getD i.val 0).toNat

/-- The plugboard operand of ENG_SET_PLUGBOARD: 26 entries, each below 26, that make an involution
(R136). Lists of another length stand for no packet (log entry 11). -/
def plugboardOfBytes (p : List Byte) : Option (Vector Letter 26) :=
  if p.length = 26 ∧ (∀ b ∈ p, b.toNat < 26) ∧ (∀ i : Letter, plugEntry p (plugEntry p i) = i) then
    some (Vector.ofFn (plugEntry p))
  else none

/-- A flag operand: 0 is false and 1 is true (R90, R242, R243). -/
def flagOfByte (b : Byte) : Option Bool :=
  match b.toNat with
  | 0 => some false
  | 1 => some true
  | _ => none

/-- The mask operand of PS2_SET_LOCK: `0..15` (R90, R241). -/
def lockMaskOfByte (b : Byte) : Option (BitVec 4) :=
  if b.toNat ≤ 15 then some (b.setWidth 4) else none

/-- The typematic parameter byte `(delay << 5) | rate` of `rate ∈ 0..31` and `delay ∈ 0..3` (R97,
R247). -/
def typematicOfBytes (rate delay : Byte) : Option Byte :=
  if rate.toNat ≤ 31 ∧ delay.toNat ≤ 3 then some ((delay <<< 5) ||| rate) else none

/-- The status byte of a response (R91). -/
def statusByte : Status → Byte
  | .ok => 0x00
  | .invalidRotorIndex => 0x01
  | .invalidOffset => 0x02
  | .invalidReflector => 0x03
  | .invalidPlugboard => 0x04
  | .invalidArg => 0x05
  | .notConfigured => 0x06
  | .txQueueFull => 0x07
  | .illegalCommand => 0x0F

/-- The LED parameter byte, `zext_8(lock_mask)` (R97). -/
def ledByte (mask : BitVec 4) : Byte := mask.setWidth 8

/-- The 9-bit encoding of an outbound queue item: `Cmd(b) = {0, b}`, `Ign = 0x100` (R96). -/
def txItemBits : TxItem → BitVec 9
  | .cmd b => b.setWidth 9
  | .ign => 0x100

/-- The 12-bit layout of a raw entry: byte, e0, e1, brk, resp from bit 0 up (R104). -/
def rawEntryBits (e : RawEntry) : BitVec 12 :=
  (BitVec.ofBool e.resp ++ BitVec.ofBool e.brk ++ BitVec.ofBool e.e1 ++ BitVec.ofBool e.e0 ++ e.byte :
    BitVec 12)

/-- `resp(v)`: the raw entry of a device response (R170). -/
def respEntry (v : Byte) : RawEntry :=
  { byte := v, e0 := false, e1 := false, brk := false, resp := true }

/-- `pause(v)`: the raw entry of the completed Pause sequence (R170). -/
def pauseEntry (v : Byte) : RawEntry :=
  { byte := v, e0 := false, e1 := true, brk := false, resp := false }

/-- `key(v, e, k)`: the raw entry of a scan code (R170). -/
def keyEntry (v : Byte) (e0 brk : Bool) : RawEntry :=
  { byte := v, e0 := e0, e1 := false, brk := brk, resp := false }

end Sys2Proof.Machine
end

