-- ==== Sys2Proof/Machine/Ops.lean ====
section
/-! DEFINITION. The named operations the meanings share: responses (R11, R87), the FIFOs (R64, R65), the
immediate slot (R215), the receive clear (R159), the decoder's hard reset (R184) and save (R183), and
the command sequences of R98. The block has no trap, so there is no operation that takes an exception
or returns from one (60_exceptions.md R269). -/

namespace Sys2Proof.Machine

open Host (Outcome)

/-! ### Responses -/

/-- The state that has answered the current command with status `st` and the result bytes `data` (R87). -/
def respond (st : Status) (data : List Byte) (s : State) : State :=
  { s with response := statusByte st :: data }

/-- `respond(OK, …)` as the outcome of a command (R11). -/
def answer (data : List Byte) (s : State) : Outcome State Fault Refusal :=
  .next (respond .ok data s)

/-- `raise S`: the status byte alone, no other state change (R11, R87, R261). -/
def raiseStatus (st : Status) (s : State) : Outcome State Fault Refusal :=
  .next (respond st [] s)

/-! ### FIFOs and command sequences -/

/-- `room(F) ≥ k` for a FIFO of capacity `cap` that holds `len` items (R64). -/
def hasRoom (cap len k : Nat) : Bool := decide (len + k ≤ cap)

/-- The sequence of a LED update: lock keys and PS2_SET_LOCK (R98). -/
def ledSequence (mask : Byte) : List TxItem := [.cmd 0xED, .ign, .cmd mask, .ign]

/-- The sequence of PS2_ECHO (R98). -/
def echoSequence : List TxItem := [.cmd 0xEE, .ign]

/-- The sequence of PS2_READ_ID (R98). -/
def readIdSequence : List TxItem := [.cmd 0xF2, .ign, .ign, .ign]

/-- The sequence of PS2_GET_SCANCODE_SET (R98). -/
def getScancodeSetSequence : List TxItem := [.cmd 0xF0, .ign, .cmd 0x00, .ign, .ign]

/-- The sequence of PS2_TYPEMATIC with parameter byte `p` (R98). -/
def typematicSequence (p : Byte) : List TxItem := [.cmd 0xF3, .ign, .cmd p, .ign]

/-- The sequence of PS2_RESET (R98). -/
def resetSequence : List TxItem := [.cmd 0xFF, .ign, .ign]

/-- The whole sequence at the tail of `txq` (R98: pushed atomically). -/
def pushTx (items : List TxItem) (p : Ps2) : Ps2 := { p with txq := p.txq ++ items }

/-- The whole sequence fits in `txq` (R65). -/
def txFits (cfg : Config.Params) (items : List TxItem) (p : Ps2) : Bool :=
  hasRoom cfg.txqCap p.txq.length items.length

/-- Queue a command sequence whole and answer OK, or answer TxQueueFull and change nothing (R65, R98,
R241, R244 to R248). -/
def queueSequence (items : List TxItem) (s : State) : Outcome State Fault Refusal :=
  .next (if txFits s.cfg items s.ps2 then respond .ok [] { s with ps2 := pushTx items s.ps2 }
    else respond .txQueueFull [] s)

/-! ### PS/2 unit -/

/-- `immediate(b)`: the one-entry slot takes `b`; a newer request replaces a pending one (R215). -/
def immediate (b : Byte) (p : Ps2) : Ps2 :=
  { p with tx := { p.tx with immValid := true, immByte := b } }

/-- `rx_clear()` (R159). -/
def rxClear (p : Ps2) : Ps2 :=
  { p with rx := { p.rx with n := 0, sr := 0, par := false, perr := false } }

/-- `save(e)`: push to `raw`, or drop the newest and count it, saturating at 0xFFFF (R183). -/
def save (cfg : Config.Params) (e : RawEntry) (p : Ps2) : Ps2 :=
  if hasRoom cfg.rawCap p.raw.length 1 then { p with raw := p.raw ++ [e] }
  else { p with rawDrops := if p.rawDrops = 0xFFFF then 0xFFFF else p.rawDrops + 1 }

/-- `hard_reset()`: the decoder and transmit mode only (R184). -/
def hardReset (p : Ps2) : Ps2 :=
  { p with
    dec := { p.dec with e0 := false, brk := false, e1Rem := 0, expected := 0 }
    txq := []
    tx := { p.tx with immValid := false, lastValid := false } }

/-- `dec.expected <- max(0, dec.expected − 1)` (R174, R176). -/
def oneAnswerFewer (p : Ps2) : Ps2 :=
  { p with dec := { p.dec with expected := if p.dec.expected = 0 then 0 else p.dec.expected - 1 } }

end Sys2Proof.Machine
end

