-- ==== Sys2Proof/Machine/Engine.lean ====
section
/-! DEFINITION. The cipher engine: stepping (40_cipher_engine.md R120 to R126), the permutation (R127 to
R129) and the four engine commands (R133 to R138). -/

namespace Sys2Proof.Machine

open Host (Outcome)

/-! ### Stepping -/

/-- `adv(j)`: the offset plus 1 mod 26 (R120). -/
def advance (r : Rotor) : Rotor := { r with off := r.off + 1 }

/-- The rotor's current offset is in its turnover set, `eng.off[j] ∈ Turn(j)` (R120). -/
def atTurnover (r : Rotor) : Bool := (romTurnover r.sel).contains r.off

/-- The rotor's current offset is in its notch set, `eng.off[j] ∈ Notch(j)` (R120). -/
def atNotch (r : Rotor) : Bool := (romNotch r.sel).contains r.off

/-- Advance, and set `step_next` when the new offset is in the turnover set: the shared part of R121, R122,
R124 and R125. -/
def advanceMark (r : Rotor) : Rotor :=
  let r' := advance r
  if atTurnover r' then { r' with stepNext := true } else r'

/-- Step 1, the fast rotor (R121). -/
def stepFast (e : Engine) : Engine := { e with r1 := advanceMark e.r1 }

/-- Step 2, the middle rotor's double step, on the offset it holds when step 2 begins (R122). -/
def stepDouble (e : Engine) : Engine :=
  if atNotch e.r2 then { e with r2 := advanceMark e.r2 } else e

/-- Step 3, iteration 1: R1 carries into R2 (R124). -/
def carryFast (e : Engine) : Engine :=
  if e.r1.stepNext then
    { e with r1 := { e.r1 with stepNext := false }, r2 := advanceMark e.r2 }
  else e

/-- Step 3, iteration 2: R2 carries into R3 (R125). -/
def carryMiddle (e : Engine) : Engine :=
  if e.r2.stepNext then
    { e with r2 := { e.r2 with stepNext := false }, r3 := advanceMark e.r3 }
  else e

/-- `Step()`: R121, R122, R124, R125 in that order (R123, R126). -/
def stepEngine (e : Engine) : Engine := carryMiddle (carryFast (stepDouble (stepFast e)))

/-! ### Permutation -/

/-- `forward(j, x)` (R127). -/
def forward (r : Rotor) (x : Letter) : Letter := (romWiring r.sel)[x + r.off] - r.off

/-- `reverse(j, x)` (R127). -/
def reverse (r : Rotor) (x : Letter) : Letter := romInverse r.sel (x + r.off) - r.off

/-- `reflect(x)` (R128). -/
def reflect (e : Engine) (x : Letter) : Letter := (romReflector e.refl)[x]

/-- The plugboard image of a letter, `eng.pb[c]` (R27). -/
def plug (e : Engine) (c : Letter) : Letter := e.pb[c]

/-- The rotor core of the permutation: R1, R2, R3, reflector, R3, R2, R1 (R129 steps 2 to 4). -/
def core26 (e : Engine) (x : Letter) : Letter :=
  reverse e.r1 (reverse e.r2 (reverse e.r3
    (reflect e (forward e.r3 (forward e.r2 (forward e.r1 x))))))

/-- `Perm(c)`: the plugboard before and after the rotor core (R129). -/
def perm (e : Engine) (c : Letter) : Letter := plug e (core26 e (plug e c))

/-! ### Commands -/

/-- The engine that a successful ENG_INIT leaves: everything but the plugboard is replaced, the
`step_next` flags are cleared (R134). -/
def configure (e : Engine) (n1 n2 n3 : RotorNo) (f : ReflectorNo) (o1 o2 o3 : Letter) : Engine :=
  { e with
    configured := true
    r1 := { sel := n1, off := o1, stepNext := false }
    r2 := { sel := n2, off := o2, stepNext := false }
    r3 := { sel := n3, off := o3, stepNext := false }
    refl := f }

/-- ENG_INIT: rotor choices, then offsets, then the reflector are checked (R133, R262), then the
configuration is replaced (R134). -/
def execEngInit (rot1 rot2 rot3 refl off1 off2 off3 : Byte) (s : State) :
    Outcome State Fault Refusal :=
  match rotorOfByte rot1, rotorOfByte rot2, rotorOfByte rot3 with
  | some n1, some n2, some n3 =>
    match letterOfByte off1, letterOfByte off2, letterOfByte off3 with
    | some o1, some o2, some o3 =>
      match reflectorOfByte refl with
      | some f => answer [] { s with eng := configure s.eng n1 n2 n3 f o1 o2 o3 }
      | none => raiseStatus .invalidReflector s
    | _, _, _ => raiseStatus .invalidOffset s
  | _, _, _ => raiseStatus .invalidRotorIndex s

/-- ENG_SET_PLUGBOARD: range and involution are checked (R136), then the plugboard is replaced
(R137). -/
def execEngSetPlugboard (p : List Byte) (s : State) : Outcome State Fault Refusal :=
  match plugboardOfBytes p with
  | some pb => answer [] { s with eng := { s.eng with pb := pb } }
  | none => raiseStatus .invalidPlugboard s

/-- ENG_ENCRYPT: NotConfigured, then the letter check, whose failure is the fault of R266; then the
rotors step and the letter is permuted at the new offsets (R135). -/
def execEngEncrypt (ch : Byte) (s : State) : Outcome State Fault Refusal :=
  if s.eng.configured then
    match letterOfAscii ch with
    | some c =>
      let e := stepEngine s.eng
      answer [asciiOfLetter (perm e c)] { s with eng := e }
    | none => .fault (.encryptNonLetter ch)
  else raiseStatus .notConfigured s

/-- ENG_ROTOR_OFFSET: NotConfigured, then the index check, then `eng.off[i]` (R138). -/
def execEngRotorOffset (i : Byte) (s : State) : Outcome State Fault Refusal :=
  if s.eng.configured then
    match i.toNat with
    | 0 => answer [BitVec.ofNat 8 s.eng.r1.off.val] s
    | 1 => answer [BitVec.ofNat 8 s.eng.r2.off.val] s
    | 2 => answer [BitVec.ofNat 8 s.eng.r3.off.val] s
    | _ => raiseStatus .invalidArg s
  else raiseStatus .notConfigured s

end Sys2Proof.Machine
end

