-- ==== Sys2Proof/Machine/Ps2Translate.lean ====
section
/-! DEFINITION. Translation of raw entries into key events (43_ps2_translation.md R190 to R202). -/

namespace Sys2Proof.Machine

/-- The lock keys by their lock index: 0 scroll, 1 num, 2 caps (R193). -/
inductive LockKey where
  | scroll | num | caps
  deriving DecidableEq, Repr

/-- The modifier fields of `ks` (R194). -/
inductive ModKey where
  | shift | ctrl | alt | altGr | gui
  deriving DecidableEq, Repr

/-- What the translation of one entry gives (R190, R202): STALL, IGNORE, or an event, the last two with
the entry's state update. -/
inductive Translated where
  | stall
  | ignore (p : Ps2)
  | event (ev : KeyEvent) (p : Ps2)
  deriving DecidableEq, Repr

/-- `lockidx(code)` (R193). -/
def lockKeyOf (cfg : Config.Params) (code : KeyCode) : Option LockKey :=
  if code = cfg.keyScroll then some .scroll
  else if code = cfg.keyNum then some .num
  else if code = cfg.keyCaps then some .caps
  else none

/-- `modfield(code)` (R194). -/
def modKeyOf (cfg : Config.Params) (code : KeyCode) : Option ModKey :=
  if code = cfg.keyLShift ∨ code = cfg.keyRShift then some .shift
  else if code = cfg.keyLCtrl ∨ code = cfg.keyRCtrl then some .ctrl
  else if code = cfg.keyLAlt then some .alt
  else if code = cfg.keyRAlt then some .altGr
  else if code = cfg.keyLGui ∨ code = cfg.keyRGui then some .gui
  else none

/-- The bit of `lock_mask` that a lock key toggles (R50, R193). -/
def lockBit : LockKey → BitVec 4
  | .scroll => 0b0001
  | .num => 0b0010
  | .caps => 0b0100

/-- `lock_held[k]` (R51). -/
def getHeld (k : LockKey) (h : LockHeld) : Bool :=
  match k with
  | .scroll => h.scroll
  | .num => h.num
  | .caps => h.caps

/-- `lock_held` with entry `k` replaced (R51). -/
def setHeld (k : LockKey) (v : Bool) (h : LockHeld) : LockHeld :=
  match k with
  | .scroll => { h with scroll := v }
  | .num => { h with num := v }
  | .caps => { h with caps := v }

/-- `ks.m` (R49). -/
def getMod (m : ModKey) (ks : Modifiers) : Bool :=
  match m with
  | .shift => ks.shift
  | .ctrl => ks.ctrl
  | .alt => ks.alt
  | .altGr => ks.altGr
  | .gui => ks.gui

/-- `ks` with field `m` replaced (R49). -/
def setMod (m : ModKey) (v : Bool) (ks : Modifiers) : Modifiers :=
  match m with
  | .shift => { ks with shift := v }
  | .ctrl => { ks with ctrl := v }
  | .alt => { ks with alt := v }
  | .altGr => { ks with altGr := v }
  | .gui => { ks with gui := v }

/-- `emit`: the event of the final code, composed from the state after the entry's update (R200). -/
def emit (brk : Bool) (code : KeyCode) (p : Ps2) : Translated :=
  .event (keyEvent brk p.ks p.lockMask code) p

/-- The event of a break, unless `no_breaks` suppresses it; the state update stays (R196). -/
def emitBreak (code : KeyCode) (p : Ps2) : Translated :=
  if p.noBreaks then .ignore p else emit true code p

/-- A lock key (R193, R198). -/
def translateLock (cfg : Config.Params) (k : LockKey) (code : KeyCode) (brk : Bool) (p : Ps2) :
    Translated :=
  if brk then emitBreak code { p with lockHeld := setHeld k false p.lockHeld }
  else if getHeld k p.lockHeld then
    if p.noRepeats then .ignore p else emit false code p
  else
    let mask := p.lockMask ^^^ lockBit k
    let items := ledSequence (ledByte mask)
    if txFits cfg items p then
      emit false code (pushTx items { p with lockMask := mask, lockHeld := setHeld k true p.lockHeld })
    else .stall

/-- A modifier key (R194, R197). -/
def translateModifier (m : ModKey) (code : KeyCode) (brk : Bool) (p : Ps2) : Translated :=
  if brk then emitBreak code { p with ks := setMod m false p.ks }
  else if p.noRepeats && getMod m p.ks then .ignore p
  else emit false code { p with ks := setMod m true p.ks }

/-- The code after the keypad remap: a keypad key is remapped when Num Lock is off or Shift is held
(R195). -/
def remapKeypad (cfg : Config.Params) (code : KeyCode) (p : Ps2) : KeyCode :=
  match cfg.keypadRemap.lookup code with
  | some nav => if !p.lockMask.getLsbD 1 || p.ks.shift then nav else code
  | none => code

/-- Any other key (R195, R196, R199). -/
def translatePlain (cfg : Config.Params) (code : KeyCode) (brk : Bool) (p : Ps2) : Translated :=
  let code' := remapKeypad cfg code p
  if code' = 0 then .ignore p
  else if brk then emitBreak code' p
  else emit false code' p

/-- The key code of an entry that is no response (R192). -/
def lookupCode (cfg : Config.Params) (e : RawEntry) : KeyCode :=
  if e.e1 then cfg.keyPause else if e.e0 then cfg.scanE0 e.byte else cfg.scan e.byte

/-- `translate_one(e)` (R202). -/
def translateOne (cfg : Config.Params) (e : RawEntry) (p : Ps2) : Translated :=
  if e.resp then .event (responseEvent e.byte) p
  else
    let code := lookupCode cfg e
    if code = 0 then .ignore p
    else
      match lockKeyOf cfg code with
      | some k => translateLock cfg k code e.brk p
      | none =>
        match modKeyOf cfg code with
        | some m => translateModifier m code e.brk p
        | none => translatePlain cfg code e.brk p

/-- The passes of `translate()` over the entries `raw`, oldest first, which become the raw ring's new
contents where they stop: each pass consumes one entry, or stops at a full `evt` or a STALL (R190). -/
def translateEntries (cfg : Config.Params) : List RawEntry → Ps2 → Ps2
  | [], p => { p with raw := [] }
  | e :: rest, p =>
    if hasRoom cfg.evtCap p.evt.length 1 then
      match translateOne cfg e p with
      | .stall => { p with raw := e :: rest }
      | .ignore p' => translateEntries cfg rest p'
      | .event ev p' => translateEntries cfg rest { p' with evt := p'.evt ++ [ev] }
    else { p with raw := e :: rest }

/-- `translate()` (R190). -/
def translate (cfg : Config.Params) (p : Ps2) : Ps2 := translateEntries cfg p.raw p

end Sys2Proof.Machine
end

