-- ==== Sys2Proof/Machine/Ps2Commands.lean ====
section
/-! DEFINITION. The fourteen PS/2 commands of the command port (45_ps2_commands.md R235 to R248). -/

namespace Sys2Proof.Machine

open Host (Outcome)

/-! ### Unit control -/

/-- PS2_INIT: every PS/2 element at its reset value; the engine is untouched (R235). -/
def execPs2Init (s : State) : Outcome State Fault Refusal :=
  answer [] { s with ps2 := Ps2.reset }

/-- PS2_ENABLE_IRQ (R236). -/
def execPs2EnableIrq (s : State) : Outcome State Fault Refusal :=
  answer [] { s with ps2 := { s.ps2 with irqEn := true } }

/-- PS2_DISABLE_IRQ: the bit-level unit freezes as it is (R237). -/
def execPs2DisableIrq (s : State) : Outcome State Fault Refusal :=
  answer [] { s with ps2 := { s.ps2 with irqEn := false } }

/-! ### Reading events and lock state -/

/-- PS2_AVAILABLE: translate, then the number of events (R238). -/
def execPs2Available (s : State) : Outcome State Fault Refusal :=
  let p := translate s.cfg s.ps2
  answer [BitVec.ofNat 8 p.evt.length] { s with ps2 := p }

/-- The two bytes of an event in a response, the key code first (R67). -/
def eventBytes (ev : KeyEvent) : List Byte := [ev.extractLsb' 0 8, ev.extractLsb' 8 8]

/-- PS2_READ: translate, then pop one event, or answer 0 when there is none (R239). -/
def execPs2Read (s : State) : Outcome State Fault Refusal :=
  let p := translate s.cfg s.ps2
  match p.evt with
  | [] => answer (eventBytes 0) { s with ps2 := p }
  | ev :: rest => answer (eventBytes ev) { s with ps2 := { p with evt := rest } }

/-- PS2_GET_LOCK: the lock mask; no translation, nothing sent (R240). -/
def execPs2GetLock (s : State) : Outcome State Fault Refusal :=
  answer [ledByte s.ps2.lockMask] s

/-- PS2_SET_LOCK: the argument check, then room for the LED sequence (R241, R262). -/
def execPs2SetLock (mask : Byte) (s : State) : Outcome State Fault Refusal :=
  match lockMaskOfByte mask with
  | none => raiseStatus .invalidArg s
  | some m =>
    .next (if txFits s.cfg (ledSequence mask) s.ps2 then
        respond .ok []
          { s with ps2 := pushTx (ledSequence mask) { s.ps2 with lockMask := m } }
      else respond .txQueueFull [] s)

/-! ### Options -/

/-- PS2_SET_NO_BREAKS (R242). -/
def execPs2SetNoBreaks (flag : Byte) (s : State) : Outcome State Fault Refusal :=
  match flagOfByte flag with
  | some v => answer [] { s with ps2 := { s.ps2 with noBreaks := v } }
  | none => raiseStatus .invalidArg s

/-- PS2_SET_NO_REPEATS (R243). -/
def execPs2SetNoRepeats (flag : Byte) (s : State) : Outcome State Fault Refusal :=
  match flagOfByte flag with
  | some v => answer [] { s with ps2 := { s.ps2 with noRepeats := v } }
  | none => raiseStatus .invalidArg s

/-! ### Device commands -/

/-- PS2_ECHO (R244). -/
def execPs2Echo (s : State) : Outcome State Fault Refusal := queueSequence echoSequence s

/-- PS2_READ_ID (R245). -/
def execPs2ReadId (s : State) : Outcome State Fault Refusal := queueSequence readIdSequence s

/-- PS2_GET_SCANCODE_SET (R246). -/
def execPs2GetScancodeSet (s : State) : Outcome State Fault Refusal :=
  queueSequence getScancodeSetSequence s

/-- PS2_TYPEMATIC: the argument check, then room for the sequence (R247, R262). -/
def execPs2Typematic (rate delay : Byte) (s : State) : Outcome State Fault Refusal :=
  match typematicOfBytes rate delay with
  | some p => queueSequence (typematicSequence p) s
  | none => raiseStatus .invalidArg s

/-- PS2_RESET: resets the keyboard, not the block (R248). -/
def execPs2Reset (s : State) : Outcome State Fault Refusal := queueSequence resetSequence s

end Sys2Proof.Machine
end

