-- ==== Sys2Proof/Machine/Dispatch.lean ====
section
/-! DEFINITION. exec: one arm per command packet of R88. -/

namespace Sys2Proof.Machine

open Host (Outcome)

/-- What a command does, by its constructor. -/
def exec (i : Instr) (s : State) : Host.Outcome State Fault Refusal :=
  match i with
  | .engInit rot1 rot2 rot3 refl off1 off2 off3 => Sys2Proof.Machine.execEngInit rot1 rot2 rot3 refl off1 off2 off3 s
  | .engSetPlugboard p => Sys2Proof.Machine.execEngSetPlugboard p s
  | .engEncrypt ch => Sys2Proof.Machine.execEngEncrypt ch s
  | .engRotorOffset n => Sys2Proof.Machine.execEngRotorOffset n s
  | .ps2Init => Sys2Proof.Machine.execPs2Init s
  | .ps2EnableIrq => Sys2Proof.Machine.execPs2EnableIrq s
  | .ps2DisableIrq => Sys2Proof.Machine.execPs2DisableIrq s
  | .ps2Available => Sys2Proof.Machine.execPs2Available s
  | .ps2Read => Sys2Proof.Machine.execPs2Read s
  | .ps2GetLock => Sys2Proof.Machine.execPs2GetLock s
  | .ps2SetLock mask => Sys2Proof.Machine.execPs2SetLock mask s
  | .ps2SetNoBreaks flag => Sys2Proof.Machine.execPs2SetNoBreaks flag s
  | .ps2SetNoRepeats flag => Sys2Proof.Machine.execPs2SetNoRepeats flag s
  | .ps2Echo => Sys2Proof.Machine.execPs2Echo s
  | .ps2ReadId => Sys2Proof.Machine.execPs2ReadId s
  | .ps2GetScancodeSet => Sys2Proof.Machine.execPs2GetScancodeSet s
  | .ps2Typematic rate delay => Sys2Proof.Machine.execPs2Typematic rate delay s
  | .ps2Reset => Sys2Proof.Machine.execPs2Reset s

end Sys2Proof.Machine
end

