-- ==== Sys2Proof/Machine/Ps2Decoder.lean ====
section
/-! DEFINITION. The PS/2 decoder: what one received byte does (42_ps2_decoder.md R170 to R184). -/

namespace Sys2Proof.Machine

/-- ECHO, byte 0xEE: saved; counted when the block's last byte was its own ECHO, else answered with one
(R176). -/
def decodeEcho (cfg : Config.Params) (p : Ps2) : Ps2 :=
  let p' := save cfg (respEntry 0xEE) p
  if p.tx.lastValid && p.tx.lastSent == 0xEE then oneAnswerFewer p' else immediate 0xEE p'

/-- A byte absorbed by the Pause sequence; the one that brings the count to 0 saves the Pause entry
(R178). -/
def decodePause (cfg : Config.Params) (b : Byte) (p : Ps2) : Ps2 :=
  let rem := p.dec.e1Rem - 1
  let p' := { p with dec := { p.dec with e1Rem := rem } }
  if rem = 0 then save cfg (pauseEntry b) p' else p'

/-- A response byte while answers are owed (R179). -/
def decodeResponse (cfg : Config.Params) (b : Byte) (p : Ps2) : Ps2 :=
  oneAnswerFewer (save cfg (respEntry b) p)

/-- A scan code: saved with the prefix flags, which are then cleared (R182). -/
def decodeScanCode (cfg : Config.Params) (b : Byte) (p : Ps2) : Ps2 :=
  let p' := save cfg (keyEntry b p.dec.e0 p.dec.brk) p
  { p' with
    dec := { p'.dec with
      lastMake := if p.dec.brk then p.dec.lastMake else b
      e0 := false
      brk := false } }

/-- `decode(b)`: the first matching class of R94 and R170 acts, and no other. -/
def decodeByte (cfg : Config.Params) (b : Byte) (p : Ps2) : Ps2 :=
  if b = 0xFF then save cfg (respEntry 0xFF) (hardReset p)
  else if b = 0x00 then hardReset p
  else if b = 0xAA ∨ b = 0xFC then
    save cfg (respEntry b) { p with dec := { p.dec with expected := 0 } }
  else if b = 0xFA then oneAnswerFewer p
  else if b = 0xFE then (if p.tx.lastValid then immediate p.tx.lastSent p else p)
  else if b = 0xEE then decodeEcho cfg p
  else if p.dec.e1Rem ≠ 0 then decodePause cfg b p
  else if p.dec.expected ≠ 0 then decodeResponse cfg b p
  else if b = 0xE0 then { p with dec := { p.dec with e0 := true } }
  else if b = 0xE1 then { p with dec := { p.dec with e1Rem := 7, e0 := false, brk := false } }
  else if b = 0xF0 then { p with dec := { p.dec with brk := true } }
  else decodeScanCode cfg b p

end Sys2Proof.Machine
end

