-- ==== Sys2Proof/Machine/Ps2Transmit.lean ====
section
/-! DEFINITION. The PS/2 transmitter: the sequencer's steps and the device's edges in SHIFT
(44_ps2_transmit.md R216 to R224). -/

namespace Sys2Proof.Machine

/-- The TX_START guard (R216). -/
def txStartEnabled (p : Ps2) : Bool :=
  p.irqEn && p.tx.phase == .idle && p.rx.n == 0 &&
    (p.tx.immValid || (!p.txq.isEmpty && p.dec.expected == 0))

/-- The start of a transmission of byte `b`, both lines still released (R217). -/
def beginTransmission (b : Byte) (p : Ps2) : Ps2 :=
  { p with tx := { p.tx with lastSent := b, lastValid := true, byte := b, k := 0, phase := .prep } }

/-- The item is a placeholder. -/
def isIgn : TxItem → Bool
  | .ign => true
  | .cmd _ => false

/-- The TX_START effect: the immediate byte first; else the queue's head command, with its placeholders
removed and counted as the answers owed (R217). A placeholder at the head cannot occur (R101; log entry
10). -/
def txStart (p : Ps2) : Ps2 :=
  if p.tx.immValid then
    beginTransmission p.tx.immByte { p with tx := { p.tx with immValid := false } }
  else
    match p.txq with
    | .cmd b :: rest =>
      beginTransmission b
        { p with
          txq := rest.dropWhile isIgn
          dec := { p.dec with expected := BitVec.ofNat 8 (rest.takeWhile isIgn).length } }
    | _ => p

/-- The sequencer's TX_START step: its effect where its guard holds, else nothing (R216; log entry 4). -/
def stepTxStart (p : Ps2) : Ps2 := if txStartEnabled p then txStart p else p

/-- The sequencer's TX_INHIBIT step (R218). -/
def stepTxInhibit (p : Ps2) : Ps2 :=
  if p.irqEn && p.tx.phase == .prep then
    { p with line := { p.line with clkDrvLow := true }, tx := { p.tx with phase := .inhibit } }
  else p

/-- The sequencer's TX_RELEASE step: data low (the start bit), clk released (R219). -/
def stepTxRelease (p : Ps2) : Ps2 :=
  if p.irqEn && p.tx.phase == .inhibit then
    { p with
      line := { dataDrvLow := true, clkDrvLow := false }
      tx := { p.tx with k := 0, phase := .shift } }
  else p

/-- `complete()`: back to IDLE with the receive state cleared (R224). -/
def txComplete (p : Ps2) : Ps2 :=
  rxClear { p with tx := { p.tx with phase := .idle, k := 0 } }

/-- `TX_EDGE(d)`: one falling edge in SHIFT at data level `d` (R220, R222). -/
def txEdge (d : Bool) (p : Ps2) : Ps2 :=
  let k := p.tx.k + 1
  let p' := { p with tx := { p.tx with k := k } }
  if k ≤ 8 then { p' with line := { p'.line with dataDrvLow := !p.tx.byte.getLsbD (k - 1) } }
  else if k = 9 then { p' with line := { p'.line with dataDrvLow := !oddPar p.tx.byte } }
  else if k = 10 then { p' with line := { p'.line with dataDrvLow := false } }
  else txComplete { p' with tx := { p'.tx with ack := !d } }

end Sys2Proof.Machine
end

