-- ==== Sys2Proof/Machine/Ps2Receive.lean ====
section
/-! DEFINITION. The PS/2 bus and the receive frame machine (41_ps2_receive.md R150 to R161). -/

namespace Sys2Proof.Machine

/-- The gap of milliseconds at which the receive watchdog expires (R5, R153). -/
def watchdogMs : BitVec 32 := 250

/-- The watchdog: on a gap of 250 ms or more, taken modulo 2^32, a partial frame is dropped; the edge's
time is recorded either way (R153). -/
def rxWatchdog (t : BitVec 32) (p : Ps2) : Ps2 :=
  let p' :=
    if watchdogMs ≤ t - p.rx.lastMs then
      rxClear (if p.rx.n ≠ 0 then { p with rx := { p.rx with status := .timeoutResync } } else p)
    else p
  { p' with rx := { p'.rx with lastMs := t } }

/-- Bit 1, the start bit, must be 0; a 1 returns the counter to 0 (R155). -/
def rxStartBit (d : Bool) (p : Ps2) : Ps2 :=
  if d then { p with rx := { p.rx with n := 0, status := .timeoutResync } } else p

/-- Bits 2 to 9, the data bits, least significant first: the `n`-th bit of the frame lands at `sr[n−2]`
(R156). -/
def rxDataBit (d : Bool) (p : Ps2) : Ps2 :=
  { p with rx := { p.rx with
      sr := p.rx.sr ||| ((BitVec.ofBool d).setWidth 8 <<< (p.rx.n.toNat - 2))
      par := p.rx.par ^^ d } }

/-- Bit 10, the parity bit: a mismatch is recorded (R157). -/
def rxParityBit (d : Bool) (p : Ps2) : Ps2 :=
  if (p.rx.par ^^ d) = true then p else { p with rx := { p.rx with perr := true } }

/-- Bit 11, the stop bit, whose level is not checked: a bad frame is discarded and a RESEND requested
(R157), a good one is decoded with the frame state already cleared (R158). -/
def rxStopBit (cfg : Config.Params) (p : Ps2) : Ps2 :=
  if p.rx.perr then
    rxClear (immediate 0xFE { p with rx := { p.rx with status := .parityError } })
  else
    decodeByte cfg p.rx.sr (rxClear { p with rx := { p.rx with status := .ok } })

/-- The rule of the frame's `n`-th bit, `n` being the count with this bit included (R154, R161). A count
outside 1..11, which no run reaches (R30), ends the frame too (log entry 9). -/
def rxBit (cfg : Config.Params) (d : Bool) (p : Ps2) : Ps2 :=
  if p.rx.n = 1 then rxStartBit d p
  else if 2 ≤ p.rx.n ∧ p.rx.n ≤ 9 then rxDataBit d p
  else if p.rx.n = 10 then rxParityBit d p
  else rxStopBit cfg p

/-- `RX_FALL(d, t)`: watchdog, count, then the bit's own rule (R161). -/
def rxFall (cfg : Config.Params) (d : Bool) (t : BitVec 32) (p : Ps2) : Ps2 :=
  let p' := rxWatchdog t p
  rxBit cfg d { p' with rx := { p'.rx with n := p'.rx.n + 1 } }

/-- The level of `data`: the wired-AND of what the device gives and what the block drives (R14, R150). -/
def dataLevel (device : Bool) (p : Ps2) : Bool := device && !p.line.dataDrvLow

/-- The dispatch of a falling edge that finds the interrupt enabled, by the transmit phase (R152). -/
def fallingEdge (cfg : Config.Params) (device : Bool) (t : BitVec 32) (p : Ps2) : Ps2 :=
  match p.tx.phase with
  | .shift => txEdge (dataLevel device p) p
  | .prep => p
  | .inhibit => p
  | .idle => rxFall cfg (dataLevel device p) t p

/-- `FALL(d, t)`: nothing at all while the interrupt is off (R151), else the dispatch of R152. -/
def busFall (cfg : Config.Params) (device : Bool) (t : BitVec 32) (p : Ps2) : Ps2 :=
  if p.irqEn then fallingEdge cfg device t p else p

/-- `RISE`: no effect in any phase (R160). -/
def busRise (p : Ps2) : Ps2 := p

end Sys2Proof.Machine
end

