-- ==== Sys2Proof/Machine/Port.lean ====
section
/-! DEFINITION. One step of one agent (00_scope.md R7): the command port's exchange (30_encoding.md R85,
R89), the device's edges and the sequencer's steps. -/

namespace Sys2Proof.Machine

open Host (Outcome)

/-- One exchange on the command port: the packet is decoded; a packet that is no command is answered
IllegalCommand and changes nothing (R89, R108). -/
def exchange (packet : List Byte) (s : State) : Outcome State Fault Refusal :=
  match decode packet with
  | .ok i => exec i s
  | .error _ => raiseStatus .illegalCommand s

/-- One step of one agent, atomic (R7, R69). The device's edges and the sequencer's steps touch the PS/2
unit only. -/
def deliver (a : AgentStep) (s : State) : Outcome State Fault Refusal :=
  match a with
  | .command packet => exchange packet s
  | .fall d t => .next { s with ps2 := busFall s.cfg d t s.ps2 }
  | .rise => .next { s with ps2 := busRise s.ps2 }
  | .txStart => .next { s with ps2 := stepTxStart s.ps2 }
  | .txInhibit => .next { s with ps2 := stepTxInhibit s.ps2 }
  | .txRelease => .next { s with ps2 := stepTxRelease s.ps2 }

/-- The machine takes the oldest of the agents' pending steps; with none pending the block waits (R71,
R280; log entries 1 and 3). -/
def takeStep (s : State) : Outcome State Fault Refusal :=
  match s.inputs with
  | [] => .next s
  | a :: rest => deliver a { s with inputs := rest }

end Sys2Proof.Machine
end

