-- ==== Sys2Proof/Machine/Step.lean ====
section
/-! DEFINITION. One step of the machine, and where a command packet stands for the next step to run. -/

namespace Sys2Proof.Machine

/-- One atomic step of the block (R69, R71). -/
def step (s : State) : Host.Outcome State Fault Refusal := takeStep s

/-- The state in which the host's next packet is the one the opcode table numbers as `w`: it stands
before every agent step still pending, so the very next step is its exchange (log entries 1 and 16). -/
def State.withFetchWord (s : State) (nbits w : Nat) : State :=
  { s with inputs := .command (tablePacket nbits w) :: s.inputs }

end Sys2Proof.Machine
end

