-- ==== Sys2Proof/Machine/Script.lean ====
section
/-! DEFINITION. The PS/2 frames (30_encoding.md R92, R93) and the pseudo-commands of the program syntax
(R109) as lists of agents' steps. -/

namespace Sys2Proof.Machine

/-- The eight data bits of a byte in wire order, least significant first (R66). -/
def dataBits (b : Byte) : List Bool :=
  [b.getLsbD 0, b.getLsbD 1, b.getLsbD 2, b.getLsbD 3, b.getLsbD 4, b.getLsbD 5, b.getLsbD 6,
   b.getLsbD 7]

/-- The 11 levels of a frame with the given parity and stop bits: start 0, data, parity, stop (R92). -/
def frameLevels (b : Byte) (parity stop : Bool) : List Bool :=
  false :: (dataBits b ++ [parity, stop])

/-- The falling edges with these device levels, all at time `t`. -/
def fallsAt (t : BitVec 32) (levels : List Bool) : List AgentStep := levels.map fun d => .fall d t

/-- `DEV_FRAME b @t` (R109). -/
def devFrame (b : Byte) (t : BitVec 32) : List AgentStep := fallsAt t (frameLevels b (oddPar b) true)

/-- `DEV_FRAME b badparity @t` (R109). -/
def devFrameBadParity (b : Byte) (t : BitVec 32) : List AgentStep :=
  fallsAt t (frameLevels b (!oddPar b) true)

/-- `DEV_CLOCK_HOST ack` or `nack`: 11 falling edges, the device pulling `data` low at the last one to
acknowledge (R109). The time of an edge in SHIFT has no effect. -/
def devClockHost (ack : Bool) : List AgentStep :=
  fallsAt 0 [true, true, true, true, true, true, true, true, true, true, !ack]

/-- The sequencer's three steps of one transmission, then the device's clocking of it. -/
def transmission (ack : Bool) : List AgentStep :=
  [.txStart, .txInhibit, .txRelease] ++ devClockHost ack

/-- The level the block presents on `data` after edge `k` of a transmission of `b`: frame bit `k` of R93,
for k = 0 (the start bit) to 10 (the stop bit). -/
def hostFrameLevel (b : Byte) (k : Nat) : Bool :=
  if k = 0 then false else if k ≤ 8 then b.getLsbD (k - 1) else if k = 9 then oddPar b else true

/-- The plugboard operands of `ENG_SET_PLUGBOARD {X-Y, …}` (R109): X and Y exchanged for each pair, every
other letter itself. -/
def plugboardPairs (pairs : List (Letter × Letter)) : List Byte :=
  (List.finRange 26).map fun c =>
    BitVec.ofNat 8 (match pairs.find? fun q => q.1 == c || q.2 == c with
      | some q => if q.1 = c then q.2.val else q.1.val
      | none => c.val)

/-- `ENG_ENCRYPT_STR` (R109): one ENG_ENCRYPT per ASCII code, in order. -/
def encryptString (codes : List Byte) : List Instr := codes.map .engEncrypt

/-- The exchange of a command's packet, as the host's step. -/
def sends (i : Instr) : AgentStep := .command (encode i)

end Sys2Proof.Machine
end

