-- ==== Sys2Proof/Safety.lean ====
section
/-! DEFINITION. What holds between any two steps (10_state.md R55 and the rules it rests on), in the terms
the statements use. -/

namespace Sys2Proof.Machine

/-- The invariants of R55. The ranges of `off`, `rsel`, `refl` and `e1_rem` hold by their types. -/
structure CoreInv (s : State) : Prop where
  /-- `eng.pb` is an involution (R27). -/
  plugboard : ∀ c : Letter, plug s.eng (plug s.eng c) = c
  /-- `eng.step_next[0] = eng.step_next[1] = 0` (R26). -/
  stepNext : s.eng.r1.stepNext = false ∧ s.eng.r2.stepNext = false
  rxCount : s.ps2.rx.n.toNat ≤ 10
  txCount : s.ps2.tx.k ≤ 10
  txCountIdle : s.ps2.tx.phase ≠ .shift → s.ps2.tx.k = 0
  rawRoom : s.ps2.raw.length ≤ s.cfg.rawCap
  evtRoom : s.ps2.evt.length ≤ s.cfg.evtCap
  txqRoom : s.ps2.txq.length ≤ s.cfg.txqCap
  /-- `head(txq)`, when it exists, is a `Cmd` item (R101). -/
  txqHead : s.ps2.txq.head? ≠ some .ign
  /-- A transmission owns the bus (R164). -/
  rxIdle : s.ps2.tx.phase ≠ .idle → s.ps2.rx.n = 0

/-- The bus levels the block presents follow from the transmit phase (R221). -/
def BusLevels (p : Ps2) : Prop :=
  match p.tx.phase with
  | .idle => p.line = { clkDrvLow := false, dataDrvLow := false }
  | .prep => p.line = { clkDrvLow := false, dataDrvLow := false }
  | .inhibit => p.line = { clkDrvLow := true, dataDrvLow := false }
  | .shift => p.tx.k ≤ 10 ∧
      p.line = { clkDrvLow := false, dataDrvLow := !hostFrameLevel p.tx.byte p.tx.k }

/-- The receive accumulators while `n` bits of a frame are in: nothing before the first data bit, no bit
of `sr` at or above the count, `par` the parity of `sr`, and `perr` only after bit 10 (R155, R156). -/
structure FrameInv (p : Ps2) : Prop where
  noData : p.rx.n.toNat ≤ 1 → p.rx.sr = 0 ∧ p.rx.par = false
  high : ∀ k, p.rx.n.toNat ≤ k + 1 → p.rx.sr.getLsbD k = false
  parity : p.rx.par = xor8 p.rx.sr
  parityError : p.rx.n ≠ 10 → p.rx.perr = false

/-- A byte the decoder treats the same way in every decoder state: OVERRUN, key error, BAT, ACK, RESEND,
ECHO (R94 priorities 1 to 5). -/
def isProtocolByte (b : Byte) : Bool :=
  b == 0xFF || b == 0x00 || b == 0xAA || b == 0xFC || b == 0xFA || b == 0xFE || b == 0xEE

/-- A byte that starts or continues a key sequence without being its key (R94 priorities 8 to 10). -/
def isSequenceByte (b : Byte) : Bool := b == 0xE0 || b == 0xE1 || b == 0xF0

/-- A raw entry that the decoder can make. A response carries no flag, and its byte is none of those that
are never saved, 0x00, ACK and RESEND; a key or Pause entry carries no byte that is a device answer, and a
key entry none that is a prefix; a Pause entry has no other flag (R104, R170, R172, R174, R175). -/
structure RawEntry.Sound (e : RawEntry) : Prop where
  response : e.resp = true →
    e.e0 = false ∧ e.e1 = false ∧ e.brk = false ∧ e.byte ≠ 0x00 ∧ e.byte ≠ 0xFA ∧ e.byte ≠ 0xFE
  pause : e.e1 = true → e.e0 = false ∧ e.brk = false ∧ e.resp = false
  notAnswer : e.resp = false → isProtocolByte e.byte = false
  notPrefix : e.resp = false → e.e1 = false → isSequenceByte e.byte = false

/-- Every raw entry is one the decoder can make (R104, R170), and no queued event is 0x0000, which
PS2_READ keeps for "empty" (R105). -/
def RingsSound (p : Ps2) : Prop := (∀ e ∈ p.raw, e.Sound) ∧ ∀ ev ∈ p.evt, ev ≠ 0

/-- The state an ENG_INIT or a reset leaves the flags in: what every keystroke starts from (R126 (e)). -/
def FlagsClear (e : Engine) : Prop := e.r1.stepNext = false ∧ e.r2.stepNext = false

/-- The plugboard is an involution (R27). -/
def PlugInvolution (e : Engine) : Prop := ∀ c : Letter, plug e (plug e c) = c

/-- The packet is one of the three commands that may change the engine (R8). -/
def changesEngine : Instr → Bool
  | .engInit _ _ _ _ _ _ _ => true
  | .engSetPlugboard _ => true
  | .engEncrypt _ => true
  | .engRotorOffset _ => false
  | .ps2Init => false
  | .ps2EnableIrq => false
  | .ps2DisableIrq => false
  | .ps2Available => false
  | .ps2Read => false
  | .ps2GetLock => false
  | .ps2SetLock _ => false
  | .ps2SetNoBreaks _ => false
  | .ps2SetNoRepeats _ => false
  | .ps2Echo => false
  | .ps2ReadId => false
  | .ps2GetScancodeSet => false
  | .ps2Typematic _ _ => false
  | .ps2Reset => false

/-- Two states that differ at most in what no command can read and the device cannot see: `raw_drops`,
`rx.status`, `tx.ack` and `dec.last_make` (R54). -/
def SameVisible (s t : State) : Prop :=
  t = { s with ps2 := { s.ps2 with
    rawDrops := t.ps2.rawDrops
    rx := { s.ps2.rx with status := t.ps2.rx.status }
    tx := { s.ps2.tx with ack := t.ps2.tx.ack }
    dec := { s.ps2.dec with lastMake := t.ps2.dec.lastMake } } }

/-- Two states that differ at most in the engine's configuration registers `rsel`, `refl` and `off`, whose
reset values the spec leaves unspecified (R282). -/
def SameButConfiguration (s t : State) : Prop :=
  t = { s with eng := { s.eng with
    r1 := { s.eng.r1 with sel := t.eng.r1.sel, off := t.eng.r1.off }
    r2 := { s.eng.r2 with sel := t.eng.r2.sel, off := t.eng.r2.off }
    r3 := { s.eng.r3 with sel := t.eng.r3.sel, off := t.eng.r3.off }
    refl := t.eng.refl } }

/-- The catalogue number of a rotor as an operand byte, R60's table. -/
def rotorByte : RotorNo → Byte
  | .I => 1
  | .II => 2
  | .III => 3
  | .IV => 4
  | .V => 5
  | .VI => 6
  | .VII => 7
  | .VIII => 8

/-- The index of a reflector as an operand byte, R61's table. -/
def reflectorByte : ReflectorNo → Byte
  | .A => 0
  | .B => 1
  | .C => 2

/-- The small letter's ASCII code, 0x61 for index 0 (R135). -/
def lowerAscii (c : Letter) : Byte := BitVec.ofNat 8 (0x61 + c.val)

/-- The opcode map of R88: each opcode with its packet length. -/
def opcodeMap : List (Byte × Nat) :=
  [(0x01, 8), (0x02, 27), (0x03, 2), (0x04, 2), (0x10, 1), (0x11, 1), (0x12, 1), (0x13, 1),
   (0x14, 1), (0x15, 1), (0x16, 2), (0x17, 2), (0x18, 2), (0x19, 1), (0x1A, 1), (0x1B, 1),
   (0x1C, 3), (0x1D, 1)]

/-- How many result bytes follow the status byte of an OK response (R88, column "OK response"). -/
def resultBytes : Instr → Nat
  | .engInit _ _ _ _ _ _ _ => 0
  | .engSetPlugboard _ => 0
  | .engEncrypt _ => 1
  | .engRotorOffset _ => 1
  | .ps2Init => 0
  | .ps2EnableIrq => 0
  | .ps2DisableIrq => 0
  | .ps2Available => 1
  | .ps2Read => 2
  | .ps2GetLock => 1
  | .ps2SetLock _ => 0
  | .ps2SetNoBreaks _ => 0
  | .ps2SetNoRepeats _ => 0
  | .ps2Echo => 0
  | .ps2ReadId => 0
  | .ps2GetScancodeSet => 0
  | .ps2Typematic _ _ => 0
  | .ps2Reset => 0

/-- The bytes decoded one after the other. -/
def decodeAll (cfg : Config.Params) (bytes : List Byte) (p : Ps2) : Ps2 :=
  bytes.foldl (fun q b => decodeByte cfg b q) p

/-- The unit is ready to receive: interrupt on, no transmission, `data` released (R152, R164). -/
def Listening (p : Ps2) : Prop :=
  p.irqEn = true ∧ p.tx.phase = .idle ∧ p.line.dataDrvLow = false

/-- The receive state at the end of a frame or before one (R159). -/
def FrameClear (rx : Rx) : Prop := rx.n = 0 ∧ rx.sr = 0 ∧ rx.par = false ∧ rx.perr = false

/-- The lock key's code (R106). -/
def lockCode (cfg : Config.Params) : LockKey → KeyCode
  | .scroll => cfg.keyScroll
  | .num => cfg.keyNum
  | .caps => cfg.keyCaps

/-- `lockidx`, the key's place in `lock_mask` and `lock_held` (R50, R51, R193). -/
def lockIndex : LockKey → Nat
  | .scroll => 0
  | .num => 1
  | .caps => 2

/-- `lock_held[0]`, `lock_held[1]`, `lock_held[2]` (R51). -/
def heldBits (h : LockHeld) : List Bool := [h.scroll, h.num, h.caps]

/-- The place of a modifier's field in R49's list of them. -/
def modIndex : ModKey → Nat
  | .shift => 0
  | .ctrl => 1
  | .alt => 2
  | .altGr => 3
  | .gui => 4

/-- The five fields of `ks` in R49's order. -/
def modBits (ks : Modifiers) : List Bool := [ks.shift, ks.ctrl, ks.alt, ks.altGr, ks.gui]

/-- The codes of the keys of a modifier field (R106, R194). -/
def modCodes (cfg : Config.Params) : ModKey → List KeyCode
  | .shift => [cfg.keyLShift, cfg.keyRShift]
  | .ctrl => [cfg.keyLCtrl, cfg.keyRCtrl]
  | .alt => [cfg.keyLAlt]
  | .altGr => [cfg.keyRAlt]
  | .gui => [cfg.keyLGui, cfg.keyRGui]

/-- Every answer count the queue can give is at most three, and so is the count now owed (R98). -/
def AnswersBounded (p : Ps2) : Prop :=
  ¬ (List.replicate 4 TxItem.ign <:+: p.txq) ∧ p.dec.expected.toNat ≤ 3

end Sys2Proof.Machine
end

