-- ==== Sys2Proof/Certificates/Slice0/Obligations.lean ====
section
/-! DEFINITION. The statements for the provers. Where a statement speaks of `step`, the agents' steps it
names stand at the head of `inputs`, the model's own form of the interleaving (log entry 1). -/

open Sys2Proof Sys2Proof.Machine

/-! ### Packets -/

/-- R86, R88, R90: no operand bit of a packet is dropped or moved between encoding and decoding. -/
def Obligations.DecodeInvertsEncode : Prop :=
  ∀ i : Instr, i.wellFormed = true → decode (encode i) = .ok i

/-- R86, R88, R90: a packet that decodes is the one packet of its command. -/
def Obligations.DecodedPacketIsTheEncoding : Prop :=
  ∀ (packet : List Byte) (i : Instr), decode packet = .ok i → i.wellFormed = true ∧ encode i = packet

/-- Words of R88's map and R134's examples, written out byte by byte, decode to their commands. -/
def Obligations.WrittenPacketsDecode : Prop :=
  decode [0x01, 0x03, 0x02, 0x01, 0x01, 0x00, 0x00, 0x00] = .ok (.engInit 3 2 1 1 0 0 0) ∧
  decode [0x03, 0x41] = .ok (.engEncrypt 0x41) ∧
  decode [0x14] = .ok .ps2Read ∧
  decode [0x1C, 0x0B, 0x01] = .ok (.ps2Typematic 0x0B 0x01) ∧
  decodeTableWord 8 0x1D = some .ps2Reset

/-- R85, R89: a packet that decodes to a command is run as that command, the packet consumed. -/
def Obligations.StepRunsTheDecodedCommand : Prop :=
  ∀ (s : State) (packet : List Byte) (rest : List AgentStep) (i : Instr), decode packet = .ok i →
    i.wellFormed = true →
    step { s with inputs := .command packet :: rest } = exec i { s with inputs := rest }

/-- R89, R108: a packet that is no command is answered IllegalCommand (0x0F) and changes nothing. -/
def Obligations.IllegalPacketIsAnsweredAndChangesNothing : Prop :=
  (∀ s : State, exchange [] s = .next { s with response := [0x0F] }) ∧
  ∀ (op : Byte) (args : List Byte) (s : State), (op, args.length + 1) ∉ opcodeMap →
    exchange (op :: args) s = .next { s with response := [0x0F] }

/-- R87, R261: a command answered with an error status changes no state, and its response is the status
byte alone; an OK response carries exactly the result bytes of its command. -/
def Obligations.ResponsesHaveTheirShapeAndRefusalsChangeNothing : Prop :=
  (∀ (packet : List Byte) (s t : State), exchange packet s = .next t →
    t.response.head? ≠ some 0x00 → t = { s with response := t.response } ∧ t.response.length = 1) ∧
  ∀ (i : Instr) (s t : State), exec i s = .next t → t.response.head? = some 0x00 →
    t.response.length = 1 + resultBytes i

/-! ### Cipher engine -/

/-- R133, R134: ENG_INIT's operands are checked, rotors before offsets before the reflector, and a bad one
is refused and changes nothing; the ranges are exactly 1..8, 0..25 and 0..2. Every legal packet replaces
the whole configuration, clears the flags, keeps the plugboard and the PS/2 unit, and answers OK. -/
def Obligations.EngInitChecksThenReplacesTheConfiguration : Prop :=
  (∀ (rot1 rot2 rot3 refl off1 off2 off3 : Byte) (s : State),
    let i : Instr := .engInit rot1 rot2 rot3 refl off1 off2 off3
    let rotorsLegal := ∀ b ∈ [rot1, rot2, rot3], 1 ≤ b.toNat ∧ b.toNat ≤ 8
    let offsetsLegal := ∀ b ∈ [off1, off2, off3], b.toNat ≤ 25
    decode [0x01, rot1, rot2, rot3, refl, off1, off2, off3] = .ok i ∧
    (¬ rotorsLegal → exec i s = .next { s with response := [0x01] }) ∧
    (rotorsLegal → ¬ offsetsLegal → exec i s = .next { s with response := [0x02] }) ∧
    (rotorsLegal → offsetsLegal → 2 < refl.toNat → exec i s = .next { s with response := [0x03] })) ∧
  ∀ (n1 n2 n3 : RotorNo) (f : ReflectorNo) (o1 o2 o3 : Letter) (s : State),
    exec (.engInit (rotorByte n1) (rotorByte n2) (rotorByte n3) (reflectorByte f)
        (BitVec.ofNat 8 o1.val) (BitVec.ofNat 8 o2.val) (BitVec.ofNat 8 o3.val)) s =
      .next { s with
        eng := { configured := true, r1 := ⟨n1, o1, false⟩, r2 := ⟨n2, o2, false⟩,
                 r3 := ⟨n3, o3, false⟩, refl := f, pb := s.eng.pb }
        response := [0x00] }

/-- R136, R137: a plugboard whose entries are letter indices that form an involution is installed entry
by entry and nothing else of the machine changes; any other is refused with InvalidPlugboard and changes
nothing. -/
def Obligations.EngSetPlugboardInstallsInvolutionsOnly : Prop :=
  ∀ (p : List Byte) (s : State), p.length = 26 →
    let legal := (∀ b ∈ p, b.toNat < 26) ∧ ∀ i < 26, (p.getD (p.getD i 0).toNat 0).toNat = i
    decode (0x02 :: p) = .ok (.engSetPlugboard p) ∧
    (legal → ∃ pb : Vector Letter 26, (∀ i : Letter, (pb[i]).val = (p.getD i.val 0).toNat) ∧
      exec (.engSetPlugboard p) s =
        .next { s with eng := { s.eng with pb := pb }, response := [0x00] }) ∧
    (¬ legal → exec (.engSetPlugboard p) s = .next { s with response := [0x04] })

/-- R135, R266: an unconfigured engine refuses any byte with NotConfigured; a configured one faults on a
byte that is no ASCII letter; a letter of either case first steps the rotors and is then permuted at the
new offsets, and the answer is the capital letter. Nothing else of the machine changes. -/
def Obligations.EngEncryptStepsThenPermutes : Prop :=
  ∀ (ch : Byte) (s : State),
    let letter := (0x41 ≤ ch.toNat ∧ ch.toNat ≤ 0x5A) ∨ (0x61 ≤ ch.toNat ∧ ch.toNat ≤ 0x7A)
    decode [0x03, ch] = .ok (.engEncrypt ch) ∧
    (s.eng.configured = false → exec (.engEncrypt ch) s = .next { s with response := [0x06] }) ∧
    (s.eng.configured = true → ¬ letter → exec (.engEncrypt ch) s = .fault (.encryptNonLetter ch)) ∧
    (s.eng.configured = true → letter → ∃ c : Letter,
      (ch.toNat = 0x41 + c.val ∨ ch.toNat = 0x61 + c.val) ∧
      exec (.engEncrypt ch) s = .next { s with
        eng := stepEngine s.eng
        response := [0x00, BitVec.ofNat 8 (0x41 + (perm (stepEngine s.eng) c).val)] })

/-- R138: ENG_ROTOR_OFFSET reads the offset of position 0, 1 or 2 and changes nothing; NotConfigured
comes first, then InvalidArg. -/
def Obligations.EngRotorOffsetReadsTheOffset : Prop :=
  ∀ (i : Byte) (s : State),
    decode [0x04, i] = .ok (.engRotorOffset i) ∧
    (s.eng.configured = false → exec (.engRotorOffset i) s = .next { s with response := [0x06] }) ∧
    (s.eng.configured = true → 3 ≤ i.toNat →
      exec (.engRotorOffset i) s = .next { s with response := [0x05] }) ∧
    (s.eng.configured = true →
      exec (.engRotorOffset 0) s =
        .next { s with response := [0x00, BitVec.ofNat 8 s.eng.r1.off.val] } ∧
      exec (.engRotorOffset 1) s =
        .next { s with response := [0x00, BitVec.ofNat 8 s.eng.r2.off.val] } ∧
      exec (.engRotorOffset 2) s =
        .next { s with response := [0x00, BitVec.ofNat 8 s.eng.r3.off.val] })

/-- R121 to R126: with the two carry flags clear, as they are before every keystroke, the fast rotor
advances once, the middle one for its own notch and for the fast one's turnover, the slow one exactly
when the middle one landed on a turnover; nothing else of the engine but the slow rotor's flag moves. -/
def Obligations.KeystrokeMovesTheRotors : Prop :=
  ∀ e : Engine, FlagsClear e →
    let turn1 := (romTurnover e.r1.sel).contains (e.r1.off + 1)
    let notch2 := (romNotch e.r2.sel).contains e.r2.off
    let mid := if notch2 then e.r2.off + 1 else e.r2.off
    let carry2 := (notch2 && (romTurnover e.r2.sel).contains mid) ||
      (turn1 && (romTurnover e.r2.sel).contains (mid + 1))
    let e' := stepEngine e
    e'.r1 = { e.r1 with off := e.r1.off + 1 } ∧
    e'.r2 = { e.r2 with off := if turn1 then mid + 1 else mid } ∧
    e'.r3 = { e.r3 with
      off := if carry2 then e.r3.off + 1 else e.r3.off
      stepNext := e.r3.stepNext ||
        (carry2 && (romTurnover e.r3.sel).contains (e.r3.off + 1)) } ∧
    e'.refl = e.refl ∧ e'.pb = e.pb ∧ e'.configured = e.configured

/-- R126 (b), R131, which the spec marks as its own derivation: after any keystroke the next one
advances the middle rotor at most once. -/
def Obligations.SecondKeystrokeAdvancesTheMiddleRotorAtMostOnce : Prop :=
  ∀ e : Engine, FlagsClear e →
    let e1 := stepEngine e
    (stepEngine e1).r2.off = e1.r2.off ∨ (stepEngine e1).r2.off = e1.r2.off + 1

/-- R132's property of the middle rotor, which the spec derives for one configuration, stated for all:
it moves at least once in any 26 keystrokes. -/
def Obligations.MiddleRotorMovesWithin26Keystrokes : Prop :=
  ∀ e : Engine, FlagsClear e →
    ∃ k < 26, (stepEngine^[k + 1] e).r2.off ≠ (stepEngine^[k] e).r2.off

/-- R130 (a), the spec's own derivation: the answer to a letter is never that letter, for any rotors,
offsets and reflector and any plugboard that is an involution. -/
def Obligations.EncryptNeverAnswersItsLetter : Prop :=
  ∀ (c : Letter) (s t : State), PlugInvolution s.eng →
    exec (.engEncrypt (BitVec.ofNat 8 (0x41 + c.val))) s = .next t → s.eng.configured = true →
    ∃ d : Letter, d ≠ c ∧ t.response = [0x00, BitVec.ofNat 8 (0x41 + d.val)]

/-- R130 (b), the spec's own derivation: from one and the same state, encrypting the answer gives the
letter back. -/
def Obligations.EncryptIsAnInvolutionAtAState : Prop :=
  ∀ (c d : Letter) (s t : State), PlugInvolution s.eng → s.eng.configured = true →
    exec (.engEncrypt (BitVec.ofNat 8 (0x41 + c.val))) s = .next t →
    t.response = [0x00, BitVec.ofNat 8 (0x41 + d.val)] →
    exec (.engEncrypt (BitVec.ofNat 8 (0x41 + d.val))) s =
      .next { t with response := [0x00, BitVec.ofNat 8 (0x41 + c.val)] }

/-- R127 to R129: what the permutation is, said through R127's forward transform alone. A letter goes
through the plugboard and the three rotors, fast to slow, to the reflector; the answer is the plugboard's
image of the letter whose way through the same rotors ends at the reflected one. So for a plugboard that is
an involution the answer's own way ends there. -/
def Obligations.PermutationIsTheReflectorSeenThroughTheRotors : Prop :=
  ∀ (e : Engine) (c : Letter),
    let through (r : Rotor) (x : Letter) : Letter := (romWiring r.sel)[x + r.off] - r.off
    let rotors (x : Letter) : Letter := through e.r3 (through e.r2 (through e.r1 x))
    let pb (x : Letter) : Letter := e.pb[x]
    let reflected : Letter := (romReflector e.refl)[rotors (pb c)]
    (∃ y : Letter, rotors y = reflected ∧ perm e c = pb y) ∧
    ((∀ x : Letter, pb (pb x) = x) → rotors (pb (perm e c)) = reflected)

/-- R26, R293, the spec's own derivation: the slow rotor's flag is never observed: two machines that
differ in it alone answer alike and go on differing in it alone. -/
def Obligations.SlowRotorFlagIsNeverObserved : Prop :=
  ∀ (i : Instr) (s : State) (b : Bool),
    let flagged (u : State) (v : Bool) : State :=
      { u with eng := { u.eng with r3 := { u.eng.r3 with stepNext := v } } }
    (∀ t, exec i s = .next t → ∃ v, exec i (flagged s b) = .next (flagged t v)) ∧
    (∀ f, exec i s = .fault f → exec i (flagged s b) = .fault f)

/-- R282, the spec's own derivation: while the engine is unconfigured no command's answer depends on its
rotor choices, reflector or offsets, whose reset values are the model's choice (log entry 5). -/
def Obligations.UnconfiguredChoiceIsNeverObserved : Prop :=
  ∀ (i : Instr) (s t : State), s.eng.configured = false → SameButConfiguration s t →
    ∃ s' t', exec i s = .next s' ∧ exec i t = .next t' ∧ SameButConfiguration s' t'

/-- R8: a step that is not the exchange of ENG_INIT, ENG_SET_PLUGBOARD or ENG_ENCRYPT leaves the engine
as it is; and the four engine commands leave the PS/2 unit as it is. -/
def Obligations.EngineChangesOnlyInItsCommands : Prop :=
  (∀ s t : State, step s = .next t →
    (∀ packet rest i, s.inputs = .command packet :: rest → decode packet = .ok i →
      changesEngine i = false) → t.eng = s.eng) ∧
  (∀ (i : Instr) (s t : State), changesEngine i = true ∨ (∃ n, i = .engRotorOffset n) →
    exec i s = .next t → t.ps2 = s.ps2)

/-! ### PS/2 host commands -/

/-- R235: PS2_INIT returns every PS/2 element to its reset value, field by field, and leaves the engine
untouched. -/
def Obligations.Ps2InitResetsTheUnit : Prop :=
  ∀ s : State, decode [0x10] = .ok .ps2Init ∧ exec .ps2Init s = .next { s with
    ps2 := {
      irqEn := false, noBreaks := false, noRepeats := false
      rx := { n := 0, sr := 0, par := false, perr := false, lastMs := 0, status := .ok }
      dec := { e0 := false, brk := false, e1Rem := 0, expected := 0, lastMake := 0 }
      tx := { phase := .idle, byte := 0, k := 0, ack := false, immValid := false, immByte := 0,
              lastSent := 0, lastValid := false }
      line := { clkDrvLow := false, dataDrvLow := false }
      txq := [], raw := [], rawDrops := 0, evt := []
      ks := { shift := false, ctrl := false, alt := false, altGr := false, gui := false }
      lockMask := 0
      lockHeld := { scroll := false, num := false, caps := false } }
    response := [0x00] }

/-- R238: PS2_AVAILABLE translates and answers the number of events, which fits its byte: the premises
are R55's invariant of the event ring and R5's bound on its capacity. -/
def Obligations.Ps2AvailableAnswersTheCount : Prop :=
  ∀ s : State, s.ps2.evt.length ≤ s.cfg.evtCap → s.cfg.evtCap ≤ 255 →
    decode [0x13] = .ok .ps2Available ∧
    ∃ count : Byte, count.toNat = (translate s.cfg s.ps2).evt.length ∧
      exec .ps2Available s =
        .next { s with ps2 := translate s.cfg s.ps2, response := [0x00, count] }

/-- R239, R67: PS2_READ translates, then answers the oldest event low byte first and removes it, or
answers 0 when there is none. -/
def Obligations.Ps2ReadPopsTheOldestEvent : Prop :=
  ∀ s : State,
    let p := translate s.cfg s.ps2
    decode [0x14] = .ok .ps2Read ∧
    (p.evt = [] → exec .ps2Read s = .next { s with ps2 := p, response := [0x00, 0x00, 0x00] }) ∧
    (∀ ev rest, p.evt = ev :: rest →
      exec .ps2Read s = .next { s with
        ps2 := { p with evt := rest }
        response := [0x00, BitVec.ofNat 8 ev.toNat, BitVec.ofNat 8 (ev.toNat / 256)] })

/-- R240, R241: PS2_GET_LOCK answers the mask and changes nothing; PS2_SET_LOCK refuses a mask above 15,
then a queue without room for four items, and otherwise writes the mask and queues the LED sequence
whole. The two Ign items of that sequence are the spec's general knowledge (93 A6; log entry 14). -/
def Obligations.LockCommandsReadAndWriteTheMask : Prop :=
  ∀ (mask : Byte) (s : State),
    decode [0x15] = .ok .ps2GetLock ∧ decode [0x16, mask] = .ok (.ps2SetLock mask) ∧
    exec .ps2GetLock s =
      .next { s with response := [0x00, BitVec.ofNat 8 s.ps2.lockMask.toNat] } ∧
    (15 < mask.toNat → exec (.ps2SetLock mask) s = .next { s with response := [0x05] }) ∧
    (mask.toNat ≤ 15 → s.cfg.txqCap < s.ps2.txq.length + 4 →
      exec (.ps2SetLock mask) s = .next { s with response := [0x07] }) ∧
    (mask.toNat ≤ 15 → s.ps2.txq.length + 4 ≤ s.cfg.txqCap →
      exec (.ps2SetLock mask) s = .next { s with
        ps2 := { s.ps2 with
          lockMask := BitVec.ofNat 4 mask.toNat
          txq := s.ps2.txq ++ [.cmd 0xED, .ign, .cmd mask, .ign] }
        response := [0x00] })

/-- R236, R237, R242, R243: the interrupt commands write the enable and the option commands their own
option, from 0 or 1, and nothing else of the machine; any other flag is refused with InvalidArg. -/
def Obligations.ControlCommandsWriteTheirOwnBit : Prop :=
  ∀ (flag : Byte) (s : State),
    decode [0x11] = .ok .ps2EnableIrq ∧ decode [0x12] = .ok .ps2DisableIrq ∧
    decode [0x17, flag] = .ok (.ps2SetNoBreaks flag) ∧
    decode [0x18, flag] = .ok (.ps2SetNoRepeats flag) ∧
    exec .ps2EnableIrq s =
      .next { s with ps2 := { s.ps2 with irqEn := true }, response := [0x00] } ∧
    exec .ps2DisableIrq s =
      .next { s with ps2 := { s.ps2 with irqEn := false }, response := [0x00] } ∧
    (flag.toNat ≤ 1 →
      exec (.ps2SetNoBreaks flag) s = .next { s with
        ps2 := { s.ps2 with noBreaks := decide (flag = 1) }, response := [0x00] } ∧
      exec (.ps2SetNoRepeats flag) s = .next { s with
        ps2 := { s.ps2 with noRepeats := decide (flag = 1) }, response := [0x00] }) ∧
    (1 < flag.toNat →
      exec (.ps2SetNoBreaks flag) s = .next { s with response := [0x05] } ∧
      exec (.ps2SetNoRepeats flag) s = .next { s with response := [0x05] })

/-- R244, R245, R246, R248: with room for it, each device command queues its own sequence whole, answers
OK and changes nothing else; without room it is refused with TxQueueFull and changes nothing. The
numbers of Ign items and the parameter 0x00 are the spec's general knowledge (93 A6; log entry 14). -/
def Obligations.DeviceCommandsQueueTheirSequenceWhole : Prop :=
  ∀ s : State,
    let room (n : Nat) : Prop := s.ps2.txq.length + n ≤ s.cfg.txqCap
    let queued (items : List TxItem) : Host.Outcome State Fault Refusal :=
      .next { s with ps2 := { s.ps2 with txq := s.ps2.txq ++ items }, response := [0x00] }
    let full : Host.Outcome State Fault Refusal := .next { s with response := [0x07] }
    decode [0x19] = .ok .ps2Echo ∧ decode [0x1A] = .ok .ps2ReadId ∧
    decode [0x1B] = .ok .ps2GetScancodeSet ∧ decode [0x1D] = .ok .ps2Reset ∧
    (room 2 → exec .ps2Echo s = queued [.cmd 0xEE, .ign]) ∧ (¬ room 2 → exec .ps2Echo s = full) ∧
    (room 4 → exec .ps2ReadId s = queued [.cmd 0xF2, .ign, .ign, .ign]) ∧
    (¬ room 4 → exec .ps2ReadId s = full) ∧
    (room 5 → exec .ps2GetScancodeSet s =
      queued [.cmd 0xF0, .ign, .cmd 0x00, .ign, .ign]) ∧
    (¬ room 5 → exec .ps2GetScancodeSet s = full) ∧
    (room 3 → exec .ps2Reset s = queued [.cmd 0xFF, .ign, .ign]) ∧
    (¬ room 3 → exec .ps2Reset s = full)

/-- R247, R97: PS2_TYPEMATIC refuses an argument out of range, then a full queue, and otherwise queues
the parameter byte `32·delay + rate`, a layout that is the spec's general knowledge (93 A7; log entry
14). -/
def Obligations.Ps2TypematicQueuesItsParameter : Prop :=
  ∀ (rate delay : Byte) (s : State),
    decode [0x1C, rate, delay] = .ok (.ps2Typematic rate delay) ∧
    (31 < rate.toNat ∨ 3 < delay.toNat →
      exec (.ps2Typematic rate delay) s = .next { s with response := [0x05] }) ∧
    (rate.toNat ≤ 31 → delay.toNat ≤ 3 → s.cfg.txqCap < s.ps2.txq.length + 4 →
      exec (.ps2Typematic rate delay) s = .next { s with response := [0x07] }) ∧
    (rate.toNat ≤ 31 → delay.toNat ≤ 3 → s.ps2.txq.length + 4 ≤ s.cfg.txqCap →
      exec (.ps2Typematic rate delay) s = .next { s with
        ps2 := { s.ps2 with txq := s.ps2.txq ++
          [.cmd 0xF3, .ign, .cmd (BitVec.ofNat 8 (32 * delay.toNat + rate.toNat)), .ign] }
        response := [0x00] })

/-! ### Receive -/

/-- R151: while the interrupt is off no edge changes any state, and a partial frame is kept as it is. -/
def Obligations.NothingMovesWithTheInterruptOff : Prop :=
  ∀ (s : State) (a : AgentStep) (rest : List AgentStep), s.ps2.irqEn = false →
    (a = .rise ∨ ∃ d t, a = .fall d t) →
    step { s with inputs := a :: rest } = .next { s with inputs := rest }

/-- R152, R160: a rising edge has no effect in any phase, and a falling edge has none while the block
prepares a transmission. -/
def Obligations.RisingAndSpuriousEdgesHaveNoEffect : Prop :=
  (∀ s : State, deliver .rise s = .next s) ∧
  ∀ (s : State) (d : Bool) (t : BitVec 32), s.ps2.tx.phase = .prep ∨ s.ps2.tx.phase = .inhibit →
    deliver (.fall d t) s = .next s

/-- R153, R155: an edge 250 ms or more after the last one drops the partial frame and is taken as the
first bit of a new one: a start bit if it is 0, else no bit at all. -/
def Obligations.WatchdogExpiryStartsANewFrame : Prop :=
  ∀ (s : State) (t : BitVec 32), Listening s.ps2 → 250 ≤ (t - s.ps2.rx.lastMs).toNat →
    deliver (.fall false t) s = .next { s with ps2 := { s.ps2 with rx :=
      { n := 1, sr := 0, par := false, perr := false, lastMs := t,
        status := if s.ps2.rx.n = 0 then s.ps2.rx.status else .timeoutResync } } } ∧
    deliver (.fall true t) s = .next { s with ps2 := { s.ps2 with rx :=
      { n := 0, sr := 0, par := false, perr := false, lastMs := t, status := .timeoutResync } } }

/-- R154 to R158: within the watchdog's time each edge is the frame's next bit: a start bit that must be
0, data bits that land least significant first, a parity bit whose mismatch is recorded, and a stop bit of
either level that ends the frame: a bad one requests a RESEND, a good one delivers its byte. -/
def Obligations.EdgesWithinTheWatchdogAreTheNextBit : Prop :=
  ∀ (s : State) (d : Bool) (t : BitVec 32), Listening s.ps2 → (t - s.ps2.rx.lastMs).toNat < 250 →
    let rx := s.ps2.rx
    let after (rx' : Rx) := deliver (.fall d t) s = .next { s with ps2 := { s.ps2 with rx := rx' } }
    (rx.n = 0 → d = false → after { rx with n := 1, lastMs := t }) ∧
    (rx.n = 0 → d = true → after { rx with n := 0, lastMs := t, status := .timeoutResync }) ∧
    (1 ≤ rx.n.toNat → rx.n.toNat ≤ 8 → after { rx with
      n := rx.n + 1, lastMs := t
      sr := if d then rx.sr ||| BitVec.twoPow 8 (rx.n.toNat - 1) else rx.sr
      par := rx.par ^^ d }) ∧
    (rx.n = 9 → after { rx with
      n := 10, lastMs := t, perr := if rx.par = d then true else rx.perr }) ∧
    (rx.n = 10 →
      let ended (status : RxStatus) : Ps2 := { s.ps2 with
        rx := { n := 0, sr := 0, par := false, perr := false, lastMs := t, status := status } }
      let resending : Ps2 := { ended .parityError with
        tx := { s.ps2.tx with immValid := true, immByte := 0xFE } }
      let unit := if rx.perr then resending else decodeByte s.cfg rx.sr (ended .ok)
      deliver (.fall d t) s = .next { s with ps2 := unit })

/-- R92, R154 to R158: the 11 edges of a good frame, whatever its stop bit, deliver its byte to the
decoder with the frame state cleared. -/
def Obligations.GoodFrameDeliversItsByte : Prop :=
  ∀ (s : State) (b : Byte) (stop : Bool) (t : BitVec 32) (rest : List AgentStep),
    Listening s.ps2 → FrameClear s.ps2.rx →
    Host.Core.run Sys2Proof.core 11
        { s with inputs := fallsAt t (frameLevels b (oddPar b) stop) ++ rest } =
      .next { s with
        inputs := rest
        ps2 := decodeByte s.cfg b { s.ps2 with rx :=
          { n := 0, sr := 0, par := false, perr := false, lastMs := t, status := .ok } } }

/-- R157: a frame whose parity bit is wrong yields no byte at all and requests a RESEND. -/
def Obligations.BadParityFrameRequestsAResend : Prop :=
  ∀ (s : State) (b : Byte) (stop : Bool) (t : BitVec 32) (rest : List AgentStep),
    Listening s.ps2 → FrameClear s.ps2.rx →
    Host.Core.run Sys2Proof.core 11
        { s with inputs := fallsAt t (frameLevels b (!oddPar b) stop) ++ rest } =
      .next { s with
        inputs := rest
        ps2 := { s.ps2 with
          rx := { n := 0, sr := 0, par := false, perr := false, lastMs := t,
                  status := .parityError }
          tx := { s.ps2.tx with immValid := true, immByte := 0xFE } } }

/-! ### Decoder -/

/-- R172, R184: 0xFF and 0x00 clear the decoder and transmit mode and nothing else; 0xFF alone is then
saved as a response. -/
def Obligations.OverrunResetsTheMode : Prop :=
  ∀ (cfg : Config.Params) (p : Ps2),
    let cleared : Ps2 := { p with
      dec := { p.dec with e0 := false, brk := false, e1Rem := 0, expected := 0 }
      txq := []
      tx := { p.tx with immValid := false, lastValid := false } }
    decodeByte cfg 0x00 p = cleared ∧
    decodeByte cfg 0xFF p = save cfg ⟨0xFF, false, false, false, true⟩ cleared

/-- R173 to R176: what BAT, ACK, RESEND and ECHO bytes do in every decoder state. -/
def Obligations.DeviceAnswersActInEveryState : Prop :=
  ∀ (cfg : Config.Params) (p : Ps2),
    let counted (q : Ps2) : Ps2 :=
      { q with dec := { q.dec with expected := BitVec.ofNat 8 (q.dec.expected.toNat - 1) } }
    let slot (b : Byte) (q : Ps2) : Ps2 :=
      { q with tx := { q.tx with immValid := true, immByte := b } }
    (∀ b, b = 0xAA ∨ b = 0xFC → decodeByte cfg b p =
      save cfg ⟨b, false, false, false, true⟩ { p with dec := { p.dec with expected := 0 } }) ∧
    decodeByte cfg 0xFA p = counted p ∧
    decodeByte cfg 0xFE p = (if p.tx.lastValid then slot p.tx.lastSent p else p) ∧
    decodeByte cfg 0xEE p =
      (let saved := save cfg ⟨0xEE, false, false, false, true⟩ p
       if p.tx.lastValid = true ∧ p.tx.lastSent = 0xEE then counted saved else slot 0xEE saved)

/-- R183: a saved entry goes to the tail of the raw ring, or is dropped and counted up to 0xFFFF. -/
def Obligations.SavePushesOrCountsADrop : Prop :=
  ∀ (cfg : Config.Params) (e : RawEntry) (p : Ps2),
    (p.raw.length < cfg.rawCap → save cfg e p = { p with raw := p.raw ++ [e] }) ∧
    (cfg.rawCap ≤ p.raw.length →
      save cfg e p = { p with rawDrops := BitVec.ofNat 16 (min (p.rawDrops.toNat + 1) 0xFFFF) })

/-- R94, R178, R181: E1, while no answers are owed, starts a Pause sequence of seven bytes and clears the
prefix flags. From then on the bytes still due that are no device answers are absorbed, whatever they are
and however many answers have come to be owed meanwhile, which they leave owed, and save one Pause entry
with the last of them; so E1 and its seven bytes save exactly that entry. -/
def Obligations.PauseSequenceSavesOneEntry : Prop :=
  ∀ (cfg : Config.Params) (p : Ps2) (init : List Byte) (last : Byte),
    (∀ b ∈ init, isProtocolByte b = false) → isProtocolByte last = false →
    let started : Ps2 := { p with dec := { p.dec with e1Rem := 7, e0 := false, brk := false } }
    let pause (q : Ps2) : Ps2 :=
      save cfg ⟨last, false, true, false, false⟩ { q with dec := { q.dec with e1Rem := 0 } }
    (p.dec.e1Rem = 0 → p.dec.expected = 0 → decodeByte cfg 0xE1 p = started) ∧
    (init.length + 1 = p.dec.e1Rem.toNat → decodeAll cfg (init ++ [last]) p = pause p) ∧
    (p.dec.e1Rem = 0 → p.dec.expected = 0 → init.length = 6 →
      decodeAll cfg (0xE1 :: (init ++ [last])) p = pause started)

/-- R177, R180, R182: a scan code is saved with the flags of the E0 and F0 bytes before it, in this
order, which are then cleared; only a make code is recorded as the last make. -/
def Obligations.ScanCodeIsSavedWithItsFlags : Prop :=
  ∀ (cfg : Config.Params) (p : Ps2) (b : Byte), isProtocolByte b = false →
    isSequenceByte b = false → p.dec.e0 = false → p.dec.brk = false → p.dec.e1Rem = 0 →
    p.dec.expected = 0 →
    let saved (e0 brk : Bool) (lastMake : Byte) : Ps2 :=
      save cfg ⟨b, e0, false, brk, false⟩ { p with dec := { p.dec with lastMake := lastMake } }
    decodeAll cfg [b] p = saved false false b ∧
    decodeAll cfg [0xE0, b] p = saved true false b ∧
    decodeAll cfg [0xF0, b] p = saved false true p.dec.lastMake ∧
    decodeAll cfg [0xE0, 0xF0, b] p = saved true true p.dec.lastMake

/-- R179: while answers are owed, exactly that many bytes that are no fixed answers are saved as
responses, in order. -/
def Obligations.OwedAnswersAreSavedAsResponses : Prop :=
  ∀ (cfg : Config.Params) (bytes : List Byte) (p : Ps2), p.dec.e1Rem = 0 →
    bytes.length = p.dec.expected.toNat → (∀ b ∈ bytes, isProtocolByte b = false) →
    p.raw.length + bytes.length ≤ cfg.rawCap →
    decodeAll cfg bytes p = { p with
      dec := { p.dec with expected := 0 }
      raw := p.raw ++ bytes.map fun b => ⟨b, false, false, false, true⟩ }

/-! ### Translation -/

/-- R70, R72, R190: each pass of translation translates the head of the raw ring, and either consumes it
with its whole effect, its event going to the tail of the event ring, and goes on, or stops with nothing
changed: at a STALL, a full event ring or an empty raw ring. So entries are taken from the head and events
put at the tail, at most one for each entry and never beyond the capacity; besides the rings translation
touches the outbound queue, the modifier and lock state, and nothing else of the unit. -/
def Obligations.TranslationKeepsTheRingsInOrder : Prop :=
  ∀ (cfg : Config.Params) (p : Ps2),
    let q := translate cfg p
    (∀ e rest, p.raw = e :: rest → p.evt.length + 1 ≤ cfg.evtCap →
      (∀ ev p', translateOne cfg e p = .event ev p' →
        q = translate cfg { p' with raw := rest, evt := p'.evt ++ [ev] }) ∧
      (∀ p', translateOne cfg e p = .ignore p' → q = translate cfg { p' with raw := rest }) ∧
      (translateOne cfg e p = .stall → q = p)) ∧
    (p.raw = [] ∨ cfg.evtCap ≤ p.evt.length → q = p) ∧
    q = { p with raw := q.raw, evt := q.evt, txq := q.txq, ks := q.ks,
                 lockMask := q.lockMask, lockHeld := q.lockHeld } ∧
    (p.evt.length ≤ cfg.evtCap → ∃ (taken : List RawEntry) (events : List KeyEvent),
      p.raw = taken ++ q.raw ∧ q.evt = p.evt ++ events ∧
      events.length ≤ taken.length ∧ q.evt.length ≤ cfg.evtCap)

/-- R190, R193: translation stops only when the raw ring is empty, the event ring is full, or the head
entry's LED sequence does not fit. -/
def Obligations.TranslationStopsOnlyForItsReasons : Prop :=
  ∀ (cfg : Config.Params) (p : Ps2),
    let q := translate cfg p
    q.raw = [] ∨ cfg.evtCap ≤ q.evt.length ∨
      (cfg.txqCap < q.txq.length + 4 ∧
        ∃ e rest, q.raw = e :: rest ∧ translateOne cfg e q = .stall)

/-- R50, R51, R193, R198: scroll, num and caps have the bits 0, 1 and 2 of `lock_mask` and of
`lock_held`, and no other bit is theirs to change. A lock key's first make toggles its bit and queues
the LED sequence or stalls; a repeat does not toggle; a break re-arms it. The two Ign items of the LED
sequence are the spec's general knowledge (93 A6; log entry 14). -/
def Obligations.LockKeysToggleOncePerPress : Prop :=
  ∀ (cfg : Config.Params) (k : LockKey) (e : RawEntry) (p : Ps2), cfg.ConstantsValid →
    e.resp = false → lookupCode cfg e = lockCode cfg k →
    let code := lockCode cfg k
    let mask := p.lockMask ^^^ lockBit k
    (∀ j < 4, mask.getLsbD j = (p.lockMask.getLsbD j ^^ decide (j = lockIndex k))) ∧
    (heldBits p.lockHeld)[lockIndex k]? = some (getHeld k p.lockHeld) ∧
    (∀ v, heldBits (setHeld k v p.lockHeld) = (heldBits p.lockHeld).set (lockIndex k) v) ∧
    (e.brk = false → getHeld k p.lockHeld = false → p.txq.length + 4 ≤ cfg.txqCap →
      translateOne cfg e p = .event (keyEvent false p.ks mask code)
        { p with lockMask := mask, lockHeld := setHeld k true p.lockHeld
                 txq := p.txq ++ [.cmd 0xED, .ign, .cmd (mask.setWidth 8), .ign] }) ∧
    (e.brk = false → getHeld k p.lockHeld = false → cfg.txqCap < p.txq.length + 4 →
      translateOne cfg e p = .stall) ∧
    (e.brk = false → getHeld k p.lockHeld = true →
      translateOne cfg e p = if p.noRepeats then .ignore p
        else .event (keyEvent false p.ks p.lockMask code) p) ∧
    (e.brk = true →
      let p' := { p with lockHeld := setHeld k false p.lockHeld }
      translateOne cfg e p = if p.noBreaks then .ignore p'
        else .event (keyEvent true p.ks p.lockMask code) p')

/-- R49, R194, R197: a modifier key writes its own field of `ks` and no other, before its event is
composed; with no_repeats a make of a held modifier is ignored. -/
def Obligations.ModifierKeysWriteTheirBit : Prop :=
  ∀ (cfg : Config.Params) (m : ModKey) (code : KeyCode) (e : RawEntry) (p : Ps2),
    cfg.ConstantsValid → e.resp = false → code ∈ modCodes cfg m → lookupCode cfg e = code →
    (modBits p.ks)[modIndex m]? = some (getMod m p.ks) ∧
    (∀ v, modBits (setMod m v p.ks) = (modBits p.ks).set (modIndex m) v) ∧
    (e.brk = false →
      translateOne cfg e p = if p.noRepeats = true ∧ getMod m p.ks = true then .ignore p
        else .event (keyEvent false (setMod m true p.ks) p.lockMask code)
          { p with ks := setMod m true p.ks }) ∧
    (e.brk = true →
      let p' := { p with ks := setMod m false p.ks }
      translateOne cfg e p = if p.noBreaks then .ignore p'
        else .event (keyEvent true (setMod m false p.ks) p.lockMask code) p')

/-- R195, R196: a keypad key stands for its navigation key when Num Lock is off or Shift is held, and
for itself otherwise; a remap value of 0 and a suppressed break give no event; nothing is written. -/
def Obligations.KeypadKeysFollowNumLock : Prop :=
  ∀ (cfg : Config.Params) (code nav : KeyCode) (e : RawEntry) (p : Ps2), cfg.ConstantsValid →
    e.resp = false → (code, nav) ∈ cfg.keypadRemap → lookupCode cfg e = code →
    let final := if p.lockMask.getLsbD 1 = false ∨ p.ks.shift = true then nav else code
    translateOne cfg e p =
      if final = 0 ∨ (e.brk = true ∧ p.noBreaks = true) then .ignore p
      else .event (keyEvent e.brk p.ks p.lockMask final) p

/-- R191, R192, R196, R199, R203: a response entry becomes its byte with no flags and touches nothing;
any other entry has the code of the Pause key, of the E0 table or of the plain one, as its flags say;
any key that is no lock, modifier or keypad key keeps its code and writes nothing, and a table miss or a
suppressed break of it gives no event. -/
def Obligations.ResponsesAndOrdinaryKeysKeepTheirCode : Prop :=
  (∀ (cfg : Config.Params) (e : RawEntry) (p : Ps2), e.resp = true →
    translateOne cfg e p = .event (BitVec.ofNat 16 e.byte.toNat) p) ∧
  (∀ (cfg : Config.Params) (e : RawEntry),
    (e.e1 = true → lookupCode cfg e = cfg.keyPause) ∧
    (e.e1 = false → e.e0 = true → lookupCode cfg e = (cfg.scanTableE0.lookup e.byte).getD 0) ∧
    (e.e1 = false → e.e0 = false → lookupCode cfg e = (cfg.scanTable.lookup e.byte).getD 0)) ∧
  ∀ (cfg : Config.Params) (e : RawEntry) (p : Ps2), e.resp = false →
    (∀ k, lookupCode cfg e ≠ lockCode cfg k) → (∀ m, lookupCode cfg e ∉ modCodes cfg m) →
    lookupCode cfg e ∉ cfg.keypadRemap.map Prod.fst →
    translateOne cfg e p =
      if lookupCode cfg e = 0 ∨ (e.brk = true ∧ p.noBreaks = true) then .ignore p
      else .event (keyEvent e.brk p.ks p.lockMask (lookupCode cfg e)) p

/-- R105, R200, R201: the bits of a key event. -/
def Obligations.KeyEventHasItsFields : Prop :=
  ∀ (brk : Bool) (ks : Modifiers) (mask : BitVec 4) (code : KeyCode),
    let ev := keyEvent brk ks mask code
    ev.setWidth 8 = code ∧ ev.getLsbD 15 = brk ∧ ev.getLsbD 14 = ks.shift ∧
    ev.getLsbD 13 = ks.ctrl ∧ ev.getLsbD 12 = mask.getLsbD 2 ∧ ev.getLsbD 11 = ks.alt ∧
    ev.getLsbD 10 = ks.altGr ∧ ev.getLsbD 9 = ks.gui ∧
    (ev.getLsbD 8 = true ↔
      (1 ≤ code.toNat ∧ code.toNat ≤ 0x1F) ∨ (0x61 ≤ code.toNat ∧ code.toNat ≤ 0xA0))

/-! ### Transmit -/

/-- R216, R217: where its guard holds TX_START sends the immediate byte, whatever answers are owed, and
leaves queue and count alone; without one it takes the queue's head command with all its placeholders,
whose number becomes the count of answers owed. -/
def Obligations.TxStartSendsTheImmediateByteOrTheQueueHead : Prop :=
  ∀ s : State, s.ps2.irqEn = true → s.ps2.tx.phase = .idle → s.ps2.rx.n = 0 →
    let sending (b : Byte) : Tx := { s.ps2.tx with
      immValid := false, lastSent := b, lastValid := true, byte := b, k := 0, phase := .prep }
    (s.ps2.tx.immValid = true →
      deliver .txStart s = .next { s with ps2 := { s.ps2 with tx := sending s.ps2.tx.immByte } }) ∧
    (∀ (b : Byte) (k : Nat) (tail : List TxItem), s.ps2.tx.immValid = false →
      s.ps2.dec.expected = 0 → k ≤ 255 →
      s.ps2.txq = .cmd b :: (List.replicate k .ign ++ tail) → tail.head? ≠ some .ign →
      deliver .txStart s = .next { s with ps2 := { s.ps2 with
        txq := tail
        dec := { s.ps2.dec with expected := BitVec.ofNat 8 k }
        tx := sending b } })

/-- R216, R218, R219: a sequencer step whose guard does not hold does nothing, which is how the model
reads a step the guard forbids (log entry 4). -/
def Obligations.SequencerStepsWaitForTheirGuard : Prop :=
  ∀ s : State,
    (s.ps2.irqEn = false ∨ s.ps2.tx.phase ≠ .idle ∨ s.ps2.rx.n ≠ 0 ∨
      (s.ps2.tx.immValid = false ∧ (s.ps2.txq = [] ∨ s.ps2.dec.expected ≠ 0)) →
      deliver .txStart s = .next s) ∧
    (s.ps2.irqEn = false ∨ s.ps2.tx.phase ≠ .prep → deliver .txInhibit s = .next s) ∧
    (s.ps2.irqEn = false ∨ s.ps2.tx.phase ≠ .inhibit → deliver .txRelease s = .next s)

/-- R93, R220: after edge k of a transmission the block presents bit k of the byte's frame, and nothing
else of the machine moves. -/
def Obligations.TransmissionPresentsTheFrame : Prop :=
  ∀ (s : State) (d : Bool) (t : BitVec 32), s.ps2.irqEn = true → s.ps2.tx.phase = .shift →
    s.ps2.tx.k < 10 →
    deliver (.fall d t) s = .next { s with ps2 := { s.ps2 with
      line := { s.ps2.line with dataDrvLow := !hostFrameLevel s.ps2.tx.byte (s.ps2.tx.k + 1) }
      tx := { s.ps2.tx with k := s.ps2.tx.k + 1 } } }

/-- R218 to R224: TX_INHIBIT takes PREP to INHIBIT, pulling `clk` low, and TX_RELEASE takes INHIBIT to
SHIFT, pulling `data` low and releasing `clk`, and neither changes anything else. From PREP, these two steps
and the device's 11 edges end the transmission: both lines released, the acknowledge recorded, the receive
state cleared, the queue and the owed answers as they were. -/
def Obligations.TransmissionCompletes : Prop :=
  (∀ s : State, s.ps2.irqEn = true → s.ps2.tx.phase = .prep →
    deliver .txInhibit s = .next { s with ps2 := { s.ps2 with
      line := { s.ps2.line with clkDrvLow := true }
      tx := { s.ps2.tx with phase := .inhibit } } }) ∧
  (∀ s : State, s.ps2.irqEn = true → s.ps2.tx.phase = .inhibit →
    deliver .txRelease s = .next { s with ps2 := { s.ps2 with
      line := { clkDrvLow := false, dataDrvLow := true }
      tx := { s.ps2.tx with phase := .shift, k := 0 } } }) ∧
  ∀ (s : State) (ack : Bool) (rest : List AgentStep), s.ps2.irqEn = true → s.ps2.tx.phase = .prep →
    Host.Core.run Sys2Proof.core 13
        { s with inputs := [.txInhibit, .txRelease] ++ devClockHost ack ++ rest } =
      .next { s with
        inputs := rest
        ps2 := { s.ps2 with
          tx := { s.ps2.tx with phase := .idle, k := 0, ack := ack }
          line := { clkDrvLow := false, dataDrvLow := false }
          rx := { s.ps2.rx with n := 0, sr := 0, par := false, perr := false } } }

/-! ### Reset and the whole machine -/

/-- R280: the reset values the spec gives; the engine's choices and offsets, which it leaves
unspecified, are not spoken of. -/
def Obligations.ResetValues : Prop :=
  let s := State.reset
  s.eng.configured = false ∧ (∀ c : Letter, s.eng.pb[c] = c) ∧
  s.eng.r1.stepNext = false ∧ s.eng.r2.stepNext = false ∧ s.eng.r3.stepNext = false ∧
  s.ps2 = {
    irqEn := false, noBreaks := false, noRepeats := false
    rx := { n := 0, sr := 0, par := false, perr := false, lastMs := 0, status := .ok }
    dec := { e0 := false, brk := false, e1Rem := 0, expected := 0, lastMake := 0 }
    tx := { phase := .idle, byte := 0, k := 0, ack := false, immValid := false, immByte := 0,
            lastSent := 0, lastValid := false }
    line := { clkDrvLow := false, dataDrvLow := false }
    txq := [], raw := [], rawDrops := 0, evt := []
    ks := { shift := false, ctrl := false, alt := false, altGr := false, gui := false }
    lockMask := 0
    lockHeld := { scroll := false, num := false, caps := false } }

/-- R55, the spec's own derivation: its invariants hold after every step from any state in which they
hold. -/
def Obligations.StepKeepsTheCoreInvariant : Prop :=
  ∀ s t : State, CoreInv s → step s = .next t → CoreInv t

/-- R221, the spec's own derivation: after every step the lines are driven as the transmit phase says.
-/
def Obligations.StepKeepsTheBusLevels : Prop :=
  ∀ s t : State, BusLevels s.ps2 → step s = .next t → BusLevels t.ps2

/-- R155, R156, R159: every step keeps `sr` without a bit at or above the count, `par` its parity and
`perr` clear but after bit 10; and the step that takes a data bit puts the sampled level at that bit's own
place and keeps the bits taken before it. -/
def Obligations.StepKeepsTheFrameAccumulators : Prop :=
  ∀ s t : State, FrameInv s.ps2 → step s = .next t →
    FrameInv t.ps2 ∧
    ∀ (d : Bool) (ms : BitVec 32) (rest : List AgentStep), s.inputs = .fall d ms :: rest →
      1 ≤ s.ps2.rx.n.toNat → s.ps2.rx.n.toNat ≤ 8 → t.ps2.rx.n = s.ps2.rx.n + 1 →
      ∀ j < 8, t.ps2.rx.sr.getLsbD j =
        if j + 1 = s.ps2.rx.n.toNat then d && !s.ps2.line.dataDrvLow else s.ps2.rx.sr.getLsbD j

/-- R104's invariants (the spec's own derivation), R105 and R170: after every step the raw ring holds only
entries the decoder makes, and no event is 0x0000. -/
def Obligations.StepKeepsTheRingsSound : Prop :=
  ∀ s t : State, RingsSound s.ps2 → step s = .next t → RingsSound t.ps2

/-- An inference from R98 and R217: after every step at most three answers are owed, and no queued
command byte owes more. The counts of R98's sequences are the spec's general knowledge (93 A6; log entry
14). -/
def Obligations.StepKeepsTheAnswersBounded : Prop :=
  ∀ s t : State, AnswersBounded s.ps2 → step s = .next t → AnswersBounded t.ps2

/-- R280: every invariant above holds at reset. -/
def Obligations.InvariantsHoldAtReset : Prop :=
  CoreInv State.reset ∧ BusLevels State.reset.ps2 ∧ FrameInv State.reset.ps2 ∧
    RingsSound State.reset.ps2 ∧ AnswersBounded State.reset.ps2

/-- R190, R235 to R248: what a command can change in the PS/2 unit: PS2_INIT alone touches the receive,
decoder and transmit state, the lines and the drop count, and only the interrupt commands the enable. -/
def Obligations.CommandsLeaveTheBitLevelUnitAlone : Prop :=
  ∀ (i : Instr) (s t : State), i ≠ .ps2Init → exec i s = .next t →
    t.ps2.rx = s.ps2.rx ∧ t.ps2.dec = s.ps2.dec ∧ t.ps2.tx = s.ps2.tx ∧ t.ps2.line = s.ps2.line ∧
    t.ps2.rawDrops = s.ps2.rawDrops ∧
    (i ≠ .ps2EnableIrq → i ≠ .ps2DisableIrq → t.ps2.irqEn = s.ps2.irqEn)

/-- R7, R8, R190: what an edge or a sequencer step cannot change: the engine, the last response, the events
already translated, the modifier and lock state, the options and the interrupt enable. Such a step never
stops. -/
def Obligations.DeviceAndSequencerStepsLeaveTheHostSideAlone : Prop :=
  ∀ (a : AgentStep) (s : State), (∀ packet, a ≠ .command packet) →
    ∃ t, deliver a s = .next t ∧ t.eng = s.eng ∧ t.response = s.response ∧ t.inputs = s.inputs ∧
      t.ps2.evt = s.ps2.evt ∧ t.ps2.ks = s.ps2.ks ∧ t.ps2.lockMask = s.ps2.lockMask ∧
      t.ps2.lockHeld = s.ps2.lockHeld ∧ t.ps2.noBreaks = s.ps2.noBreaks ∧
      t.ps2.noRepeats = s.ps2.noRepeats ∧ t.ps2.irqEn = s.ps2.irqEn

/-- R54, R166: what no command reads and no line shows never influences anything else. -/
def Obligations.HiddenCountersAreNeverObserved : Prop :=
  ∀ s t : State, SameVisible s t →
    (∀ s', step s = .next s' → ∃ t', step t = .next t' ∧ SameVisible s' t') ∧
    (∀ f, step s = .fault f → step t = .fault f)

/-- R5, R106: the machine's parameters meet R5's bounds and the clauses (a) to (f) of R106, and no step
changes them. That they stand in State is the model's choice (log entry 6), and so is the reading of the
clauses (b) and (e), that no symbolic key has the code of a letter, a digit or the European key (log entry
7). -/
def Obligations.ParametersAreValidAndFixed : Prop :=
  State.reset.cfg.Valid ∧ ∀ s t : State, step s = .next t → t.cfg = s.cfg
end

