-- ==== Sys2Proof/Laws/Decode.lean ====
section
/-! SUPPORT. What reading a packet's operands can answer, and the numbers behind an opcode byte. -/

namespace Sys2Proof

/-! ### Operand lists -/

theorem noOperand_eq_some {i j : Instr} {args : List Byte} (h : noOperand i args = some j) :
    args = [] ∧ j = i := by
  unfold noOperand at h
  split at h <;> cases h
  exact ⟨rfl, rfl⟩

theorem oneOperand_eq_some {f : Byte → Instr} {j : Instr} {args : List Byte}
    (h : oneOperand f args = some j) : ∃ a, args = [a] ∧ j = f a := by
  unfold oneOperand at h
  split at h <;> cases h
  exact ⟨_, rfl, rfl⟩

theorem twoOperands_eq_some {f : Byte → Byte → Instr} {j : Instr} {args : List Byte}
    (h : twoOperands f args = some j) : ∃ a b, args = [a, b] ∧ j = f a b := by
  unfold twoOperands at h
  split at h <;> cases h
  exact ⟨_, _, rfl, rfl⟩

theorem initOperands_eq_some {j : Instr} {args : List Byte} (h : initOperands args = some j) :
    ∃ a b c d e f g, args = [a, b, c, d, e, f, g] ∧ j = .engInit a b c d e f g := by
  unfold initOperands at h
  split at h <;> cases h
  exact ⟨_, _, _, _, _, _, _, rfl, rfl⟩

theorem plugboardOperands_eq_some {j : Instr} {args : List Byte}
    (h : plugboardOperands args = some j) : args.length = 26 ∧ j = .engSetPlugboard args := by
  unfold plugboardOperands at h
  split at h <;> cases h
  exact ⟨‹_›, rfl⟩

/-! ### Opcodes -/

/-- A byte is the numeral of its number. -/
theorem byte_eq_ofNat {op : Byte} {n : Nat} (h : op.toNat = n) : op = BitVec.ofNat 8 n := by
  rw [← h, BitVec.ofNat_toNat, BitVec.setWidth_eq]

end Sys2Proof
end

