-- ==== Sys2Proof/Laws/State.lean ====
section
/-! SUPPORT. One lemma per field for each named update of the state, all true by unfolding the update. -/

namespace Sys2Proof.Machine

/-! ### Responses -/

@[simp] theorem respond_eng (st : Status) (data : List Byte) (s : State) :
    (respond st data s).eng = s.eng := rfl
@[simp] theorem respond_ps2 (st : Status) (data : List Byte) (s : State) :
    (respond st data s).ps2 = s.ps2 := rfl
@[simp] theorem respond_cfg (st : Status) (data : List Byte) (s : State) :
    (respond st data s).cfg = s.cfg := rfl
@[simp] theorem respond_inputs (st : Status) (data : List Byte) (s : State) :
    (respond st data s).inputs = s.inputs := rfl
@[simp] theorem respond_response (st : Status) (data : List Byte) (s : State) :
    (respond st data s).response = statusByte st :: data := rfl

/-! ### The fetch window -/

@[simp] theorem withFetchWord_eng (s : State) (nbits w : Nat) : (s.withFetchWord nbits w).eng = s.eng := rfl
@[simp] theorem withFetchWord_ps2 (s : State) (nbits w : Nat) : (s.withFetchWord nbits w).ps2 = s.ps2 := rfl
@[simp] theorem withFetchWord_cfg (s : State) (nbits w : Nat) : (s.withFetchWord nbits w).cfg = s.cfg := rfl
@[simp] theorem withFetchWord_response (s : State) (nbits w : Nat) :
    (s.withFetchWord nbits w).response = s.response := rfl
@[simp] theorem withFetchWord_inputs (s : State) (nbits w : Nat) :
    (s.withFetchWord nbits w).inputs = .command (tablePacket nbits w) :: s.inputs := rfl

/-! ### The outbound queue and the immediate slot -/

@[simp] theorem pushTx_irqEn (items : List TxItem) (p : Ps2) : (pushTx items p).irqEn = p.irqEn := rfl
@[simp] theorem pushTx_noBreaks (items : List TxItem) (p : Ps2) :
    (pushTx items p).noBreaks = p.noBreaks := rfl
@[simp] theorem pushTx_noRepeats (items : List TxItem) (p : Ps2) :
    (pushTx items p).noRepeats = p.noRepeats := rfl
@[simp] theorem pushTx_rx (items : List TxItem) (p : Ps2) : (pushTx items p).rx = p.rx := rfl
@[simp] theorem pushTx_dec (items : List TxItem) (p : Ps2) : (pushTx items p).dec = p.dec := rfl
@[simp] theorem pushTx_tx (items : List TxItem) (p : Ps2) : (pushTx items p).tx = p.tx := rfl
@[simp] theorem pushTx_line (items : List TxItem) (p : Ps2) : (pushTx items p).line = p.line := rfl
@[simp] theorem pushTx_txq (items : List TxItem) (p : Ps2) : (pushTx items p).txq = p.txq ++ items := rfl
@[simp] theorem pushTx_raw (items : List TxItem) (p : Ps2) : (pushTx items p).raw = p.raw := rfl
@[simp] theorem pushTx_rawDrops (items : List TxItem) (p : Ps2) :
    (pushTx items p).rawDrops = p.rawDrops := rfl
@[simp] theorem pushTx_evt (items : List TxItem) (p : Ps2) : (pushTx items p).evt = p.evt := rfl
@[simp] theorem pushTx_ks (items : List TxItem) (p : Ps2) : (pushTx items p).ks = p.ks := rfl
@[simp] theorem pushTx_lockMask (items : List TxItem) (p : Ps2) :
    (pushTx items p).lockMask = p.lockMask := rfl
@[simp] theorem pushTx_lockHeld (items : List TxItem) (p : Ps2) :
    (pushTx items p).lockHeld = p.lockHeld := rfl

@[simp] theorem immediate_irqEn (b : Byte) (p : Ps2) : (immediate b p).irqEn = p.irqEn := rfl
@[simp] theorem immediate_noBreaks (b : Byte) (p : Ps2) : (immediate b p).noBreaks = p.noBreaks := rfl
@[simp] theorem immediate_noRepeats (b : Byte) (p : Ps2) : (immediate b p).noRepeats = p.noRepeats := rfl
@[simp] theorem immediate_rx (b : Byte) (p : Ps2) : (immediate b p).rx = p.rx := rfl
@[simp] theorem immediate_dec (b : Byte) (p : Ps2) : (immediate b p).dec = p.dec := rfl
@[simp] theorem immediate_tx_phase (b : Byte) (p : Ps2) : (immediate b p).tx.phase = p.tx.phase := rfl
@[simp] theorem immediate_tx_byte (b : Byte) (p : Ps2) : (immediate b p).tx.byte = p.tx.byte := rfl
@[simp] theorem immediate_tx_k (b : Byte) (p : Ps2) : (immediate b p).tx.k = p.tx.k := rfl
@[simp] theorem immediate_tx_ack (b : Byte) (p : Ps2) : (immediate b p).tx.ack = p.tx.ack := rfl
@[simp] theorem immediate_tx_immValid (b : Byte) (p : Ps2) : (immediate b p).tx.immValid = true := rfl
@[simp] theorem immediate_tx_immByte (b : Byte) (p : Ps2) : (immediate b p).tx.immByte = b := rfl
@[simp] theorem immediate_tx_lastSent (b : Byte) (p : Ps2) :
    (immediate b p).tx.lastSent = p.tx.lastSent := rfl
@[simp] theorem immediate_tx_lastValid (b : Byte) (p : Ps2) :
    (immediate b p).tx.lastValid = p.tx.lastValid := rfl
@[simp] theorem immediate_line (b : Byte) (p : Ps2) : (immediate b p).line = p.line := rfl
@[simp] theorem immediate_txq (b : Byte) (p : Ps2) : (immediate b p).txq = p.txq := rfl
@[simp] theorem immediate_raw (b : Byte) (p : Ps2) : (immediate b p).raw = p.raw := rfl
@[simp] theorem immediate_rawDrops (b : Byte) (p : Ps2) : (immediate b p).rawDrops = p.rawDrops := rfl
@[simp] theorem immediate_evt (b : Byte) (p : Ps2) : (immediate b p).evt = p.evt := rfl
@[simp] theorem immediate_ks (b : Byte) (p : Ps2) : (immediate b p).ks = p.ks := rfl
@[simp] theorem immediate_lockMask (b : Byte) (p : Ps2) : (immediate b p).lockMask = p.lockMask := rfl
@[simp] theorem immediate_lockHeld (b : Byte) (p : Ps2) : (immediate b p).lockHeld = p.lockHeld := rfl

/-! ### The receive clear, the hard reset and the answer count -/

@[simp] theorem rxClear_irqEn (p : Ps2) : (rxClear p).irqEn = p.irqEn := rfl
@[simp] theorem rxClear_noBreaks (p : Ps2) : (rxClear p).noBreaks = p.noBreaks := rfl
@[simp] theorem rxClear_noRepeats (p : Ps2) : (rxClear p).noRepeats = p.noRepeats := rfl
@[simp] theorem rxClear_rx_n (p : Ps2) : (rxClear p).rx.n = 0 := rfl
@[simp] theorem rxClear_rx_sr (p : Ps2) : (rxClear p).rx.sr = 0 := rfl
@[simp] theorem rxClear_rx_par (p : Ps2) : (rxClear p).rx.par = false := rfl
@[simp] theorem rxClear_rx_perr (p : Ps2) : (rxClear p).rx.perr = false := rfl
@[simp] theorem rxClear_rx_lastMs (p : Ps2) : (rxClear p).rx.lastMs = p.rx.lastMs := rfl
@[simp] theorem rxClear_rx_status (p : Ps2) : (rxClear p).rx.status = p.rx.status := rfl
@[simp] theorem rxClear_dec (p : Ps2) : (rxClear p).dec = p.dec := rfl
@[simp] theorem rxClear_tx (p : Ps2) : (rxClear p).tx = p.tx := rfl
@[simp] theorem rxClear_line (p : Ps2) : (rxClear p).line = p.line := rfl
@[simp] theorem rxClear_txq (p : Ps2) : (rxClear p).txq = p.txq := rfl
@[simp] theorem rxClear_raw (p : Ps2) : (rxClear p).raw = p.raw := rfl
@[simp] theorem rxClear_rawDrops (p : Ps2) : (rxClear p).rawDrops = p.rawDrops := rfl
@[simp] theorem rxClear_evt (p : Ps2) : (rxClear p).evt = p.evt := rfl
@[simp] theorem rxClear_ks (p : Ps2) : (rxClear p).ks = p.ks := rfl
@[simp] theorem rxClear_lockMask (p : Ps2) : (rxClear p).lockMask = p.lockMask := rfl
@[simp] theorem rxClear_lockHeld (p : Ps2) : (rxClear p).lockHeld = p.lockHeld := rfl

@[simp] theorem hardReset_irqEn (p : Ps2) : (hardReset p).irqEn = p.irqEn := rfl
@[simp] theorem hardReset_noBreaks (p : Ps2) : (hardReset p).noBreaks = p.noBreaks := rfl
@[simp] theorem hardReset_noRepeats (p : Ps2) : (hardReset p).noRepeats = p.noRepeats := rfl
@[simp] theorem hardReset_rx (p : Ps2) : (hardReset p).rx = p.rx := rfl
@[simp] theorem hardReset_dec_e0 (p : Ps2) : (hardReset p).dec.e0 = false := rfl
@[simp] theorem hardReset_dec_brk (p : Ps2) : (hardReset p).dec.brk = false := rfl
@[simp] theorem hardReset_dec_e1Rem (p : Ps2) : (hardReset p).dec.e1Rem = 0 := rfl
@[simp] theorem hardReset_dec_expected (p : Ps2) : (hardReset p).dec.expected = 0 := rfl
@[simp] theorem hardReset_dec_lastMake (p : Ps2) : (hardReset p).dec.lastMake = p.dec.lastMake := rfl
@[simp] theorem hardReset_tx_phase (p : Ps2) : (hardReset p).tx.phase = p.tx.phase := rfl
@[simp] theorem hardReset_tx_byte (p : Ps2) : (hardReset p).tx.byte = p.tx.byte := rfl
@[simp] theorem hardReset_tx_k (p : Ps2) : (hardReset p).tx.k = p.tx.k := rfl
@[simp] theorem hardReset_tx_ack (p : Ps2) : (hardReset p).tx.ack = p.tx.ack := rfl
@[simp] theorem hardReset_tx_immValid (p : Ps2) : (hardReset p).tx.immValid = false := rfl
@[simp] theorem hardReset_tx_immByte (p : Ps2) : (hardReset p).tx.immByte = p.tx.immByte := rfl
@[simp] theorem hardReset_tx_lastSent (p : Ps2) : (hardReset p).tx.lastSent = p.tx.lastSent := rfl
@[simp] theorem hardReset_tx_lastValid (p : Ps2) : (hardReset p).tx.lastValid = false := rfl
@[simp] theorem hardReset_line (p : Ps2) : (hardReset p).line = p.line := rfl
@[simp] theorem hardReset_txq (p : Ps2) : (hardReset p).txq = [] := rfl
@[simp] theorem hardReset_raw (p : Ps2) : (hardReset p).raw = p.raw := rfl
@[simp] theorem hardReset_rawDrops (p : Ps2) : (hardReset p).rawDrops = p.rawDrops := rfl
@[simp] theorem hardReset_evt (p : Ps2) : (hardReset p).evt = p.evt := rfl
@[simp] theorem hardReset_ks (p : Ps2) : (hardReset p).ks = p.ks := rfl
@[simp] theorem hardReset_lockMask (p : Ps2) : (hardReset p).lockMask = p.lockMask := rfl
@[simp] theorem hardReset_lockHeld (p : Ps2) : (hardReset p).lockHeld = p.lockHeld := rfl

@[simp] theorem oneAnswerFewer_irqEn (p : Ps2) : (oneAnswerFewer p).irqEn = p.irqEn := rfl
@[simp] theorem oneAnswerFewer_noBreaks (p : Ps2) : (oneAnswerFewer p).noBreaks = p.noBreaks := rfl
@[simp] theorem oneAnswerFewer_noRepeats (p : Ps2) : (oneAnswerFewer p).noRepeats = p.noRepeats := rfl
@[simp] theorem oneAnswerFewer_rx (p : Ps2) : (oneAnswerFewer p).rx = p.rx := rfl
@[simp] theorem oneAnswerFewer_dec_e0 (p : Ps2) : (oneAnswerFewer p).dec.e0 = p.dec.e0 := rfl
@[simp] theorem oneAnswerFewer_dec_brk (p : Ps2) : (oneAnswerFewer p).dec.brk = p.dec.brk := rfl
@[simp] theorem oneAnswerFewer_dec_e1Rem (p : Ps2) : (oneAnswerFewer p).dec.e1Rem = p.dec.e1Rem := rfl
@[simp] theorem oneAnswerFewer_dec_expected (p : Ps2) :
    (oneAnswerFewer p).dec.expected = if p.dec.expected = 0 then 0 else p.dec.expected - 1 := rfl
@[simp] theorem oneAnswerFewer_dec_lastMake (p : Ps2) :
    (oneAnswerFewer p).dec.lastMake = p.dec.lastMake := rfl
@[simp] theorem oneAnswerFewer_tx (p : Ps2) : (oneAnswerFewer p).tx = p.tx := rfl
@[simp] theorem oneAnswerFewer_line (p : Ps2) : (oneAnswerFewer p).line = p.line := rfl
@[simp] theorem oneAnswerFewer_txq (p : Ps2) : (oneAnswerFewer p).txq = p.txq := rfl
@[simp] theorem oneAnswerFewer_raw (p : Ps2) : (oneAnswerFewer p).raw = p.raw := rfl
@[simp] theorem oneAnswerFewer_rawDrops (p : Ps2) : (oneAnswerFewer p).rawDrops = p.rawDrops := rfl
@[simp] theorem oneAnswerFewer_evt (p : Ps2) : (oneAnswerFewer p).evt = p.evt := rfl
@[simp] theorem oneAnswerFewer_ks (p : Ps2) : (oneAnswerFewer p).ks = p.ks := rfl
@[simp] theorem oneAnswerFewer_lockMask (p : Ps2) : (oneAnswerFewer p).lockMask = p.lockMask := rfl
@[simp] theorem oneAnswerFewer_lockHeld (p : Ps2) : (oneAnswerFewer p).lockHeld = p.lockHeld := rfl

/-! ### Transmission -/

@[simp] theorem beginTransmission_irqEn (b : Byte) (p : Ps2) : (beginTransmission b p).irqEn = p.irqEn := rfl
@[simp] theorem beginTransmission_noBreaks (b : Byte) (p : Ps2) :
    (beginTransmission b p).noBreaks = p.noBreaks := rfl
@[simp] theorem beginTransmission_noRepeats (b : Byte) (p : Ps2) :
    (beginTransmission b p).noRepeats = p.noRepeats := rfl
@[simp] theorem beginTransmission_rx (b : Byte) (p : Ps2) : (beginTransmission b p).rx = p.rx := rfl
@[simp] theorem beginTransmission_dec (b : Byte) (p : Ps2) : (beginTransmission b p).dec = p.dec := rfl
@[simp] theorem beginTransmission_tx_phase (b : Byte) (p : Ps2) :
    (beginTransmission b p).tx.phase = .prep := rfl
@[simp] theorem beginTransmission_tx_byte (b : Byte) (p : Ps2) : (beginTransmission b p).tx.byte = b := rfl
@[simp] theorem beginTransmission_tx_k (b : Byte) (p : Ps2) : (beginTransmission b p).tx.k = 0 := rfl
@[simp] theorem beginTransmission_tx_ack (b : Byte) (p : Ps2) :
    (beginTransmission b p).tx.ack = p.tx.ack := rfl
@[simp] theorem beginTransmission_tx_immValid (b : Byte) (p : Ps2) :
    (beginTransmission b p).tx.immValid = p.tx.immValid := rfl
@[simp] theorem beginTransmission_tx_immByte (b : Byte) (p : Ps2) :
    (beginTransmission b p).tx.immByte = p.tx.immByte := rfl
@[simp] theorem beginTransmission_tx_lastSent (b : Byte) (p : Ps2) :
    (beginTransmission b p).tx.lastSent = b := rfl
@[simp] theorem beginTransmission_tx_lastValid (b : Byte) (p : Ps2) :
    (beginTransmission b p).tx.lastValid = true := rfl
@[simp] theorem beginTransmission_line (b : Byte) (p : Ps2) : (beginTransmission b p).line = p.line := rfl
@[simp] theorem beginTransmission_txq (b : Byte) (p : Ps2) : (beginTransmission b p).txq = p.txq := rfl
@[simp] theorem beginTransmission_raw (b : Byte) (p : Ps2) : (beginTransmission b p).raw = p.raw := rfl
@[simp] theorem beginTransmission_rawDrops (b : Byte) (p : Ps2) :
    (beginTransmission b p).rawDrops = p.rawDrops := rfl
@[simp] theorem beginTransmission_evt (b : Byte) (p : Ps2) : (beginTransmission b p).evt = p.evt := rfl
@[simp] theorem beginTransmission_ks (b : Byte) (p : Ps2) : (beginTransmission b p).ks = p.ks := rfl
@[simp] theorem beginTransmission_lockMask (b : Byte) (p : Ps2) :
    (beginTransmission b p).lockMask = p.lockMask := rfl
@[simp] theorem beginTransmission_lockHeld (b : Byte) (p : Ps2) :
    (beginTransmission b p).lockHeld = p.lockHeld := rfl

@[simp] theorem txComplete_irqEn (p : Ps2) : (txComplete p).irqEn = p.irqEn := rfl
@[simp] theorem txComplete_noBreaks (p : Ps2) : (txComplete p).noBreaks = p.noBreaks := rfl
@[simp] theorem txComplete_noRepeats (p : Ps2) : (txComplete p).noRepeats = p.noRepeats := rfl
@[simp] theorem txComplete_rx_n (p : Ps2) : (txComplete p).rx.n = 0 := rfl
@[simp] theorem txComplete_rx_sr (p : Ps2) : (txComplete p).rx.sr = 0 := rfl
@[simp] theorem txComplete_rx_par (p : Ps2) : (txComplete p).rx.par = false := rfl
@[simp] theorem txComplete_rx_perr (p : Ps2) : (txComplete p).rx.perr = false := rfl
@[simp] theorem txComplete_rx_lastMs (p : Ps2) : (txComplete p).rx.lastMs = p.rx.lastMs := rfl
@[simp] theorem txComplete_rx_status (p : Ps2) : (txComplete p).rx.status = p.rx.status := rfl
@[simp] theorem txComplete_dec (p : Ps2) : (txComplete p).dec = p.dec := rfl
@[simp] theorem txComplete_tx_phase (p : Ps2) : (txComplete p).tx.phase = .idle := rfl
@[simp] theorem txComplete_tx_byte (p : Ps2) : (txComplete p).tx.byte = p.tx.byte := rfl
@[simp] theorem txComplete_tx_k (p : Ps2) : (txComplete p).tx.k = 0 := rfl
@[simp] theorem txComplete_tx_ack (p : Ps2) : (txComplete p).tx.ack = p.tx.ack := rfl
@[simp] theorem txComplete_tx_immValid (p : Ps2) : (txComplete p).tx.immValid = p.tx.immValid := rfl
@[simp] theorem txComplete_tx_immByte (p : Ps2) : (txComplete p).tx.immByte = p.tx.immByte := rfl
@[simp] theorem txComplete_tx_lastSent (p : Ps2) : (txComplete p).tx.lastSent = p.tx.lastSent := rfl
@[simp] theorem txComplete_tx_lastValid (p : Ps2) : (txComplete p).tx.lastValid = p.tx.lastValid := rfl
@[simp] theorem txComplete_line (p : Ps2) : (txComplete p).line = p.line := rfl
@[simp] theorem txComplete_txq (p : Ps2) : (txComplete p).txq = p.txq := rfl
@[simp] theorem txComplete_raw (p : Ps2) : (txComplete p).raw = p.raw := rfl
@[simp] theorem txComplete_rawDrops (p : Ps2) : (txComplete p).rawDrops = p.rawDrops := rfl
@[simp] theorem txComplete_evt (p : Ps2) : (txComplete p).evt = p.evt := rfl
@[simp] theorem txComplete_ks (p : Ps2) : (txComplete p).ks = p.ks := rfl
@[simp] theorem txComplete_lockMask (p : Ps2) : (txComplete p).lockMask = p.lockMask := rfl
@[simp] theorem txComplete_lockHeld (p : Ps2) : (txComplete p).lockHeld = p.lockHeld := rfl

/-! ### The engine -/

@[simp] theorem advance_sel (r : Rotor) : (advance r).sel = r.sel := rfl
@[simp] theorem advance_off (r : Rotor) : (advance r).off = r.off + 1 := rfl
@[simp] theorem advance_stepNext (r : Rotor) : (advance r).stepNext = r.stepNext := rfl
@[simp] theorem configure_configured (e : Engine) (n1 n2 n3 : RotorNo) (f : ReflectorNo) (o1 o2 o3 : Letter) :
    (configure e n1 n2 n3 f o1 o2 o3).configured = true := rfl
@[simp] theorem configure_r1 (e : Engine) (n1 n2 n3 : RotorNo) (f : ReflectorNo) (o1 o2 o3 : Letter) :
    (configure e n1 n2 n3 f o1 o2 o3).r1 = ⟨n1, o1, false⟩ := rfl
@[simp] theorem configure_r2 (e : Engine) (n1 n2 n3 : RotorNo) (f : ReflectorNo) (o1 o2 o3 : Letter) :
    (configure e n1 n2 n3 f o1 o2 o3).r2 = ⟨n2, o2, false⟩ := rfl
@[simp] theorem configure_r3 (e : Engine) (n1 n2 n3 : RotorNo) (f : ReflectorNo) (o1 o2 o3 : Letter) :
    (configure e n1 n2 n3 f o1 o2 o3).r3 = ⟨n3, o3, false⟩ := rfl
@[simp] theorem configure_refl (e : Engine) (n1 n2 n3 : RotorNo) (f : ReflectorNo) (o1 o2 o3 : Letter) :
    (configure e n1 n2 n3 f o1 o2 o3).refl = f := rfl
@[simp] theorem configure_pb (e : Engine) (n1 n2 n3 : RotorNo) (f : ReflectorNo) (o1 o2 o3 : Letter) :
    (configure e n1 n2 n3 f o1 o2 o3).pb = e.pb := rfl

end Sys2Proof.Machine
end

