-- ==== Sys2Proof/Laws/Engine.lean ====
section
/-! SUPPORT. What a keystroke's stepping does to each field of the engine (R121 to R126), and what each
engine command can answer. -/

namespace Sys2Proof.Machine

/-! ### One rotor -/

@[simp] theorem advanceMark_sel (r : Rotor) : (advanceMark r).sel = r.sel := by
  simp only [advanceMark]; split <;> rfl

@[simp] theorem advanceMark_off (r : Rotor) : (advanceMark r).off = r.off + 1 := by
  simp only [advanceMark]; split <;> rfl

@[simp] theorem advanceMark_stepNext (r : Rotor) :
    (advanceMark r).stepNext = (r.stepNext || (romTurnover r.sel).contains (r.off + 1)) := by
  change _ = (r.stepNext || atTurnover (advance r))
  by_cases h : atTurnover (advance r) = true <;> simp [advanceMark, h]

theorem advanceMark_eq (r : Rotor) : advanceMark r =
    ⟨r.sel, r.off + 1, r.stepNext || (romTurnover r.sel).contains (r.off + 1)⟩ := by
  have h1 := advanceMark_sel r
  have h2 := advanceMark_off r
  have h3 := advanceMark_stepNext r
  generalize advanceMark r = q at *
  cases q
  simp_all

/-! ### The four stages -/

/-- Every stage keeps what stepping may not touch. -/
theorem stepDouble_keeps (e : Engine) :
    (stepDouble e).configured = e.configured ∧ (stepDouble e).r1 = e.r1 ∧
      (stepDouble e).r3 = e.r3 ∧ (stepDouble e).refl = e.refl ∧ (stepDouble e).pb = e.pb := by
  simp only [stepDouble]; split <;> simp

theorem carryFast_keeps (e : Engine) :
    (carryFast e).configured = e.configured ∧ (carryFast e).r3 = e.r3 ∧
      (carryFast e).refl = e.refl ∧ (carryFast e).pb = e.pb := by
  simp only [carryFast]; split <;> simp

theorem carryMiddle_keeps (e : Engine) :
    (carryMiddle e).configured = e.configured ∧ (carryMiddle e).r1 = e.r1 ∧
      (carryMiddle e).refl = e.refl ∧ (carryMiddle e).pb = e.pb := by
  simp only [carryMiddle]; split <;> simp

theorem carryFast_r1_stepNext (e : Engine) : (carryFast e).r1.stepNext = false := by
  simp only [carryFast]; split <;> simp_all

theorem carryMiddle_r2_stepNext (e : Engine) : (carryMiddle e).r2.stepNext = false := by
  simp only [carryMiddle]; split <;> simp_all

/-! ### The whole of Step() -/

@[simp] theorem stepEngine_configured (e : Engine) : (stepEngine e).configured = e.configured := by
  simp [stepEngine, stepFast, carryMiddle_keeps, carryFast_keeps, stepDouble_keeps]

@[simp] theorem stepEngine_refl (e : Engine) : (stepEngine e).refl = e.refl := by
  simp [stepEngine, stepFast, carryMiddle_keeps, carryFast_keeps, stepDouble_keeps]

@[simp] theorem stepEngine_pb (e : Engine) : (stepEngine e).pb = e.pb := by
  simp [stepEngine, stepFast, carryMiddle_keeps, carryFast_keeps, stepDouble_keeps]

/-- A keystroke leaves the plugboard's map as it is. -/
@[simp] theorem plug_stepEngine (e : Engine) (c : Letter) : plug (stepEngine e) c = plug e c := by
  simp [plug]

/-- After Step() both carry flags are clear, whatever they were (R126 (d)). -/
theorem stepEngine_flags_clear (e : Engine) :
    (stepEngine e).r1.stepNext = false ∧ (stepEngine e).r2.stepNext = false := by
  simp [stepEngine, carryMiddle_keeps, carryFast_r1_stepNext, carryMiddle_r2_stepNext]

/-! ### The commands' outcomes -/

/-- Everything ENG_INIT can do: refuse with one of its three status bytes, or configure. -/
theorem execEngInit_cases (rot1 rot2 rot3 refl off1 off2 off3 : Byte) (s : State) :
    (∃ st, execEngInit rot1 rot2 rot3 refl off1 off2 off3 s = raiseStatus st s ∧
      (st = .invalidRotorIndex ∨ st = .invalidOffset ∨ st = .invalidReflector)) ∨
    ∃ n1 n2 n3 f o1 o2 o3, execEngInit rot1 rot2 rot3 refl off1 off2 off3 s =
      answer [] { s with eng := configure s.eng n1 n2 n3 f o1 o2 o3 } := by
  simp only [execEngInit]
  repeat' split
  all_goals first
    | exact .inr ⟨_, _, _, _, _, _, _, rfl⟩
    | exact .inl ⟨_, rfl, by simp⟩

/-- Everything ENG_SET_PLUGBOARD can do: refuse, or install an involution (R136, R137). -/
theorem execEngSetPlugboard_cases (p : List Byte) (s : State) :
    execEngSetPlugboard p s = raiseStatus .invalidPlugboard s ∨
    ∃ pb : Vector Letter 26, (∀ c : Letter, pb[pb[c]] = c) ∧
      execEngSetPlugboard p s = answer [] { s with eng := { s.eng with pb := pb } } := by
  simp only [execEngSetPlugboard, plugboardOfBytes]
  by_cases h : p.length = 26 ∧ (∀ b ∈ p, b.toNat < 26) ∧
      ∀ i : Letter, plugEntry p (plugEntry p i) = i
  · exact .inr ⟨Vector.ofFn (plugEntry p), by simpa using h.2.2, by simp [if_pos h]⟩
  · exact .inl (by simp [if_neg h])

/-- Everything ENG_ENCRYPT can do: refuse, fault on a non-letter, or step and permute (R135). -/
theorem execEngEncrypt_cases (ch : Byte) (s : State) :
    execEngEncrypt ch s = raiseStatus .notConfigured s ∨
    execEngEncrypt ch s = .fault (.encryptNonLetter ch) ∨
    ∃ c, execEngEncrypt ch s =
      answer [asciiOfLetter (perm (stepEngine s.eng) c)] { s with eng := stepEngine s.eng } := by
  simp only [execEngEncrypt]
  repeat' split
  · exact .inr (.inr ⟨_, rfl⟩)
  · exact .inr (.inl rfl)
  · exact .inl rfl

/-- Everything ENG_ROTOR_OFFSET can do: refuse, or answer one byte; no state changes (R138). -/
theorem execEngRotorOffset_cases (i : Byte) (s : State) :
    (∃ st, execEngRotorOffset i s = raiseStatus st s ∧ (st = .notConfigured ∨ st = .invalidArg)) ∨
    ∃ b, execEngRotorOffset i s = answer [b] s := by
  simp only [execEngRotorOffset]
  repeat' split
  all_goals first
    | exact .inr ⟨_, rfl⟩
    | exact .inl ⟨_, rfl, by simp⟩

end Sys2Proof.Machine
end

