-- ==== Sys2Proof/Laws/Ops.lean ====
section
/-! SUPPORT. What each shared operation of Machine/Ops.lean can do, said once. -/

namespace Sys2Proof.Machine

open Host (Outcome)

/-! ### Responses -/

theorem answer_eq (data : List Byte) (s : State) : answer data s = .next (respond .ok data s) := rfl

theorem raiseStatus_eq (st : Status) (s : State) : raiseStatus st s = .next (respond st [] s) := rfl

/-- Only OK has the status byte 0x00 (R91). -/
theorem statusByte_eq_zero (st : Status) : statusByte st = 0x00 ↔ st = .ok := by
  cases st <;> decide

/-- The nine status bytes are distinct (R91). -/
theorem statusByte_injective (st st' : Status) (h : statusByte st = statusByte st') : st = st' := by
  cases st <;> cases st' <;> first | rfl | exact absurd h (by decide)

/-! ### FIFOs -/

theorem hasRoom_iff (cap len k : Nat) : hasRoom cap len k = true ↔ len + k ≤ cap := by
  simp [hasRoom]

theorem txFits_iff (cfg : Config.Params) (items : List TxItem) (p : Ps2) :
    txFits cfg items p = true ↔ p.txq.length + items.length ≤ cfg.txqCap := by
  simp [txFits, hasRoom]

/-- A command sequence is queued whole or refused whole (R65, R98). -/
theorem queueSequence_cases (items : List TxItem) (s : State) :
    (s.ps2.txq.length + items.length ≤ s.cfg.txqCap ∧
      queueSequence items s = answer [] { s with ps2 := pushTx items s.ps2 }) ∨
    (s.cfg.txqCap < s.ps2.txq.length + items.length ∧
      queueSequence items s = raiseStatus .txQueueFull s) := by
  by_cases h : s.ps2.txq.length + items.length ≤ s.cfg.txqCap
  · exact .inl ⟨h, by simp [queueSequence, (txFits_iff _ _ _).2 h, answer]⟩
  · refine .inr ⟨by omega, ?_⟩
    have h' : txFits s.cfg items s.ps2 = false := by
      simpa using mt (txFits_iff s.cfg items s.ps2).1 h
    simp [queueSequence, h', raiseStatus]

/-- Saving appends the entry, or changes nothing but the drop count (R183). -/
theorem save_cases (cfg : Config.Params) (e : RawEntry) (p : Ps2) :
    (p.raw.length + 1 ≤ cfg.rawCap ∧ save cfg e p = { p with raw := p.raw ++ [e] }) ∨
    (cfg.rawCap < p.raw.length + 1 ∧ ∃ d, save cfg e p = { p with rawDrops := d }) := by
  by_cases h : p.raw.length + 1 ≤ cfg.rawCap
  · exact .inl ⟨h, by simp [save, (hasRoom_iff _ _ _).2 h]⟩
  · refine .inr ⟨by omega, ?_⟩
    have h' : hasRoom cfg.rawCap p.raw.length 1 = false := by
      simpa using mt (hasRoom_iff cfg.rawCap p.raw.length 1).1 h
    exact ⟨_, by simp only [save, h']; rfl⟩

theorem mem_save_raw (cfg : Config.Params) (e x : RawEntry) (p : Ps2) (h : x ∈ (save cfg e p).raw) :
    x ∈ p.raw ∨ x = e := by
  obtain ⟨_, h'⟩ | ⟨_, d, h'⟩ := save_cases cfg e p <;> simp_all

theorem save_raw_length (cfg : Config.Params) (e : RawEntry) (p : Ps2)
    (h : p.raw.length ≤ cfg.rawCap) : (save cfg e p).raw.length ≤ cfg.rawCap := by
  obtain ⟨_, h'⟩ | ⟨_, d, h'⟩ := save_cases cfg e p <;> simp_all

@[simp] theorem save_irqEn (cfg : Config.Params) (e : RawEntry) (p : Ps2) :
    (save cfg e p).irqEn = p.irqEn := by
  simp only [save]; split <;> rfl

@[simp] theorem save_noBreaks (cfg : Config.Params) (e : RawEntry) (p : Ps2) :
    (save cfg e p).noBreaks = p.noBreaks := by
  simp only [save]; split <;> rfl

@[simp] theorem save_noRepeats (cfg : Config.Params) (e : RawEntry) (p : Ps2) :
    (save cfg e p).noRepeats = p.noRepeats := by
  simp only [save]; split <;> rfl

@[simp] theorem save_rx (cfg : Config.Params) (e : RawEntry) (p : Ps2) :
    (save cfg e p).rx = p.rx := by
  simp only [save]; split <;> rfl

@[simp] theorem save_dec (cfg : Config.Params) (e : RawEntry) (p : Ps2) :
    (save cfg e p).dec = p.dec := by
  simp only [save]; split <;> rfl

@[simp] theorem save_tx (cfg : Config.Params) (e : RawEntry) (p : Ps2) :
    (save cfg e p).tx = p.tx := by
  simp only [save]; split <;> rfl

@[simp] theorem save_line (cfg : Config.Params) (e : RawEntry) (p : Ps2) :
    (save cfg e p).line = p.line := by
  simp only [save]; split <;> rfl

@[simp] theorem save_txq (cfg : Config.Params) (e : RawEntry) (p : Ps2) :
    (save cfg e p).txq = p.txq := by
  simp only [save]; split <;> rfl

@[simp] theorem save_evt (cfg : Config.Params) (e : RawEntry) (p : Ps2) :
    (save cfg e p).evt = p.evt := by
  simp only [save]; split <;> rfl

@[simp] theorem save_ks (cfg : Config.Params) (e : RawEntry) (p : Ps2) :
    (save cfg e p).ks = p.ks := by
  simp only [save]; split <;> rfl

@[simp] theorem save_lockMask (cfg : Config.Params) (e : RawEntry) (p : Ps2) :
    (save cfg e p).lockMask = p.lockMask := by
  simp only [save]; split <;> rfl

@[simp] theorem save_lockHeld (cfg : Config.Params) (e : RawEntry) (p : Ps2) :
    (save cfg e p).lockHeld = p.lockHeld := by
  simp only [save]; split <;> rfl

end Sys2Proof.Machine
end

