-- ==== Sys2Proof/Laws/PerInstr.lean ====
section
/-! SUPPORT. Per-instruction facts of the syntax, one lemma per command of R88. -/

namespace Sys2Proof.Laws.EncodeLength

/-- The packet of a well-formed command starts with an opcode of R88's map and has the length the map
gives that opcode. -/
def Statement (i : Instr) : Prop :=
  i.wellFormed = true → ∃ op args, encode i = op :: args ∧ packetLength op = some (args.length + 1)

theorem engInit (rot1 rot2 rot3 refl off1 off2 off3 : Byte) :
    Statement (.engInit rot1 rot2 rot3 refl off1 off2 off3) := fun _ => ⟨0x01, _, rfl, rfl⟩

theorem engSetPlugboard (p : List Byte) : Statement (.engSetPlugboard p) := by
  intro h
  have hl : p.length = 26 := by simpa [Instr.wellFormed] using h
  exact ⟨0x02, p, rfl, by rw [hl]; rfl⟩

theorem engEncrypt (ch : Byte) : Statement (.engEncrypt ch) := fun _ => ⟨0x03, _, rfl, rfl⟩

theorem engRotorOffset (i : Byte) : Statement (.engRotorOffset i) := fun _ => ⟨0x04, _, rfl, rfl⟩

theorem ps2Init : Statement .ps2Init := fun _ => ⟨0x10, _, rfl, rfl⟩

theorem ps2EnableIrq : Statement .ps2EnableIrq := fun _ => ⟨0x11, _, rfl, rfl⟩

theorem ps2DisableIrq : Statement .ps2DisableIrq := fun _ => ⟨0x12, _, rfl, rfl⟩

theorem ps2Available : Statement .ps2Available := fun _ => ⟨0x13, _, rfl, rfl⟩

theorem ps2Read : Statement .ps2Read := fun _ => ⟨0x14, _, rfl, rfl⟩

theorem ps2GetLock : Statement .ps2GetLock := fun _ => ⟨0x15, _, rfl, rfl⟩

theorem ps2SetLock (mask : Byte) : Statement (.ps2SetLock mask) := fun _ => ⟨0x16, _, rfl, rfl⟩

theorem ps2SetNoBreaks (flag : Byte) : Statement (.ps2SetNoBreaks flag) := fun _ => ⟨0x17, _, rfl, rfl⟩

theorem ps2SetNoRepeats (flag : Byte) : Statement (.ps2SetNoRepeats flag) :=
  fun _ => ⟨0x18, _, rfl, rfl⟩

theorem ps2Echo : Statement .ps2Echo := fun _ => ⟨0x19, _, rfl, rfl⟩

theorem ps2ReadId : Statement .ps2ReadId := fun _ => ⟨0x1A, _, rfl, rfl⟩

theorem ps2GetScancodeSet : Statement .ps2GetScancodeSet := fun _ => ⟨0x1B, _, rfl, rfl⟩

theorem ps2Typematic (rate delay : Byte) : Statement (.ps2Typematic rate delay) :=
  fun _ => ⟨0x1C, _, rfl, rfl⟩

theorem ps2Reset : Statement .ps2Reset := fun _ => ⟨0x1D, _, rfl, rfl⟩

end Sys2Proof.Laws.EncodeLength
end

