-- ==== Sys2Proof/Laws/Ps2.lean ====
section
/-! SUPPORT. What a received byte, an edge and a sequencer step can do to the PS/2 unit, said once. -/

namespace Sys2Proof.Machine

/-! ### The decoder -/

/-- Everything one received byte can do (R94, R170 to R182). -/
theorem decodeByte_cases (cfg : Config.Params) (b : Byte) (p : Ps2) :
    (b = 0xFF ∧ decodeByte cfg b p = save cfg (respEntry 0xFF) (hardReset p)) ∨
    (b = 0x00 ∧ decodeByte cfg b p = hardReset p) ∨
    ((b = 0xAA ∨ b = 0xFC) ∧ decodeByte cfg b p =
      save cfg (respEntry b) { p with dec := { p.dec with expected := 0 } }) ∨
    (b = 0xFA ∧ decodeByte cfg b p = oneAnswerFewer p) ∨
    (b = 0xFE ∧ decodeByte cfg b p = if p.tx.lastValid then immediate p.tx.lastSent p else p) ∨
    (b = 0xEE ∧ decodeByte cfg b p = decodeEcho cfg p) ∨
    (b ≠ 0x00 ∧ p.dec.e1Rem ≠ 0 ∧ decodeByte cfg b p = decodePause cfg b p) ∨
    (b ≠ 0x00 ∧ p.dec.e1Rem = 0 ∧ p.dec.expected ≠ 0 ∧
      decodeByte cfg b p = decodeResponse cfg b p) ∨
    (p.dec.e1Rem = 0 ∧ p.dec.expected = 0 ∧
      ((b = 0xE0 ∧ decodeByte cfg b p = { p with dec := { p.dec with e0 := true } }) ∨
      (b = 0xE1 ∧ decodeByte cfg b p =
        { p with dec := { p.dec with e1Rem := 7, e0 := false, brk := false } }) ∨
      (b = 0xF0 ∧ decodeByte cfg b p = { p with dec := { p.dec with brk := true } }) ∨
      decodeByte cfg b p = decodeScanCode cfg b p)) := by
  generalize hq : decodeByte cfg b p = q
  unfold decodeByte at hq
  by_cases h0 : b = 0xFF
  · rw [if_pos h0] at hq; exact .inl ⟨h0, hq.symm⟩
  rw [if_neg h0] at hq
  by_cases h1 : b = 0x00
  · rw [if_pos h1] at hq; exact .inr (.inl ⟨h1, hq.symm⟩)
  rw [if_neg h1] at hq
  by_cases h2 : b = 0xAA ∨ b = 0xFC
  · rw [if_pos h2] at hq; exact .inr (.inr (.inl ⟨h2, hq.symm⟩))
  rw [if_neg h2] at hq
  by_cases h3 : b = 0xFA
  · rw [if_pos h3] at hq; exact .inr (.inr (.inr (.inl ⟨h3, hq.symm⟩)))
  rw [if_neg h3] at hq
  by_cases h4 : b = 0xFE
  · rw [if_pos h4] at hq; exact .inr (.inr (.inr (.inr (.inl ⟨h4, hq.symm⟩))))
  rw [if_neg h4] at hq
  by_cases h5 : b = 0xEE
  · rw [if_pos h5] at hq; exact .inr (.inr (.inr (.inr (.inr (.inl ⟨h5, hq.symm⟩)))))
  rw [if_neg h5] at hq
  by_cases h6 : p.dec.e1Rem ≠ 0
  · rw [if_pos h6] at hq; exact .inr (.inr (.inr (.inr (.inr (.inr (.inl ⟨h1, h6, hq.symm⟩))))))
  rw [if_neg h6] at hq
  rw [not_not] at h6
  by_cases h7 : p.dec.expected ≠ 0
  · rw [if_pos h7] at hq; exact .inr (.inr (.inr (.inr (.inr (.inr (.inr (.inl ⟨h1, h6, h7, hq.symm⟩)))))))
  rw [if_neg h7] at hq
  rw [not_not] at h7
  refine .inr (.inr (.inr (.inr (.inr (.inr (.inr (.inr (⟨h6, h7, ?_⟩))))))))
  by_cases h8 : b = 0xE0
  · rw [if_pos h8] at hq; exact .inl ⟨h8, hq.symm⟩
  rw [if_neg h8] at hq
  by_cases h9 : b = 0xE1
  · rw [if_pos h9] at hq; exact .inr (.inl ⟨h9, hq.symm⟩)
  rw [if_neg h9] at hq
  by_cases h10 : b = 0xF0
  · rw [if_pos h10] at hq; exact .inr (.inr (.inl ⟨h10, hq.symm⟩))
  rw [if_neg h10] at hq
  exact .inr (.inr (.inr hq.symm))

/-- What no received byte changes: the decoder touches its own mode, the raw ring, the outbound queue and
the immediate slot, and nothing else of the unit. -/
structure DecoderKeeps (p q : Ps2) : Prop where
  irqEn : q.irqEn = p.irqEn
  noBreaks : q.noBreaks = p.noBreaks
  noRepeats : q.noRepeats = p.noRepeats
  rx : q.rx = p.rx
  line : q.line = p.line
  evt : q.evt = p.evt
  ks : q.ks = p.ks
  lockMask : q.lockMask = p.lockMask
  lockHeld : q.lockHeld = p.lockHeld
  phase : q.tx.phase = p.tx.phase
  byte : q.tx.byte = p.tx.byte
  k : q.tx.k = p.tx.k
  ack : q.tx.ack = p.tx.ack
  lastSent : q.tx.lastSent = p.tx.lastSent
  txq : q.txq = p.txq ∨ q.txq = []

theorem decodeEcho_keeps (cfg : Config.Params) (p : Ps2) : DecoderKeeps p (decodeEcho cfg p) := by
  simp only [decodeEcho]; split <;> constructor <;> simp

theorem decodePause_keeps (cfg : Config.Params) (b : Byte) (p : Ps2) :
    DecoderKeeps p (decodePause cfg b p) := by
  simp only [decodePause]; split <;> constructor <;> simp

theorem decodeResponse_keeps (cfg : Config.Params) (b : Byte) (p : Ps2) :
    DecoderKeeps p (decodeResponse cfg b p) := by
  simp only [decodeResponse]; constructor <;> simp

theorem decodeScanCode_keeps (cfg : Config.Params) (b : Byte) (p : Ps2) :
    DecoderKeeps p (decodeScanCode cfg b p) := by
  simp only [decodeScanCode]; constructor <;> simp

theorem decodeByte_keeps (cfg : Config.Params) (b : Byte) (p : Ps2) :
    DecoderKeeps p (decodeByte cfg b p) := by
  obtain ⟨-, h⟩ | ⟨-, h⟩ | ⟨-, h⟩ | ⟨-, h⟩ | ⟨-, h⟩ | ⟨-, h⟩ | ⟨-, -, h⟩ | ⟨-, -, -, h⟩ |
    ⟨-, -, ⟨-, h⟩ | ⟨-, h⟩ | ⟨-, h⟩ | h⟩ := decodeByte_cases cfg b p <;> rw [h]
  · constructor <;> simp
  · constructor <;> simp
  · constructor <;> simp
  · constructor <;> simp
  · split <;> constructor <;> simp
  · exact decodeEcho_keeps cfg p
  · exact decodePause_keeps cfg b p
  · exact decodeResponse_keeps cfg b p
  · constructor <;> simp
  · constructor <;> simp
  · constructor <;> simp
  · exact decodeScanCode_keeps cfg b p

/-- The raw ring of `q` is that of `p`, or has one entry more at its tail, which fits. -/
def RawAppends (cfg : Config.Params) (p q : Ps2) : Prop :=
  q.raw = p.raw ∨ ∃ e, q.raw = p.raw ++ [e] ∧ p.raw.length + 1 ≤ cfg.rawCap

theorem rawAppends_save {cfg : Config.Params} {p r : Ps2} (e : RawEntry) (q : Ps2)
    (hq : q.raw = p.raw) (hr : r.raw = (save cfg e q).raw) : RawAppends cfg p r := by
  obtain ⟨hl, h⟩ | ⟨-, d, h⟩ := save_cases cfg e q
  · exact .inr ⟨e, by rw [hr, h, ← hq], by rwa [← hq]⟩
  · exact .inl (by rw [hr, h]; exact hq)

theorem decodeByte_rawAppends (cfg : Config.Params) (b : Byte) (p : Ps2) :
    RawAppends cfg p (decodeByte cfg b p) := by
  obtain ⟨-, h⟩ | ⟨-, h⟩ | ⟨-, h⟩ | ⟨-, h⟩ | ⟨-, h⟩ | ⟨-, h⟩ | ⟨-, -, h⟩ | ⟨-, -, -, h⟩ |
    ⟨-, -, ⟨-, h⟩ | ⟨-, h⟩ | ⟨-, h⟩ | h⟩ := decodeByte_cases cfg b p <;> rw [h]
  · exact rawAppends_save (respEntry 0xFF) (hardReset p) rfl rfl
  · exact .inl rfl
  · exact rawAppends_save (respEntry b) { p with dec := { p.dec with expected := 0 } } rfl rfl
  · exact .inl rfl
  · split <;> exact .inl rfl
  · simp only [decodeEcho]; split <;> exact rawAppends_save (respEntry 0xEE) p rfl rfl
  · simp only [decodePause]; split
    · exact rawAppends_save (pauseEntry b) { p with dec := { p.dec with e1Rem := p.dec.e1Rem - 1 } }
        rfl rfl
    · exact .inl rfl
  · exact rawAppends_save (respEntry b) p rfl rfl
  · exact .inl rfl
  · exact .inl rfl
  · exact .inl rfl
  · exact rawAppends_save (keyEntry b p.dec.e0 p.dec.brk) p rfl rfl

/-! ### The sequencer -/

theorem txStartEnabled_iff (p : Ps2) : txStartEnabled p = true ↔
    p.irqEn = true ∧ p.tx.phase = .idle ∧ p.rx.n = 0 ∧
      (p.tx.immValid = true ∨ (p.txq ≠ [] ∧ p.dec.expected = 0)) := by
  simp [txStartEnabled, and_assoc]

/-- TX_START waits for its guard, sends the immediate byte, or takes the queue's head command with its
placeholders (R216, R217). -/
theorem stepTxStart_cases (p : Ps2) :
    stepTxStart p = p ∨
    (txStartEnabled p = true ∧
      ((p.tx.immValid = true ∧ stepTxStart p =
        beginTransmission p.tx.immByte { p with tx := { p.tx with immValid := false } }) ∨
      ∃ b rest, p.tx.immValid = false ∧ p.txq = .cmd b :: rest ∧ stepTxStart p =
        beginTransmission b { p with
          txq := rest.dropWhile isIgn
          dec := { p.dec with expected := BitVec.ofNat 8 (rest.takeWhile isIgn).length } })) := by
  by_cases hg : txStartEnabled p = true
  · by_cases hi : p.tx.immValid = true
    · exact .inr ⟨hg, .inl ⟨hi, by simp [stepTxStart, hg, txStart, hi]⟩⟩
    · cases hq : p.txq with
      | nil => exact .inl (by simp [stepTxStart, hg, txStart, hi, hq])
      | cons i rest =>
        cases i with
        | ign => exact .inl (by simp [stepTxStart, hg, txStart, hi, hq])
        | cmd b =>
          exact .inr ⟨hg, .inr ⟨b, rest, by simpa using hi, rfl, by
            simp [stepTxStart, hg, txStart, hi, hq]⟩⟩
  · exact .inl (by simp [stepTxStart, hg])

theorem stepTxInhibit_cases (p : Ps2) :
    stepTxInhibit p = p ∨
    (p.irqEn = true ∧ p.tx.phase = .prep ∧ stepTxInhibit p =
      { p with line := { p.line with clkDrvLow := true }, tx := { p.tx with phase := .inhibit } }) := by
  by_cases h : p.irqEn = true ∧ p.tx.phase = .prep
  · exact .inr ⟨h.1, h.2, by simp [stepTxInhibit, h.1, h.2]⟩
  · exact .inl (by simp [stepTxInhibit]; tauto)

theorem stepTxRelease_cases (p : Ps2) :
    stepTxRelease p = p ∨
    (p.irqEn = true ∧ p.tx.phase = .inhibit ∧ stepTxRelease p =
      { p with
        line := { dataDrvLow := true, clkDrvLow := false }
        tx := { p.tx with k := 0, phase := .shift } }) := by
  by_cases h : p.irqEn = true ∧ p.tx.phase = .inhibit
  · exact .inr ⟨h.1, h.2, by simp [stepTxRelease, h.1, h.2]⟩
  · exact .inl (by simp [stepTxRelease]; tauto)

/-- An edge of a transmission counts and presents one level, or ends it (R220, R222, R224). -/
theorem txEdge_cases (d : Bool) (p : Ps2) :
    (p.tx.k < 10 ∧ ∃ v, txEdge d p =
      { p with line := { p.line with dataDrvLow := v }, tx := { p.tx with k := p.tx.k + 1 } }) ∨
    (10 ≤ p.tx.k ∧
      txEdge d p = txComplete { p with tx := { p.tx with k := p.tx.k + 1, ack := !d } }) := by
  by_cases h1 : p.tx.k + 1 ≤ 8
  · exact .inl ⟨by omega, _, by simp only [txEdge, if_pos h1]; rfl⟩
  · by_cases h2 : p.tx.k + 1 = 9
    · exact .inl ⟨by omega, _, by simp only [txEdge, if_neg h1, if_pos h2]; rfl⟩
    · by_cases h3 : p.tx.k + 1 = 10
      · exact .inl ⟨by omega, _, by simp only [txEdge, if_neg h1, if_neg h2, if_pos h3]; rfl⟩
      · exact .inr ⟨by omega, by simp only [txEdge, if_neg h1, if_neg h2, if_neg h3]⟩

/-! ### The receive frame machine -/

/-- The watchdog records the time, and at most clears the frame state and marks a dropped frame (R153). -/
theorem rxWatchdog_cases (t : BitVec 32) (p : Ps2) :
    (t - p.rx.lastMs < watchdogMs ∧ rxWatchdog t p = { p with rx := { p.rx with lastMs := t } }) ∨
    (watchdogMs ≤ t - p.rx.lastMs ∧ rxWatchdog t p = { p with rx :=
      { n := 0, sr := 0, par := false, perr := false, lastMs := t,
        status := if p.rx.n ≠ 0 then .timeoutResync else p.rx.status } }) := by
  by_cases h : watchdogMs ≤ t - p.rx.lastMs
  · refine .inr ⟨h, ?_⟩
    simp only [rxWatchdog, if_pos h, rxClear]
    split <;> rfl
  · exact .inl ⟨BitVec.not_le.1 h, by simp only [rxWatchdog, if_neg h]⟩

/-- Which rule takes the bit that makes the count `p.rx.n` (R154): the count decides, and one outside
1..11 is taken as the last. -/
theorem rxBit_cases (cfg : Config.Params) (d : Bool) (p : Ps2) :
    (p.rx.n = 1 ∧ rxBit cfg d p = rxStartBit d p) ∨
    (2 ≤ p.rx.n.toNat ∧ p.rx.n.toNat ≤ 9 ∧ rxBit cfg d p = rxDataBit d p) ∨
    (p.rx.n = 10 ∧ rxBit cfg d p = rxParityBit d p) ∨
    ((p.rx.n = 0 ∨ 11 ≤ p.rx.n.toNat) ∧ rxBit cfg d p = rxStopBit cfg p) := by
  unfold rxBit
  split
  · exact .inl ⟨‹_›, rfl⟩
  · split
    · exact .inr (.inl ⟨by bv_omega, by bv_omega, rfl⟩)
    · split
      · exact .inr (.inr (.inl ⟨‹_›, rfl⟩))
      · exact .inr (.inr (.inr ⟨by bv_omega, rfl⟩))

/-- The count with one more bit in, while a frame is still open (R154). -/
theorem rxCount_succ {n : BitVec 4} (h : n.toNat ≤ 10) : (n + 1).toNat = n.toNat + 1 := by
  bv_omega

/-- A falling edge goes to the transmission in SHIFT, to the frame machine in IDLE, and nowhere in the two
phases between or with the interrupt off (R151, R152). -/
theorem busFall_cases (cfg : Config.Params) (d : Bool) (t : BitVec 32) (p : Ps2) :
    busFall cfg d t p = p ∨
    (p.irqEn = true ∧ p.tx.phase = .shift ∧ busFall cfg d t p = txEdge (dataLevel d p) p) ∨
    (p.irqEn = true ∧ p.tx.phase = .idle ∧
      busFall cfg d t p = rxFall cfg (dataLevel d p) t p) := by
  cases hi : p.irqEn <;> cases hp : p.tx.phase <;> simp [busFall, fallingEdge, hi, hp]

end Sys2Proof.Machine
end

