-- ==== Sys2Proof/Laws/Translate.lean ====
section
/-! SUPPORT. What translating one entry can do, and the one induction over the raw ring that every property
of `translate` rests on (R190). -/

namespace Sys2Proof.Machine

/-! ### Events -/

theorem keyEvent_setWidth (brk : Bool) (ks : Modifiers) (mask : BitVec 4) (code : KeyCode) :
    (keyEvent brk ks mask code).setWidth 8 = code := by
  apply BitVec.eq_of_getLsbD_eq
  intro i hi
  have h := BitVec.getLsbD_append (x := keyStatus brk ks mask code) (y := code) (i := i)
  simpa [keyEvent, hi] using h

/-- No event of a key is 0x0000 (R105). -/
theorem keyEvent_ne_zero (brk : Bool) (ks : Modifiers) (mask : BitVec 4) (code : KeyCode)
    (h : code ≠ 0) : keyEvent brk ks mask code ≠ 0 := by
  intro h0
  have h1 := keyEvent_setWidth brk ks mask code
  rw [h0] at h1
  exact h h1.symm

/-- The event of a response is 0x0000 only for the byte 0x00 (R191). -/
theorem responseEvent_ne_zero (b : Byte) (h : b ≠ 0) : responseEvent b ≠ 0 := by
  intro h0
  apply h
  have h1 : (responseEvent b).setWidth 8 = b := by
    apply BitVec.eq_of_getLsbD_eq
    intro i hi
    simp [responseEvent]
  rw [← h1, h0]; rfl

/-! ### One entry -/

/-- What consuming an entry leaves alone, and what it may queue: at most one LED sequence, which fits. -/
structure EntryKeeps (cfg : Config.Params) (p q : Ps2) : Prop where
  irqEn : q.irqEn = p.irqEn
  noBreaks : q.noBreaks = p.noBreaks
  noRepeats : q.noRepeats = p.noRepeats
  rx : q.rx = p.rx
  dec : q.dec = p.dec
  tx : q.tx = p.tx
  line : q.line = p.line
  raw : q.raw = p.raw
  rawDrops : q.rawDrops = p.rawDrops
  evt : q.evt = p.evt
  txq : q.txq = p.txq ∨
    ∃ mask, q.txq = p.txq ++ ledSequence mask ∧ p.txq.length + 4 ≤ cfg.txqCap

/-- A translation is a stall, or consumes its entry within `EntryKeeps`; its event is no 0x0000 but for a
response of byte 0x00. -/
inductive GoodTranslation (cfg : Config.Params) (e : RawEntry) (p : Ps2) : Translated → Prop where
  | stall : cfg.txqCap < p.txq.length + 4 → GoodTranslation cfg e p .stall
  | ignore (q : Ps2) : EntryKeeps cfg p q → GoodTranslation cfg e p (.ignore q)
  | event (ev : KeyEvent) (q : Ps2) : EntryKeeps cfg p q → (e.resp = true ∧ e.byte = 0 ∨ ev ≠ 0) →
      GoodTranslation cfg e p (.event ev q)

theorem emitBreak_good (cfg : Config.Params) (e : RawEntry) (code : KeyCode) (p q : Ps2)
    (hq : EntryKeeps cfg p q) (hc : code ≠ 0) : GoodTranslation cfg e p (emitBreak code q) := by
  simp only [emitBreak]
  split
  · exact .ignore q hq
  · exact .event _ q hq (.inr (keyEvent_ne_zero _ _ _ _ hc))

theorem emit_good (cfg : Config.Params) (e : RawEntry) (brk : Bool) (code : KeyCode) (p q : Ps2)
    (hq : EntryKeeps cfg p q) (hc : code ≠ 0) : GoodTranslation cfg e p (emit brk code q) :=
  .event _ q hq (.inr (keyEvent_ne_zero _ _ _ _ hc))

theorem EntryKeeps.same (cfg : Config.Params) (p : Ps2) : EntryKeeps cfg p p := by
  constructor <;> simp

theorem translateLock_good (cfg : Config.Params) (e : RawEntry) (k : LockKey) (code : KeyCode)
    (brk : Bool) (p : Ps2) (hc : code ≠ 0) :
    GoodTranslation cfg e p (translateLock cfg k code brk p) := by
  simp only [translateLock]
  split
  · exact emitBreak_good cfg e code p _ (by constructor <;> simp) hc
  · split
    · split
      · exact .ignore p (.same cfg p)
      · exact emit_good cfg e false code p p (.same cfg p) hc
    · split
      · rename_i h
        have fits := (txFits_iff _ _ _).1 h
        refine emit_good cfg e false code p _ ?_ hc
        constructor
        case txq => exact .inr ⟨_, rfl, fits⟩
        all_goals rfl
      · rename_i h
        have full := mt (txFits_iff _ _ _).2 h
        exact .stall (by simp [ledSequence] at full; omega)

theorem translateModifier_good (cfg : Config.Params) (e : RawEntry) (m : ModKey) (code : KeyCode)
    (brk : Bool) (p : Ps2) (hc : code ≠ 0) :
    GoodTranslation cfg e p (translateModifier m code brk p) := by
  simp only [translateModifier]
  split
  · exact emitBreak_good cfg e code p _ (by constructor <;> simp) hc
  · split
    · exact .ignore p (.same cfg p)
    · exact emit_good cfg e false code p _ (by constructor <;> simp) hc

theorem translatePlain_good (cfg : Config.Params) (e : RawEntry) (code : KeyCode) (brk : Bool)
    (p : Ps2) : GoodTranslation cfg e p (translatePlain cfg code brk p) := by
  simp only [translatePlain]
  split
  · exact .ignore p (.same cfg p)
  · split
    · exact emitBreak_good cfg e _ p p (.same cfg p) ‹_›
    · exact emit_good cfg e false _ p p (.same cfg p) ‹_›

/-- Everything the translation of one entry can do (R202). -/
theorem translateOne_good (cfg : Config.Params) (e : RawEntry) (p : Ps2) :
    GoodTranslation cfg e p (translateOne cfg e p) := by
  simp only [translateOne]
  split
  · refine .event _ p (.same cfg p) ?_
    by_cases h : e.byte = 0
    · exact .inl ⟨‹_›, h⟩
    · exact .inr (responseEvent_ne_zero _ h)
  · split
    · exact .ignore p (.same cfg p)
    · split
      · exact translateLock_good cfg e _ _ _ p ‹_›
      · split
        · exact translateModifier_good cfg e _ _ _ p ‹_›
        · exact translatePlain_good cfg e _ _ p

/-! ### The raw ring -/

/-- What every consumed entry keeps and the raw ring has no part in, translation keeps. -/
theorem translateEntries_induct {P : Ps2 → Prop} (cfg : Config.Params)
    (rawFree : ∀ p r, P p → P { p with raw := r })
    (ignored : ∀ e p q, EntryKeeps cfg p q → translateOne cfg e p = .ignore q → P p → P q)
    (emitted : ∀ e p ev q, EntryKeeps cfg p q → (e.resp = true ∧ e.byte = 0 ∨ ev ≠ 0) →
      p.evt.length + 1 ≤ cfg.evtCap → translateOne cfg e p = .event ev q → P p →
      P { q with evt := q.evt ++ [ev] })
    (entries : List RawEntry) (p : Ps2) (hp : P p) : P (translateEntries cfg entries p) := by
  induction entries generalizing p with
  | nil => exact rawFree p [] hp
  | cons e rest ih =>
    simp only [translateEntries]
    split
    · rename_i room
      have good := translateOne_good cfg e p
      split
      · exact rawFree p _ hp
      · rename_i q heq
        rw [heq] at good
        cases good with
        | ignore _ keeps => exact ih q (ignored e p q keeps heq hp)
      · rename_i ev q heq
        rw [heq] at good
        cases good with
        | event _ _ keeps nz =>
          exact ih _ (emitted e p ev q keeps nz ((hasRoom_iff _ _ _).1 room) heq hp)
    · exact rawFree p _ hp

/-- The translation `t` with the raw ring of its state replaced by `r`. -/
def Translated.withRaw (r : List RawEntry) (t : Translated) : Translated :=
  match t with
  | .stall => .stall
  | .ignore p => .ignore { p with raw := r }
  | .event ev p => .event ev { p with raw := r }

theorem emitBreak_withRaw (code : KeyCode) (p : Ps2) (r : List RawEntry) :
    emitBreak code { p with raw := r } = (emitBreak code p).withRaw r := by
  simp only [emitBreak]
  split <;> rfl

theorem translateLock_withRaw (cfg : Config.Params) (k : LockKey) (code : KeyCode) (brk : Bool) (p : Ps2)
    (r : List RawEntry) :
    translateLock cfg k code brk { p with raw := r } = (translateLock cfg k code brk p).withRaw r := by
  have fits (items : List TxItem) : txFits cfg items { p with raw := r } = txFits cfg items p := rfl
  simp only [translateLock, fits]
  split
  · exact emitBreak_withRaw code { p with lockHeld := setHeld k false p.lockHeld } r
  · split <;> split <;> rfl

theorem translateModifier_withRaw (m : ModKey) (code : KeyCode) (brk : Bool) (p : Ps2)
    (r : List RawEntry) :
    translateModifier m code brk { p with raw := r } = (translateModifier m code brk p).withRaw r := by
  simp only [translateModifier]
  split
  · exact emitBreak_withRaw code { p with ks := setMod m false p.ks } r
  · split <;> rfl

theorem translatePlain_withRaw (cfg : Config.Params) (code : KeyCode) (brk : Bool) (p : Ps2)
    (r : List RawEntry) :
    translatePlain cfg code brk { p with raw := r } = (translatePlain cfg code brk p).withRaw r := by
  have code' : remapKeypad cfg code { p with raw := r } = remapKeypad cfg code p := rfl
  simp only [translatePlain, code']
  split
  · rfl
  · split
    · exact emitBreak_withRaw _ p r
    · rfl

/-- Translating an entry neither reads nor writes the raw ring: popping the entry is `translate`'s part. -/
theorem translateOne_withRaw (cfg : Config.Params) (e : RawEntry) (p : Ps2) (r : List RawEntry) :
    translateOne cfg e { p with raw := r } = (translateOne cfg e p).withRaw r := by
  simp only [translateOne]
  split
  · rfl
  · split
    · rfl
    · split
      · exact translateLock_withRaw cfg _ _ _ p r
      · split
        · exact translateModifier_withRaw _ _ _ p r
        · exact translatePlain_withRaw cfg _ _ p r

/-- Nor do the passes over given entries read it. -/
theorem translateEntries_withRaw (cfg : Config.Params) (entries : List RawEntry) (p : Ps2)
    (r : List RawEntry) :
    translateEntries cfg entries { p with raw := r } = translateEntries cfg entries p := by
  induction entries generalizing p with
  | nil => rfl
  | cons e rest ih =>
    simp only [translateEntries, translateOne_withRaw]
    split
    · cases translateOne cfg e p with
      | stall => rfl
      | ignore q => exact ih q
      | event ev q => exact ih { q with evt := q.evt ++ [ev] }
    · rfl

/-! ### Key codes of the constants (R106 (a): distinct and nonzero) -/

theorem lockKeyOf_lockCode (cfg : Config.Params) (h : cfg.ConstantsValid) (k : LockKey) :
    lockKeyOf cfg (lockCode cfg k) = some k ∧ lockCode cfg k ≠ 0 := by
  obtain ⟨h1, h2, -⟩ := h
  simp only [Config.Params.constants, List.cons_append, List.nodup_cons, List.mem_cons, not_or,
    List.all_cons, Bool.and_eq_true, bne_iff_ne] at h1 h2
  cases k <;> simp only [lockKeyOf, lockCode] <;> grind

theorem modKeyOf_modCodes (cfg : Config.Params) (h : cfg.ConstantsValid) (m : ModKey) (c : KeyCode)
    (hc : c ∈ modCodes cfg m) : lockKeyOf cfg c = none ∧ modKeyOf cfg c = some m ∧ c ≠ 0 := by
  obtain ⟨h1, h2, -⟩ := h
  simp only [Config.Params.constants, List.cons_append, List.nodup_cons, List.mem_cons, not_or,
    List.all_cons, Bool.and_eq_true, bne_iff_ne] at h1 h2
  cases m <;> simp only [modCodes, List.mem_cons, List.not_mem_nil, or_false] at hc <;>
    simp only [lockKeyOf, modKeyOf] <;> grind

end Sys2Proof.Machine
end

