-- ==== Sys2Proof/Laws/Step.lean ====
section
/-! SUPPORT. What a step, an exchange and a command can do: the cases every invariant goes through. -/

namespace Sys2Proof.Machine

open Host (Outcome)

/-! ### A step -/

/-- A step waits, or takes the oldest pending step of the agents. -/
theorem step_cases {s t : State} (h : step s = .next t) :
    (s.inputs = [] ∧ t = s) ∨
    ∃ a rest, s.inputs = a :: rest ∧ deliver a { s with inputs := rest } = .next t := by
  simp only [step, takeStep] at h
  cases hi : s.inputs with
  | nil => rw [hi] at h; cases h; exact .inl ⟨rfl, rfl⟩
  | cons a rest => rw [hi] at h; exact .inr ⟨a, rest, rfl, h⟩

/-- An agent's step is a command exchange or one of the five steps that touch the PS/2 unit alone. -/
theorem deliver_cases {a : AgentStep} {s t : State} (h : deliver a s = .next t) :
    (∃ packet, a = .command packet ∧ exchange packet s = .next t) ∨
    (∃ d ms, a = .fall d ms ∧ t = { s with ps2 := busFall s.cfg d ms s.ps2 }) ∨
    (a = .rise ∧ t = s) ∨
    (a = .txStart ∧ t = { s with ps2 := stepTxStart s.ps2 }) ∨
    (a = .txInhibit ∧ t = { s with ps2 := stepTxInhibit s.ps2 }) ∨
    (a = .txRelease ∧ t = { s with ps2 := stepTxRelease s.ps2 }) := by
  cases a with
  | command packet => exact .inl ⟨packet, rfl, h⟩
  | fall d ms => cases h; exact .inr (.inl ⟨d, ms, rfl, rfl⟩)
  | rise => cases h; exact .inr (.inr (.inl ⟨rfl, rfl⟩))
  | txStart => cases h; exact .inr (.inr (.inr (.inl ⟨rfl, rfl⟩)))
  | txInhibit => cases h; exact .inr (.inr (.inr (.inr (.inl ⟨rfl, rfl⟩))))
  | txRelease => cases h; exact .inr (.inr (.inr (.inr (.inr ⟨rfl, rfl⟩))))

/-- A run takes the oldest pending step and goes on from the state it leaves. -/
theorem run_succ_of_deliver {s s' : State} {a : AgentStep} {rest : List AgentStep} (n : Nat)
    (hi : s.inputs = a :: rest) (h : deliver a { s with inputs := rest } = .next s') :
    Host.Core.run Sys2Proof.core (n + 1) s = Host.Core.run Sys2Proof.core n s' := by
  have hs : Sys2Proof.core.step s = .next s' := by
    change takeStep s = _
    simp only [takeStep, hi, h]; rfl
  simp only [Host.Core.run, hs]

/-- An exchange runs the command its packet decodes to, or answers IllegalCommand (R89). -/
theorem exchange_cases {packet : List Byte} {s : State} {o : Outcome State Fault Refusal}
    (h : exchange packet s = o) :
    (∃ i, decode packet = .ok i ∧ exec i s = o) ∨
    ((∃ e, decode packet = .error e) ∧ o = .next (respond .illegalCommand [] s)) := by
  unfold exchange at h
  cases hd : decode packet with
  | ok i => rw [hd] at h; exact .inl ⟨i, rfl, h⟩
  | error e => rw [hd] at h; exact .inr ⟨⟨e, rfl⟩, h.symm⟩

/-! ### A command -/

/-- The seven sequences of R98. -/
inductive IsSequence : List TxItem → Prop where
  | led (mask : Byte) : IsSequence (ledSequence mask)
  | echo : IsSequence echoSequence
  | readId : IsSequence readIdSequence
  | getScancodeSet : IsSequence getScancodeSetSequence
  | typematic (p : Byte) : IsSequence (typematicSequence p)
  | reset : IsSequence resetSequence

/-- What a command that answers OK can have done to the state, its response aside. -/
inductive CommandEffect (s : State) : State → Prop where
  | none : CommandEffect s s
  | configure (n1 n2 n3 : RotorNo) (f : ReflectorNo) (o1 o2 o3 : Letter) :
      CommandEffect s { s with eng := configure s.eng n1 n2 n3 f o1 o2 o3 }
  | plugboard (pb : Vector Letter 26) : (∀ c : Letter, pb[pb[c]] = c) →
      CommandEffect s { s with eng := { s.eng with pb := pb } }
  | keystroke : s.eng.configured = true → CommandEffect s { s with eng := stepEngine s.eng }
  | init : CommandEffect s { s with ps2 := Ps2.reset }
  | irq (v : Bool) : CommandEffect s { s with ps2 := { s.ps2 with irqEn := v } }
  | noBreaks (v : Bool) : CommandEffect s { s with ps2 := { s.ps2 with noBreaks := v } }
  | noRepeats (v : Bool) : CommandEffect s { s with ps2 := { s.ps2 with noRepeats := v } }
  | translate : CommandEffect s { s with ps2 := translate s.cfg s.ps2 }
  | pop (ev : KeyEvent) (rest : List KeyEvent) : (translate s.cfg s.ps2).evt = ev :: rest →
      CommandEffect s { s with ps2 := { translate s.cfg s.ps2 with evt := rest } }
  | queue (items : List TxItem) : IsSequence items →
      s.ps2.txq.length + items.length ≤ s.cfg.txqCap →
      CommandEffect s { s with ps2 := pushTx items s.ps2 }
  | lock (mask : Byte) (m : BitVec 4) : s.ps2.txq.length + 4 ≤ s.cfg.txqCap →
      CommandEffect s { s with ps2 := pushTx (ledSequence mask) { s.ps2 with lockMask := m } }

/-- A command refuses with the status byte alone (R261), or answers OK after one effect, or faults. -/
inductive CommandOutcome (i : Instr) (s : State) : Outcome State Fault Refusal → Prop where
  | refused (st : Status) : st ≠ .ok → CommandOutcome i s (.next (respond st [] s))
  | answered (data : List Byte) (t : State) : CommandEffect s t →
      CommandOutcome i s (.next (respond .ok data t))
  | fault (ch : Byte) : i = .engEncrypt ch → s.eng.configured = true →
      CommandOutcome i s (.fault (.encryptNonLetter ch))

theorem queueSequence_outcome (i : Instr) (items : List TxItem) (s : State) (h : IsSequence items) :
    CommandOutcome i s (queueSequence items s) := by
  obtain ⟨fits, hq⟩ | ⟨-, hq⟩ := queueSequence_cases items s <;> rw [hq]
  · exact .answered [] _ (.queue items h fits)
  · exact .refused _ (by decide)

/-- Everything a command can do. -/
theorem exec_outcome (i : Instr) (s : State) : CommandOutcome i s (exec i s) := by
  cases i with
  | engInit rot1 rot2 rot3 refl off1 off2 off3 =>
    simp only [exec]
    obtain ⟨st, h, hst⟩ | ⟨n1, n2, n3, f, o1, o2, o3, h⟩ :=
      execEngInit_cases rot1 rot2 rot3 refl off1 off2 off3 s <;> rw [h]
    · exact .refused st (by rintro rfl; simp at hst)
    · exact .answered [] _ (.configure n1 n2 n3 f o1 o2 o3)
  | engSetPlugboard p =>
    simp only [exec]
    obtain h | ⟨pb, hpb, h⟩ := execEngSetPlugboard_cases p s <;> rw [h]
    · exact .refused _ (by decide)
    · exact .answered [] _ (.plugboard pb hpb)
  | engEncrypt ch =>
    simp only [exec, execEngEncrypt]
    split
    · split
      · exact .answered _ _ (.keystroke ‹_›)
      · exact .fault ch rfl ‹_›
    · exact .refused _ (by decide)
  | engRotorOffset n =>
    simp only [exec]
    obtain ⟨st, h, hst⟩ | ⟨b, h⟩ := execEngRotorOffset_cases n s <;> rw [h]
    · exact .refused st (by rintro rfl; simp at hst)
    · exact .answered _ _ .none
  | ps2Init => exact .answered [] _ .init
  | ps2EnableIrq => exact .answered [] _ (.irq true)
  | ps2DisableIrq => exact .answered [] _ (.irq false)
  | ps2Available => exact .answered _ _ .translate
  | ps2Read =>
    simp only [exec, execPs2Read]
    split
    · exact .answered _ _ .translate
    · exact .answered _ _ (.pop _ _ ‹_›)
  | ps2GetLock => exact .answered _ _ .none
  | ps2SetLock mask =>
    simp only [exec, execPs2SetLock]
    split
    · exact .refused _ (by decide)
    · rename_i m _
      split
      · rename_i fits
        exact .answered [] _ (.lock mask m ((txFits_iff _ _ _).1 fits))
      · exact .refused _ (by decide)
  | ps2SetNoBreaks flag =>
    simp only [exec, execPs2SetNoBreaks]
    split
    · exact .answered [] _ (.noBreaks _)
    · exact .refused _ (by decide)
  | ps2SetNoRepeats flag =>
    simp only [exec, execPs2SetNoRepeats]
    split
    · exact .answered [] _ (.noRepeats _)
    · exact .refused _ (by decide)
  | ps2Echo => exact queueSequence_outcome _ _ _ .echo
  | ps2ReadId => exact queueSequence_outcome _ _ _ .readId
  | ps2GetScancodeSet => exact queueSequence_outcome _ _ _ .getScancodeSet
  | ps2Typematic rate delay =>
    simp only [exec, execPs2Typematic]
    split
    · exact queueSequence_outcome _ _ _ (.typematic _)
    · exact .refused _ (by decide)
  | ps2Reset => exact queueSequence_outcome _ _ _ .reset

/-- The form of a command's next state. -/
theorem exec_next {i : Instr} {s t : State} (h : exec i s = .next t) :
    (∃ st, st ≠ .ok ∧ t = respond st [] s) ∨
    ∃ data u, CommandEffect s u ∧ t = respond .ok data u := by
  have ho := exec_outcome i s
  rw [h] at ho
  cases ho with
  | refused st hst => exact .inl ⟨st, hst, rfl⟩
  | answered data u hu => exact .inr ⟨data, u, hu, rfl⟩

/-! ### Invariants of the PS/2 unit -/

/-- What holds of the unit after PS2_INIT, and is kept by each of the ways a step can change the unit, is
kept by every step. -/
theorem step_keeps_unit {I : Ps2 → Prop} (reset : I Ps2.reset)
    (control : ∀ p a b c, I p → I { p with irqEn := a, noBreaks := b, noRepeats := c })
    (translate : ∀ cfg p, I p → I (translate cfg p))
    (pop : ∀ p ev rest, p.evt = ev :: rest → I p → I { p with evt := rest })
    (push : ∀ p items mask, IsSequence items → I p → I (pushTx items { p with lockMask := mask }))
    (fall : ∀ cfg d t p, I p → I (busFall cfg d t p))
    (txStart : ∀ p, I p → I (stepTxStart p))
    (txInhibit : ∀ p, I p → I (stepTxInhibit p))
    (txRelease : ∀ p, I p → I (stepTxRelease p))
    {s t : State} (hs : I s.ps2) (h : step s = .next t) : I t.ps2 := by
  obtain ⟨-, rfl⟩ | ⟨a, rest, -, hd⟩ := step_cases h
  · exact hs
  obtain ⟨packet, -, he⟩ | ⟨d, ms, -, rfl⟩ | ⟨-, rfl⟩ | ⟨-, rfl⟩ | ⟨-, rfl⟩ | ⟨-, rfl⟩ :=
    deliver_cases hd
  · obtain ⟨i, -, hx⟩ | ⟨-, ht⟩ := exchange_cases he
    · obtain ⟨st, -, rfl⟩ | ⟨data, u, hu, rfl⟩ := exec_next hx
      · exact hs
      · cases hu with
        | none => exact hs
        | configure => exact hs
        | plugboard => exact hs
        | keystroke => exact hs
        | init => exact reset
        | irq v => exact control _ _ _ _ hs
        | noBreaks v => exact control _ _ _ _ hs
        | noRepeats v => exact control _ _ _ _ hs
        | translate => exact translate _ _ hs
        | pop ev rest' hp => exact pop _ _ _ hp (translate _ _ hs)
        | queue items hi _ => exact push _ _ s.ps2.lockMask hi hs
        | lock mask m _ => exact push _ _ _ (.led mask) hs
    · cases ht; exact hs
  · exact fall _ _ _ _ hs
  · exact hs
  · exact txStart _ hs
  · exact txInhibit _ hs
  · exact txRelease _ hs

end Sys2Proof.Machine
end

