-- ==== Sys2Proof/Laws/Tables.lean ====
section
/-! SUPPORT. What 20_memory.md R60, R61 and R63 say of the tables: wirings are bijections, reflectors
involutions without a fixed letter, a turnover is the letter after a notch, and no two are adjacent. -/

namespace Sys2Proof.Machine

/-! ### Tables -/

theorem romWiring_romInverse (r : RotorNo) (y : Letter) : (romWiring r)[romInverse r y] = y := by
  revert y; cases r <;> decide

theorem romInverse_romWiring (r : RotorNo) (x : Letter) : romInverse r (romWiring r)[x] = x := by
  revert x; cases r <;> decide

theorem romReflector_involutive (f : ReflectorNo) (x : Letter) :
    (romReflector f)[(romReflector f)[x]] = x := by
  revert x; cases f <;> decide

theorem romReflector_ne (f : ReflectorNo) (x : Letter) : (romReflector f)[x] ≠ x := by
  revert x; cases f <;> decide

theorem romTurnover_eq_map_romNotch (r : RotorNo) : romTurnover r = (romNotch r).map (· + 1) := by
  cases r <;> rfl

theorem romTurnover_not_adjacent (r : RotorNo) (x : Letter) (h : x ∈ romTurnover r) :
    x + 1 ∉ romTurnover r := by
  revert x; cases r <;> decide

theorem romNotch_not_adjacent (r : RotorNo) (x : Letter) (h : x ∈ romNotch r) :
    x + 1 ∉ romNotch r := by
  revert x; cases r <;> decide

theorem romTurnover_nonempty (r : RotorNo) : ∃ x, x ∈ romTurnover r := by
  cases r <;> decide

/-! ### The rotors as maps (R127, R128) -/

theorem reverse_forward (r : Rotor) (x : Letter) : reverse r (forward r x) = x := by
  rw [reverse, forward, sub_add_cancel, romInverse_romWiring, add_sub_cancel_right]

theorem forward_reverse (r : Rotor) (x : Letter) : forward r (reverse r x) = x := by
  have h := romWiring_romInverse r.sel (x + r.off)
  simp only [forward, reverse, sub_add_cancel, h, add_sub_cancel_right]

theorem reflect_reflect (e : Engine) (x : Letter) : reflect e (reflect e x) = x :=
  romReflector_involutive e.refl x

theorem reflect_ne (e : Engine) (x : Letter) : reflect e x ≠ x := romReflector_ne e.refl x

end Sys2Proof.Machine
end

