-- ==== Sys2Proof/Tests/Slice0.lean ====
section
/-! SUPPORT. Tests of single steps against the spec's own vectors, and for each statement with hypotheses a
state that meets them. The parameters are the reference case of 93_implementation_defined.md part B. -/

namespace Sys2Proof.Tests

open Sys2Proof Sys2Proof.Machine Host

/-! ### Helpers -/

/-- The block after reset with the reference parameters. -/
def fresh : State := State.resetWith Config.reference

/-- The engine in the configuration III, II, I, reflector B at the given offsets. -/
def engineAt (o1 o2 o3 : Letter) : Engine := configure Engine.reset .III .II .I .B o1 o2 o3

/-- The fresh block with that engine. -/
def configuredAt (o1 o2 o3 : Letter) : State := { fresh with eng := engineAt o1 o2 o3 }

/-- The fresh block with its interrupt on and its unit changed by `f`. -/
def listening (f : Ps2 → Ps2) : State := { fresh with ps2 := f { Ps2.reset with irqEn := true } }

/-- The same with exactly `n` items in the outbound queue. -/
def queued (n : Nat) : State := listening fun p => { p with txq := List.replicate n (.cmd 0xED) }

/-- The same with raw entries of these scan codes. -/
def typed (codes : List Byte) : State :=
  listening fun p => { p with raw := codes.map fun b => keyEntry b false false }

/-- The state an outcome answers, if it is a next state. -/
def nextOf : Outcome State Fault Refusal → Option State
  | .next t => some t
  | .fault _ => none
  | .refused _ => none

/-- The response of an outcome, if it is a next state. -/
def responseOf (o : Outcome State Fault Refusal) : Option (List Byte) := (nextOf o).map State.response

/-- The outbound queue after an outcome. -/
def txqOf (o : Outcome State Fault Refusal) : Option (List TxItem) := (nextOf o).map fun t => t.ps2.txq

/-- The three offsets after an outcome. -/
def offsetsOf (o : Outcome State Fault Refusal) : Option (Letter × Letter × Letter) :=
  (nextOf o).map fun t => (t.eng.r1.off, t.eng.r2.off, t.eng.r3.off)

/-- The plugboard operands that exchange A and B. -/
def swapAB : List Byte := plugboardPairs [(0, 1)]

/-- The rotor unit's plugboard exchanging A and B. -/
def pbSwapAB : Vector Letter 26 := Vector.ofFn fun c => if c = 0 then 1 else if c = 1 then 0 else c

/-! ### Well-formedness and decoding -/

/-- The one check of WellFormed refuses a plugboard of another length. -/
theorem test_wellFormed_refuses :
    (Instr.engSetPlugboard []).wellFormed = false ∧
    (Instr.engSetPlugboard (List.replicate 25 0)).wellFormed = false ∧
    (Instr.engSetPlugboard (List.replicate 27 0)).wellFormed = false := by decide

/-- R134's example packet. -/
theorem test_decode_engInit :
    decode [0x01, 0x03, 0x02, 0x01, 0x01, 0x00, 0x00, 0x00] = .ok (.engInit 3 2 1 1 0 0 0) := by decide

/-- P2's packet for A exchanged with B, written out. -/
theorem test_decode_engSetPlugboard :
    decode [0x02, 1, 0, 2, 3, 4, 5, 6, 7, 8, 9, 10, 11, 12, 13, 14, 15, 16, 17, 18, 19, 20, 21, 22, 23,
      24, 25] = .ok (.engSetPlugboard swapAB) := by decide

theorem test_decode_engine :
    decode [0x03, 0x41] = .ok (.engEncrypt 0x41) ∧ decode [0x04, 0x02] = .ok (.engRotorOffset 2) := by
  decide

theorem test_decode_unit :
    decode [0x10] = .ok .ps2Init ∧ decode [0x11] = .ok .ps2EnableIrq ∧
    decode [0x12] = .ok .ps2DisableIrq ∧ decode [0x13] = .ok .ps2Available ∧
    decode [0x14] = .ok .ps2Read ∧ decode [0x15] = .ok .ps2GetLock := by decide

theorem test_decode_options :
    decode [0x16, 0x0F] = .ok (.ps2SetLock 0x0F) ∧ decode [0x17, 0x01] = .ok (.ps2SetNoBreaks 1) ∧
    decode [0x18, 0x01] = .ok (.ps2SetNoRepeats 1) := by decide

theorem test_decode_device :
    decode [0x19] = .ok .ps2Echo ∧ decode [0x1A] = .ok .ps2ReadId ∧
    decode [0x1B] = .ok .ps2GetScancodeSet ∧ decode [0x1C, 0x1F, 0x03] = .ok (.ps2Typematic 0x1F 3) ∧
    decode [0x1D] = .ok .ps2Reset := by decide

/-- 95_test_vectors.md 2.1: packets that are no command. -/
theorem test_decode_rejects :
    decode [] = .error .empty ∧ decode [0x05] = .error (.unknownOpcode 0x05) ∧
    decode [0x1E] = .error (.unknownOpcode 0x1E) ∧ decode [0x03] = .error (.wrongLength 0x03 1) ∧
    decode [0x10, 0x00] = .error (.wrongLength 0x10 2) ∧
    decode (0x02 :: List.replicate 25 0) = .error (.wrongLength 0x02 26) := by decide

/-- The opcode table's numbering: byte 0 is the least significant, absent operands are 0. -/
theorem test_decodeTableWord :
    decodeTableWord 16 0x4103 = some (.engEncrypt 0x41) ∧
    decodeTableWord 8 0x1C = some (.ps2Typematic 0 0) ∧ decodeTableWord 8 0x05 = none := by decide

/-! ### Engine commands -/

/-- 95_test_vectors.md 2.2, the maximum values. -/
theorem test_engInit_maximum :
    offsetsOf (exec (.engInit 8 8 8 2 25 25 25) fresh) = some (25, 25, 25) := by decide

/-- 95_test_vectors.md 2.2: three faults at once, then offset before reflector. -/
theorem test_engInit_order :
    responseOf (exec (.engInit 9 2 1 3 26 0 0) fresh) = some [0x01] ∧
    responseOf (exec (.engInit 3 2 1 3 26 0 0) fresh) = some [0x02] := by decide

/-- 95_test_vectors.md 2.4: p0 = p1 = 1 is no involution. -/
theorem test_engSetPlugboard_refused :
    responseOf (exec (.engSetPlugboard (swapAB.set 1 1)) fresh) = some [0x04] := by decide

/-- 95_test_vectors.md 1.1 scenario 5, as 90_conflicts.md C1 corrects it: A with A and B exchanged. -/
theorem test_engSetPlugboard_used :
    responseOf (exec (.engEncrypt 0x41)
      { fresh with eng := { engineAt 0 0 0 with pb := pbSwapAB } }) = some [0x00, 0x42] := by decide

/-- 95_test_vectors.md 1.1 scenario 1. -/
theorem test_engEncrypt_A :
    responseOf (exec (.engEncrypt 0x41) (configuredAt 0 0 0)) = some [0x00, 0x42] ∧
    offsetsOf (exec (.engEncrypt 0x41) (configuredAt 0 0 0)) = some (1, 0, 0) := by decide

/-- R139: the middle rotor advances twice. -/
theorem test_engEncrypt_double :
    offsetsOf (exec (.engEncrypt 0x61) (configuredAt 21 4 0)) = some (22, 6, 1) := by decide

/-- R138, and 95_test_vectors.md 2.5. -/
theorem test_engRotorOffset :
    responseOf (exec (.engRotorOffset 1) (configuredAt 7 25 0)) = some [0x00, 0x19] ∧
    responseOf (exec (.engRotorOffset 3) (configuredAt 0 0 0)) = some [0x05] := by decide

/-- NotConfigured is checked first. -/
theorem test_engRotorOffset_unconfigured :
    responseOf (exec (.engRotorOffset 3) fresh) = some [0x06] := by decide

/-! ### PS/2 commands -/

theorem test_ps2Init :
    (nextOf (exec .ps2Init (typed [0x1C]))).map State.ps2 = some Ps2.reset := by decide

theorem test_ps2EnableIrq :
    (nextOf (exec .ps2EnableIrq fresh)).map (fun t => t.ps2.irqEn) = some true := by decide

/-- R237: the unit freezes as it is. -/
theorem test_ps2DisableIrq :
    (nextOf (exec .ps2DisableIrq (typed [0x1C]))).map (fun t => (t.ps2.irqEn, t.ps2.raw.length)) =
      some (false, 1) := by decide

/-- 95_test_vectors.md 1.2 property 8. -/
theorem test_ps2Available_caps :
    (nextOf (exec .ps2Available (typed [0x58]))).map
      (fun t => (t.response, t.ps2.lockMask, t.ps2.txq, t.ps2.evt)) =
      some ([0x00, 0x01], 4, [.cmd 0xED, .ign, .cmd 0x04, .ign], [0x1103]) := by decide

/-- 95_test_vectors.md 2.8: Num Lock, KP0, KP., Shift, KP0. -/
theorem test_ps2Available_keypad :
    (nextOf (exec .ps2Available (typed [0x77, 0x70, 0x71, 0x12, 0x70]))).map (fun t => t.ps2.evt) =
      some [0x0101, 0x0020, 0x002A, 0x4106, 0x4119] := by decide

/-- 95_test_vectors.md 1.2 property 6, read low byte first. -/
theorem test_ps2Read_up :
    responseOf (exec .ps2Read (listening fun p => { p with raw := [keyEntry 0x75 true false] })) =
      some [0x00, 0x17, 0x01] := by decide

theorem test_ps2Read_empty : responseOf (exec .ps2Read fresh) = some [0x00, 0x00, 0x00] := by decide

theorem test_ps2GetLock :
    responseOf (exec .ps2GetLock (listening fun p => { p with lockMask := 4 })) = some [0x00, 0x04] := by
  decide

/-- 95_test_vectors.md 2.10. -/
theorem test_ps2SetLock :
    txqOf (exec (.ps2SetLock 0x0F) fresh) = some [.cmd 0xED, .ign, .cmd 0x0F, .ign] ∧
    responseOf (exec (.ps2SetLock 0x10) fresh) = some [0x05] := by decide

theorem test_ps2SetNoBreaks : responseOf (exec (.ps2SetNoBreaks 2) fresh) = some [0x05] := by decide

theorem test_ps2SetNoRepeats :
    (nextOf (exec (.ps2SetNoRepeats 1) fresh)).map (fun t => t.ps2.noRepeats) = some true := by decide

/-- R65: a full queue is refused, one with exactly the room is not. -/
theorem test_ps2Echo :
    responseOf (exec .ps2Echo (queued 14)) = some [0x00] ∧
    responseOf (exec .ps2Echo (queued 15)) = some [0x07] := by decide

/-- P5. -/
theorem test_ps2ReadId : txqOf (exec .ps2ReadId fresh) = some [.cmd 0xF2, .ign, .ign, .ign] := by decide

theorem test_ps2GetScancodeSet :
    txqOf (exec .ps2GetScancodeSet fresh) = some [.cmd 0xF0, .ign, .cmd 0x00, .ign, .ign] := by decide

/-- 95_test_vectors.md 2.10. -/
theorem test_ps2Typematic :
    txqOf (exec (.ps2Typematic 0x0B 2) fresh) = some [.cmd 0xF3, .ign, .cmd 0x4B, .ign] ∧
    responseOf (exec (.ps2Typematic 0x1F 4) fresh) = some [0x05] := by decide

theorem test_ps2Reset : txqOf (exec .ps2Reset fresh) = some [.cmd 0xFF, .ign, .ign] := by decide

/-! ### Layouts, the decoder and the line -/

/-- R104: the raw entry of an E0 75 make is 0x175, of a break 0x4xx, of a response 0x8xx. -/
theorem test_rawEntryBits :
    rawEntryBits (keyEntry 0x75 true false) = 0x175 ∧ rawEntryBits (keyEntry 0x1C false true) = 0x41C ∧
    rawEntryBits (pauseEntry 0x77) = 0x277 ∧ rawEntryBits (respEntry 0xAA) = 0x8AA := by decide

/-- R187: the Pause sequence saves one entry. -/
theorem test_decode_pause :
    (decodeAll Config.reference [0xE1, 0x14, 0x77, 0xE1, 0xF0, 0x14, 0xF0, 0x77] Ps2.reset).raw =
      [pauseEntry 0x77] := by decide

/-- 95_test_vectors.md 2.9: the levels of 0x02 and 0xF0 on edges 1 to 10. -/
theorem test_hostFrameLevel :
    (List.range 10).map (fun k => hostFrameLevel 0x02 (k + 1)) =
      [false, true, false, false, false, false, false, false, false, true] ∧
    (List.range 10).map (fun k => hostFrameLevel 0xF0 (k + 1)) =
      [false, false, false, false, true, true, true, true, true, true] := by decide

/-- 95_test_vectors.md P3: the frame of 0x58 is 00001101001. -/
theorem test_frameLevels :
    frameLevels 0x58 (oddPar 0x58) true =
      [false, false, false, false, true, true, false, true, false, false, true] := by decide

/-- 95_test_vectors.md 2.1: an unassigned opcode, as a packet of one step. -/
theorem test_step_illegal :
    (nextOf (step { fresh with inputs := [.command [0x1E]] })).map State.response = some [0x0F] := by
  decide

/-- The interface's fetch window is the very next step. -/
theorem test_withFetchWord :
    responseOf (step (fresh.withFetchWord 16 0x4103)) = some [0x06] := by decide

/-! ### Witnesses: states that meet the statements' hypotheses -/

/-- DecodeInvertsEncode: the largest packet, with its identity operands. -/
theorem witness_wellFormed :
    (Instr.engSetPlugboard swapAB).wellFormed = true ∧ (Instr.ps2Typematic 255 255).wellFormed = true := by
  decide

/-- DecodedPacketIsTheEncoding. -/
theorem witness_decoded : decode [0x16, 0xFF] = .ok (.ps2SetLock 0xFF) := by decide

/-- StepRunsTheDecodedCommand. -/
theorem witness_step_runs :
    decode [0x03, 0x41] = .ok (.engEncrypt 0x41) ∧ (Instr.engEncrypt 0x41).wellFormed = true := by decide

/-- IllegalPacketIsAnsweredAndChangesNothing: an opcode beyond the map, and lengths on both sides of
R88's. -/
theorem witness_illegal :
    ((0x1E : Byte), 1) ∉ opcodeMap ∧ ((0x01 : Byte), 7) ∉ opcodeMap ∧ ((0x01 : Byte), 9) ∉ opcodeMap ∧
    ((0x10 : Byte), 2) ∉ opcodeMap := by decide

/-- ResponsesHaveTheirShapeAndRefusalsChangeNothing: a refusal, and an OK response with two result
bytes. -/
theorem witness_shape :
    (∃ t, exchange [0x03, 0x41] fresh = .next t ∧ t.response.head? ≠ some 0x00) ∧
    ∃ t, exec .ps2Read fresh = .next t ∧ t.response.head? = some 0x00 :=
  ⟨⟨_, rfl, by decide⟩, _, rfl, by decide⟩

/-- EngInitChecksThenReplacesTheConfiguration: the operands just outside each range, and the largest
legal ones. -/
theorem witness_engInit_clauses :
    (¬ ∀ b ∈ [(0 : Byte), 1, 8], 1 ≤ b.toNat ∧ b.toNat ≤ 8) ∧
    (¬ ∀ b ∈ [(1 : Byte), 9, 8], 1 ≤ b.toNat ∧ b.toNat ≤ 8) ∧
    (∀ b ∈ [(1 : Byte), 4, 8], 1 ≤ b.toNat ∧ b.toNat ≤ 8) ∧
    (¬ ∀ b ∈ [(0 : Byte), 26, 25], b.toNat ≤ 25) ∧ (∀ b ∈ [(0 : Byte), 13, 25], b.toNat ≤ 25) ∧
    2 < (3 : Byte).toNat ∧ (2 : Byte).toNat ≤ 2 := by decide

/-- EngSetPlugboardInstallsInvolutionsOnly: a legal list, one that is no involution, one out of range.
-/
theorem witness_plugboard_clauses :
    swapAB.length = 26 ∧
    ((∀ b ∈ swapAB, b.toNat < 26) ∧ ∀ i < 26, (swapAB.getD (swapAB.getD i 0).toNat 0).toNat = i) ∧
    (¬ ∀ i < 26, ((swapAB.set 1 1).getD ((swapAB.set 1 1).getD i 0).toNat 0).toNat = i) ∧
    ¬ ∀ b ∈ swapAB.set 25 26, b.toNat < 26 := by decide

/-- EngEncryptStepsThenPermutes, EngRotorOffsetReadsTheOffset: both values of the configured bit, the
bytes beside both letter ranges and at their ends, and the index 3. -/
theorem witness_encrypt_clauses :
    (configuredAt 0 0 0).eng.configured = true ∧ fresh.eng.configured = false ∧
    (∀ b ∈ [(0x40 : Byte), 0x5B, 0x60, 0x7B], ¬ ((0x41 ≤ b.toNat ∧ b.toNat ≤ 0x5A) ∨
      (0x61 ≤ b.toNat ∧ b.toNat ≤ 0x7A))) ∧
    (∀ b ∈ [(0x41 : Byte), 0x5A, 0x61, 0x7A], (0x41 ≤ b.toNat ∧ b.toNat ≤ 0x5A) ∨
      (0x61 ≤ b.toNat ∧ b.toNat ≤ 0x7A)) ∧ 3 ≤ (3 : Byte).toNat := by decide

/-- KeystrokeMovesTheRotors and the two statements on the middle rotor: an engine about to move it
twice. -/
theorem witness_flagsClear : FlagsClear (engineAt 21 4 0) := ⟨rfl, rfl⟩

/-- EncryptNeverAnswersItsLetter, EncryptIsAnInvolutionAtAState and, for its plugboard,
PermutationIsTheReflectorSeenThroughTheRotors: A becomes B. -/
theorem witness_involution :
    PlugInvolution (configuredAt 0 0 0).eng ∧ (configuredAt 0 0 0).eng.configured = true ∧
    ∃ t, exec (.engEncrypt (BitVec.ofNat 8 (0x41 + (0 : Letter).val))) (configuredAt 0 0 0) = .next t ∧
      t.response = [0x00, BitVec.ofNat 8 (0x41 + (1 : Letter).val)] :=
  ⟨by unfold PlugInvolution; decide, rfl, _, rfl, by decide⟩

/-- SlowRotorFlagIsNeverObserved: a command that answers, and one that faults. -/
theorem witness_slowFlag :
    (∃ t, exec (.engEncrypt 0x41) (configuredAt 21 4 25) = .next t) ∧
    exec (.engEncrypt 0x31) (configuredAt 0 0 0) = .fault (.encryptNonLetter 0x31) :=
  ⟨⟨_, rfl⟩, rfl⟩

/-- UnconfiguredChoiceIsNeverObserved: two unconfigured engines with other rotors and offsets. -/
theorem witness_unconfigured : fresh.eng.configured = false ∧
    SameButConfiguration fresh
      { fresh with eng := { configure Engine.reset .VI .VII .VIII .C 25 12 1 with configured := false } } :=
  ⟨rfl, rfl⟩

/-- EngineChangesOnlyInItsCommands: a step that runs PS2_INIT on a configured engine, and one that runs
none; an engine command. -/
theorem witness_engine_frame :
    (∃ t, step { configuredAt 0 0 0 with inputs := [.command [0x10]] } = .next t) ∧
    (∃ t, step { configuredAt 0 0 0 with inputs := [.rise] } = .next t) ∧
    (decode [0x10] = .ok .ps2Init ∧ changesEngine .ps2Init = false) ∧
    ∃ t, changesEngine (.engEncrypt 0x41) = true ∧ exec (.engEncrypt 0x41) (configuredAt 0 0 0) = .next t :=
  ⟨⟨_, rfl⟩, ⟨_, rfl⟩, by decide, _, rfl, rfl⟩

/-- Ps2AvailableAnswersTheCount: an event ring that is already full. -/
theorem witness_available :
    (listening fun p => { p with evt := List.replicate 16 0x0041 }).ps2.evt.length ≤
      Config.reference.evtCap ∧ Config.reference.evtCap ≤ 255 := by decide

/-- Ps2ReadPopsTheOldestEvent: no event, and two. -/
theorem witness_read :
    (translate Config.reference fresh.ps2).evt = [] ∧
    (translate Config.reference (typed [0x1C, 0x32]).ps2).evt = 0x0041 :: [0x0042] := by decide

/-- LockCommandsReadAndWriteTheMask, DeviceCommandsQueueTheirSequenceWhole,
Ps2TypematicQueuesItsParameter: for each length a queue with exactly the room and one with one item too
many; operands at the ends. -/
theorem witness_room :
    (∀ n ∈ [2, 3, 4, 5], (queued (16 - n)).ps2.txq.length + n ≤ fresh.cfg.txqCap ∧
      fresh.cfg.txqCap < (queued (17 - n)).ps2.txq.length + n) ∧
    (15 < (16 : Byte).toNat ∧ (15 : Byte).toNat ≤ 15) ∧
    (31 < (32 : Byte).toNat ∧ (31 : Byte).toNat ≤ 31) ∧ (3 < (4 : Byte).toNat ∧ (3 : Byte).toNat ≤ 3) ∧
    (1 < (2 : Byte).toNat ∧ (1 : Byte).toNat ≤ 1) := by decide

/-- NothingMovesWithTheInterruptOff. -/
theorem witness_irqOff : fresh.ps2.irqEn = false ∧
    ((AgentStep.fall false 7 = .rise ∨ ∃ d t, AgentStep.fall false 7 = .fall d t) ∧
      (AgentStep.rise = .rise ∨ ∃ d t, AgentStep.rise = .fall d t)) :=
  ⟨rfl, .inr ⟨_, _, rfl⟩, .inl rfl⟩

/-- The block in a phase of a transmission of 0xED. -/
def sending (phase : TxPhase) (k : Nat) (data : Bool) : State := listening fun p =>
  { p with
    tx := { p.tx with phase := phase, byte := 0xED, k := k, lastSent := 0xED, lastValid := true }
    line := { clkDrvLow := false, dataDrvLow := data } }

/-- RisingAndSpuriousEdgesHaveNoEffect, TransmissionPresentsTheFrame and TransmissionCompletes. -/
theorem witness_phases :
    (sending .prep 0 false).ps2.tx.phase = .prep ∧ (sending .inhibit 0 false).ps2.tx.phase = .inhibit ∧
    (sending .prep 0 false).ps2.irqEn = true ∧ (sending .inhibit 0 false).ps2.irqEn = true ∧
    (∀ k ∈ [0, 8, 9], (sending .shift k true).ps2.irqEn = true ∧
      (sending .shift k true).ps2.tx.phase = .shift ∧ (sending .shift k true).ps2.tx.k < 10) := by decide

/-- The block ready to receive with `n` bits of a frame in, the last of them at 1000 ms. -/
def receiving (n : BitVec 4) : State := listening fun p => { p with rx := { p.rx with n := n, lastMs := 1000 } }

/-- WatchdogExpiryStartsANewFrame, at the first millisecond of it, with and without a partial frame, and
across the wrap of the counter. -/
theorem witness_watchdog :
    Listening (receiving 5).ps2 ∧ Listening (receiving 0).ps2 ∧
    250 ≤ ((1250 : BitVec 32) - (receiving 5).ps2.rx.lastMs).toNat ∧
    250 ≤ ((0 : BitVec 32) - (receiving 0).ps2.rx.lastMs).toNat :=
  ⟨⟨rfl, rfl, rfl⟩, ⟨rfl, rfl, rfl⟩, by decide, by decide⟩

/-- EdgesWithinTheWatchdogAreTheNextBit, at its last millisecond, for the first and last bit of each
kind. -/
theorem witness_bits :
    (∀ n, Listening (receiving n).ps2) ∧
    (∀ n ∈ [0, 1, 8, 9, 10], ((1249 : BitVec 32) - (receiving n).ps2.rx.lastMs).toNat < 250) ∧
    (receiving 0).ps2.rx.n = 0 ∧ (1 ≤ (receiving 1).ps2.rx.n.toNat ∧ (receiving 8).ps2.rx.n.toNat ≤ 8) ∧
    (receiving 9).ps2.rx.n = 9 ∧ (receiving 10).ps2.rx.n = 10 :=
  ⟨fun _ => ⟨rfl, rfl, rfl⟩, by decide, rfl, by decide, rfl, rfl⟩

/-- GoodFrameDeliversItsByte and BadParityFrameRequestsAResend. -/
theorem witness_frame : Listening (receiving 0).ps2 ∧ FrameClear (receiving 0).ps2.rx :=
  ⟨⟨rfl, rfl, rfl⟩, rfl, rfl, rfl, rfl⟩

/-- SavePushesOrCountsADrop: a ring with one free entry, and a full one. -/
theorem witness_save :
    (typed (List.replicate 15 0x1C)).ps2.raw.length < Config.reference.rawCap ∧
    Config.reference.rawCap ≤ (typed (List.replicate 16 0x1C)).ps2.raw.length := by decide

/-- PauseSequenceSavesOneEntry, its clause on a sequence already begun: all seven bytes and the last one
still due, while answers are owed and prefix flags are set. -/
theorem witness_pause_begun :
    let begun (left : BitVec 3) : Dec :=
      { Ps2.reset.dec with e0 := true, brk := true, e1Rem := left, expected := 2 }
    ([0x14, 0x77, 0xE1, 0xF0, 0x14, 0xF0] : List Byte).length + 1 = (begun 7).e1Rem.toNat ∧
    ([] : List Byte).length + 1 = (begun 1).e1Rem.toNat := by decide

/-- PauseSequenceSavesOneEntry and ScanCodeIsSavedWithItsFlags. -/
theorem witness_sequences :
    (Ps2.reset.dec.e1Rem = 0 ∧ Ps2.reset.dec.expected = 0 ∧ Ps2.reset.dec.e0 = false ∧
      Ps2.reset.dec.brk = false) ∧
    ([0x14, 0x77, 0xE1, 0xF0, 0x14, 0xF0] : List Byte).length = 6 ∧
    (∀ b ∈ ([0x14, 0x77, 0xE1, 0xF0, 0x14, 0xF0] : List Byte), isProtocolByte b = false) ∧
    isProtocolByte 0x77 = false ∧ isProtocolByte 0x1C = false ∧ isSequenceByte 0x1C = false := by decide

/-- OwedAnswersAreSavedAsResponses: the two bytes of a keyboard's identity. -/
theorem witness_owed :
    let p := { Ps2.reset with dec := { Ps2.reset.dec with expected := 2 } }
    p.dec.e1Rem = 0 ∧ ([0xAB, 0x83] : List Byte).length = p.dec.expected.toNat ∧
    (∀ b ∈ ([0xAB, 0x83] : List Byte), isProtocolByte b = false) ∧
    p.raw.length + ([0xAB, 0x83] : List Byte).length ≤ Config.reference.rawCap := by decide

/-- TranslationKeepsTheRingsInOrder: entries waiting and room for some of their events. -/
theorem witness_translation :
    let p := { (typed [0x1C, 0x32, 0x21]).ps2 with evt := List.replicate 14 0x0041 }
    p.evt.length ≤ Config.reference.evtCap ∧ p.raw ≠ [] := by decide

/-- TranslationKeepsTheRingsInOrder, its clauses on one pass: an entry that gives an event, one that gives
none, one that stalls, with room for exactly one event; a full event ring. -/
theorem witness_pass :
    let room (items : List TxItem) : Ps2 :=
      { (typed []).ps2 with evt := List.replicate 15 0x0041, txq := items }
    (room []).evt.length + 1 ≤ Config.reference.evtCap ∧
    (translateOne Config.reference (keyEntry 0x1C false false) (room []) = .event 0x0041 (room []) ∧
      translateOne Config.reference (keyEntry 0x4A true false) (room []) = .ignore (room []) ∧
      translateOne Config.reference (keyEntry 0x58 false false) (room (List.replicate 13 (.cmd 0xED))) =
        .stall) ∧
    Config.reference.evtCap ≤ (List.replicate 16 (0x0041 : KeyEvent)).length := by decide

/-- LockKeysToggleOncePerPress: the make and the break of Caps Lock, free and held, with and without
room. -/
theorem witness_lock :
    Config.reference.ConstantsValid ∧
    (∀ brk, lookupCode Config.reference (keyEntry 0x58 false brk) = lockCode Config.reference .caps) ∧
    getHeld .caps Ps2.reset.lockHeld = false ∧
    getHeld .caps (setHeld .caps true Ps2.reset.lockHeld) = true ∧
    (queued 12).ps2.txq.length + 4 ≤ Config.reference.txqCap ∧
    Config.reference.txqCap < (queued 13).ps2.txq.length + 4 := by decide

/-- ModifierKeysWriteTheirBit and KeypadKeysFollowNumLock: right Ctrl, and KP5, whose remap is IGNORE.
-/
theorem witness_modifier_keypad :
    Config.reference.ConstantsValid ∧
    (∀ brk, lookupCode Config.reference (keyEntry 0x14 true brk) = 0x09) ∧
    0x09 ∈ modCodes Config.reference .ctrl ∧
    (∀ brk, lookupCode Config.reference (keyEntry 0x73 false brk) = 0x25) ∧
    ((0x25 : KeyCode), (0x00 : KeyCode)) ∈ Config.reference.keypadRemap := by decide

/-- ResponsesAndOrdinaryKeysKeepTheirCode: a response, a letter, a code the table does not list, and the
Pause entry. -/
theorem witness_ordinary :
    (respEntry 0xAA).resp = true ∧ (keyEntry 0x1C false true).resp = false ∧
    (pauseEntry 0x77).e1 = true ∧
    ((keyEntry 0x75 true false).e1 = false ∧ (keyEntry 0x75 true false).e0 = true) ∧
    ((keyEntry 0x75 false false).e1 = false ∧ (keyEntry 0x75 false false).e0 = false) ∧
    (∀ e ∈ [keyEntry 0x1C false true, keyEntry 0x4A true false],
      lookupCode Config.reference e ∉ [Config.reference.keyScroll, Config.reference.keyNum,
        Config.reference.keyCaps] ∧
      lookupCode Config.reference e ∉ modCodes Config.reference .shift ++
        modCodes Config.reference .ctrl ++ modCodes Config.reference .alt ++
        modCodes Config.reference .altGr ++ modCodes Config.reference .gui ∧
      lookupCode Config.reference e ∉ Config.reference.keypadRemap.map Prod.fst) := by decide

/-- TxStartSendsTheImmediateByteOrTheQueueHead: an immediate byte while answers are owed; a queue whose
head awaits three answers and one with a second command. -/
theorem witness_txStart :
    let imm := listening fun p => immediate 0xFE { p with dec := { p.dec with expected := 3 } }
    let queue := listening fun p => pushTx echoSequence (pushTx readIdSequence p)
    (imm.ps2.irqEn = true ∧ imm.ps2.tx.phase = .idle ∧ imm.ps2.rx.n = 0 ∧ imm.ps2.tx.immValid = true) ∧
    (queue.ps2.irqEn = true ∧ queue.ps2.tx.phase = .idle ∧ queue.ps2.rx.n = 0 ∧
      queue.ps2.tx.immValid = false ∧ queue.ps2.dec.expected = 0 ∧
      queue.ps2.txq = .cmd 0xF2 :: (List.replicate 3 .ign ++ echoSequence) ∧
      echoSequence.head? ≠ some .ign) := by decide

/-- A command is queued while an answer is owed. -/
def owing : State := listening fun p =>
  pushTx echoSequence { p with dec := { p.dec with expected := 1 } }

/-- SequencerStepsWaitForTheirGuard: the interrupt off, another phase, a frame being received, and
nothing that may be sent. -/
theorem witness_guards :
    fresh.ps2.irqEn = false ∧ (sending .shift 1 true).ps2.tx.phase ≠ .idle ∧
    (sending .shift 1 true).ps2.tx.phase ≠ .prep ∧ (sending .shift 1 true).ps2.tx.phase ≠ .inhibit ∧
    (receiving 1).ps2.rx.n ≠ 0 ∧
    ((receiving 0).ps2.tx.immValid = false ∧ (receiving 0).ps2.txq = []) ∧
    (owing.ps2.tx.immValid = false ∧ owing.ps2.dec.expected ≠ 0) := by decide

/-- A transmission under way on a configured machine, with an edge to come. -/
def busy : State :=
  { sending .shift 2 true with
    eng := engineAt 3 4 5
    inputs := [.fall true 1000] }

/-- StepKeepsTheCoreInvariant, from a state that is not the reset state. -/
theorem witness_coreInv : CoreInv busy ∧ ∃ t, step busy = .next t := by
  refine ⟨⟨?_, ⟨rfl, rfl⟩, ?_, ?_, fun h => absurd rfl h, ?_, ?_, ?_, ?_, fun _ => rfl⟩, _, rfl⟩ <;> decide

/-- StepKeepsTheBusLevels: edge 2 of 0xED presents its bit 1, a 0. -/
theorem witness_busLevels : BusLevels busy.ps2 ∧ ∃ t, step busy = .next t :=
  ⟨⟨by decide, by decide⟩, _, rfl⟩

/-- One data bit, a 1, of a frame is in, and an edge is to come. -/
def midFrame : State :=
  { receiving 2 with
    ps2 := { (receiving 2).ps2 with rx := { (receiving 2).ps2.rx with sr := 1, par := true } }
    inputs := [.fall true 1001] }

/-- StepKeepsTheFrameAccumulators. -/
theorem witness_frameInv : FrameInv midFrame.ps2 ∧ ∃ t, step midFrame = .next t := by
  refine ⟨⟨fun h => absurd h (by decide), ?_, by decide, fun _ => rfl⟩, _, rfl⟩
  intro k hk
  have hk : 2 ≤ k + 1 := hk
  show (1 : BitVec 8).getLsbD k = false
  simp [BitVec.getLsbD_one]
  omega

/-- StepKeepsTheFrameAccumulators, its clause on the step that takes a data bit: the first and the last
data bit of a frame. -/
theorem witness_frameInv_data : ∀ n ∈ [(1 : BitVec 4), 8],
    let s := { receiving n with inputs := [.fall true 1001] }
    FrameInv s.ps2 ∧ 1 ≤ s.ps2.rx.n.toNat ∧ s.ps2.rx.n.toNat ≤ 8 ∧
    ∃ t, step s = .next t ∧ t.ps2.rx.n = s.ps2.rx.n + 1 := by
  intro n hn
  rcases List.mem_pair.1 hn with rfl | rfl <;>
    exact ⟨⟨fun _ => ⟨rfl, rfl⟩, fun _ _ => BitVec.getLsbD_zero, by decide, fun _ => rfl⟩, by decide,
      by decide, _, rfl, rfl⟩

/-- The decoder's own entries: a response, the Pause entry and the break of an extended key. -/
theorem test_sound_entries :
    (respEntry 0xAA).Sound ∧ (pauseEntry 0x77).Sound ∧ (keyEntry 0x1C true true).Sound := by
  refine ⟨?_, ?_, ?_⟩ <;> constructor <;> decide

/-- Entries the decoder never makes: an ACK saved, a key of a prefix byte, a Pause ended by an ECHO. -/
theorem test_unsound_entries :
    ¬ (respEntry 0xFA).Sound ∧ ¬ (keyEntry 0xF0 false false).Sound ∧ ¬ (pauseEntry 0xEE).Sound :=
  ⟨fun h => absurd (h.response rfl) (by decide), fun h => absurd (h.notPrefix rfl rfl) (by decide),
    fun h => absurd (h.notAnswer rfl) (by decide)⟩

/-- StepKeepsTheRingsSound: a response, the Pause entry and a break wait, and an event is queued. -/
theorem witness_ringsSound :
    let s := { fresh with
      inputs := [AgentStep.command [0x13]]
      ps2 := { Ps2.reset with
        raw := [respEntry 0xAA, pauseEntry 0x77, keyEntry 0x1C true true], evt := [0x0041] } }
    RingsSound s.ps2 ∧ ∃ t, step s = .next t :=
  ⟨⟨by simpa using test_sound_entries, by simp⟩, _, rfl⟩

/-- StepKeepsTheAnswersBounded: three answers are owed, and a sequence that awaits three is queued. -/
theorem witness_answersBounded :
    let s := listening fun p => pushTx readIdSequence { p with dec := { p.dec with expected := 3 } }
    AnswersBounded s.ps2 ∧ ∃ t, step { s with inputs := [.txStart] } = .next t :=
  ⟨⟨by decide, by decide⟩, _, rfl⟩

/-- CommandsLeaveTheBitLevelUnitAlone and DeviceAndSequencerStepsLeaveTheHostSideAlone. -/
theorem witness_sides :
    (Instr.ps2Read ≠ .ps2Init ∧ Instr.ps2Read ≠ .ps2EnableIrq ∧ Instr.ps2Read ≠ .ps2DisableIrq ∧
      ∃ t, exec .ps2Read (typed [0x1C]) = .next t) ∧
    (∃ t, exec .ps2EnableIrq fresh = .next t) ∧
    ∀ a ∈ [AgentStep.fall true 0, .rise, .txStart, .txInhibit, .txRelease], ∀ packet, a ≠ .command packet :=
  ⟨⟨by decide, by decide, by decide, _, rfl⟩, ⟨_, rfl⟩, by simp⟩

/-- HiddenCountersAreNeverObserved: two different machines that show the same, whose next step is a
command; and two that fault. -/
theorem witness_hidden :
    let hide (s : State) : State := { s with ps2 := { s.ps2 with
      rawDrops := 7, rx := { s.ps2.rx with status := .parityError }
      tx := { s.ps2.tx with ack := true }, dec := { s.ps2.dec with lastMake := 0x1C } } }
    let reads := { fresh with inputs := [AgentStep.command [0x14]] }
    let faults := { configuredAt 0 0 0 with inputs := [AgentStep.command [0x03, 0x31]] }
    (SameVisible reads (hide reads) ∧ ∃ t, step reads = .next t) ∧
    SameVisible faults (hide faults) ∧ step faults = .fault (.encryptNonLetter 0x31) :=
  ⟨⟨rfl, _, rfl⟩, rfl, rfl⟩

/-- R106 (b), (e): a lock key with the code of the letter A, of the digit 9 or of the European key makes
the parameters invalid. -/
theorem test_params_refused : ∀ c ∈ [(0x41 : KeyCode), 0x39, 0x8B],
    ¬ { Config.reference with keyCaps := c }.ConstantsValid := by decide

/-- ParametersAreValidAndFixed, and the reference case itself: it meets the spec's constraints. -/
theorem witness_parameters : Config.reference.Valid ∧ ∃ t, step busy = .next t := ⟨by decide, _, rfl⟩

end Sys2Proof.Tests
end

section
/-! PROOFS. Who may change what (00_scope.md R5, R7, R8): the engine changes in three commands alone, an
edge or a sequencer step leaves the host's side of the machine alone, and no step changes the parameters. -/

namespace Sys2Proof.Machine

open Host (Outcome)

/-! ### What an outcome keeps -/

/-- A next state, if the outcome `o` answers one, has the same `f` as `s`. -/
def Keeps {α : Type} (f : State → α) (s : State) (o : Outcome State Fault Refusal) : Prop :=
  ∀ t, o = .next t → f t = f s

section
variable {α : Type} {f : State → α} {s : State}

theorem Keeps.next {u : State} (h : f u = f s) : Keeps f s (.next u) := by
  rintro _ ⟨⟩
  exact h

theorem Keeps.fault (r : Fault) : Keeps f s (.fault r) := by
  rintro _ ⟨⟩

end

/-! ### The engine and its commands (R8) -/

theorem queueSequence_keeps_eng (items : List TxItem) (s : State) :
    Keeps State.eng s (queueSequence items s) := by
  obtain ⟨-, h⟩ | ⟨-, h⟩ := queueSequence_cases items s <;> rw [h] <;> exact .next rfl

/-- The fifteen commands beside ENG_INIT, ENG_SET_PLUGBOARD and ENG_ENCRYPT keep the engine. -/
theorem exec_keeps_eng {i : Instr} (hi : changesEngine i = false) (s : State) :
    Keeps State.eng s (exec i s) := by
  cases i with
  | engInit | engSetPlugboard | engEncrypt => cases hi
  | engRotorOffset n =>
    simp only [exec]
    obtain ⟨st, h, -⟩ | ⟨b, h⟩ := execEngRotorOffset_cases n s <;> rw [h] <;> exact .next rfl
  | ps2Init | ps2EnableIrq | ps2DisableIrq | ps2Available | ps2GetLock => exact .next rfl
  | ps2Read =>
    simp only [exec, execPs2Read]
    split <;> exact .next rfl
  | ps2SetLock mask =>
    simp only [exec, execPs2SetLock]
    split
    · exact .next rfl
    · split <;> exact .next rfl
  | ps2SetNoBreaks flag =>
    simp only [exec, execPs2SetNoBreaks]
    split <;> exact .next rfl
  | ps2SetNoRepeats flag =>
    simp only [exec, execPs2SetNoRepeats]
    split <;> exact .next rfl
  | ps2Echo | ps2ReadId | ps2GetScancodeSet | ps2Reset => exact queueSequence_keeps_eng _ s
  | ps2Typematic rate delay =>
    simp only [exec, execPs2Typematic]
    split
    · exact queueSequence_keeps_eng _ s
    · exact .next rfl

/-- The three commands that may change the engine keep the PS/2 unit. -/
theorem exec_keeps_ps2_of_changesEngine {i : Instr} (hi : changesEngine i = true) (s : State) :
    Keeps State.ps2 s (exec i s) := by
  cases i with
  | engInit rot1 rot2 rot3 refl off1 off2 off3 =>
    simp only [exec]
    obtain ⟨st, h, -⟩ | ⟨n1, n2, n3, f, o1, o2, o3, h⟩ :=
      execEngInit_cases rot1 rot2 rot3 refl off1 off2 off3 s <;> rw [h] <;> exact .next rfl
  | engSetPlugboard p =>
    simp only [exec]
    obtain h | ⟨pb, -, h⟩ := execEngSetPlugboard_cases p s <;> rw [h] <;> exact .next rfl
  | engEncrypt ch =>
    simp only [exec]
    obtain h | h | ⟨c, h⟩ := execEngEncrypt_cases ch s <;> rw [h]
    · exact .next rfl
    · exact .fault _
    · exact .next rfl
  | _ => cases hi

theorem execEngRotorOffset_keeps_ps2 (n : Byte) (s : State) :
    Keeps State.ps2 s (exec (.engRotorOffset n) s) := by
  simp only [exec]
  obtain ⟨st, h, -⟩ | ⟨b, h⟩ := execEngRotorOffset_cases n s <;> rw [h] <;> exact .next rfl

/-- A step keeps the engine unless it is the exchange of one of the three commands: the device's edges and
the sequencer's steps touch the PS/2 unit only, and a packet that is no command changes nothing. -/
theorem step_keeps_eng {s t : State} (h : step s = .next t)
    (hc : ∀ packet rest i, s.inputs = .command packet :: rest → decode packet = .ok i →
      changesEngine i = false) : t.eng = s.eng := by
  obtain ⟨-, rfl⟩ | ⟨a, rest, hin, hd⟩ := step_cases h
  · rfl
  obtain ⟨packet, rfl, he⟩ | ⟨d, ms, -, rfl⟩ | ⟨-, rfl⟩ | ⟨-, rfl⟩ | ⟨-, rfl⟩ | ⟨-, rfl⟩ :=
    deliver_cases hd
  case inl =>
    obtain ⟨i, hdec, hx⟩ | ⟨-, ho⟩ := exchange_cases he
    · exact (exec_keeps_eng (hc packet rest i hin hdec) _ t hx).trans rfl
    · cases ho; rfl
  all_goals rfl

/-! ### The host's side of the PS/2 unit -/

/-- The elements of the PS/2 unit that neither the device nor the sequencer reaches: the events already
translated, the modifier and lock state, the options and the interrupt enable (R28, R29, R48 to R51). -/
structure HostSide where
  evt : List KeyEvent
  ks : Modifiers
  lockMask : BitVec 4
  lockHeld : LockHeld
  noBreaks : Bool
  noRepeats : Bool
  irqEn : Bool

/-- The unit's own host side. -/
def hostSide (p : Ps2) : HostSide :=
  ⟨p.evt, p.ks, p.lockMask, p.lockHeld, p.noBreaks, p.noRepeats, p.irqEn⟩

theorem hostSide_eq_iff (p q : Ps2) : hostSide q = hostSide p ↔
    q.evt = p.evt ∧ q.ks = p.ks ∧ q.lockMask = p.lockMask ∧ q.lockHeld = p.lockHeld ∧
      q.noBreaks = p.noBreaks ∧ q.noRepeats = p.noRepeats ∧ q.irqEn = p.irqEn := by
  simp only [hostSide, HostSide.mk.injEq]

/-! ### Receiving (R153 to R161) -/

theorem hostSide_decodeByte (cfg : Config.Params) (b : Byte) (p : Ps2) :
    hostSide (decodeByte cfg b p) = hostSide p := by
  have keeps := decodeByte_keeps cfg b p
  exact (hostSide_eq_iff _ _).2 ⟨keeps.evt, keeps.ks, keeps.lockMask, keeps.lockHeld, keeps.noBreaks,
    keeps.noRepeats, keeps.irqEn⟩

theorem hostSide_rxWatchdog (t : BitVec 32) (p : Ps2) :
    hostSide (rxWatchdog t p) = hostSide p := by
  obtain ⟨-, h⟩ | ⟨-, h⟩ := rxWatchdog_cases t p <;> rw [h] <;> rfl

theorem hostSide_rxStartBit (d : Bool) (p : Ps2) : hostSide (rxStartBit d p) = hostSide p := by
  simp only [rxStartBit]
  split <;> rfl

theorem hostSide_rxParityBit (d : Bool) (p : Ps2) : hostSide (rxParityBit d p) = hostSide p := by
  simp only [rxParityBit]
  split <;> rfl

theorem hostSide_rxStopBit (cfg : Config.Params) (p : Ps2) :
    hostSide (rxStopBit cfg p) = hostSide p := by
  simp only [rxStopBit]
  split
  · rfl
  · rw [hostSide_decodeByte]; rfl

theorem hostSide_rxBit (cfg : Config.Params) (d : Bool) (p : Ps2) :
    hostSide (rxBit cfg d p) = hostSide p := by
  obtain ⟨-, h⟩ | ⟨-, -, h⟩ | ⟨-, h⟩ | ⟨-, h⟩ := rxBit_cases cfg d p <;> rw [h]
  · exact hostSide_rxStartBit d p
  · rfl
  · exact hostSide_rxParityBit d p
  · exact hostSide_rxStopBit cfg p

theorem hostSide_rxFall (cfg : Config.Params) (d : Bool) (t : BitVec 32) (p : Ps2) :
    hostSide (rxFall cfg d t p) = hostSide p :=
  (hostSide_rxBit cfg d _).trans (hostSide_rxWatchdog t p)

/-! ### Transmitting (R216 to R224) -/

theorem hostSide_txEdge (d : Bool) (p : Ps2) : hostSide (txEdge d p) = hostSide p := by
  obtain ⟨-, v, h⟩ | ⟨-, h⟩ := txEdge_cases d p <;> rw [h] <;> rfl

theorem hostSide_stepTxStart (p : Ps2) : hostSide (stepTxStart p) = hostSide p := by
  obtain h | ⟨-, ⟨-, h⟩ | ⟨b, rest, -, -, h⟩⟩ := stepTxStart_cases p <;> rw [h] <;> rfl

theorem hostSide_stepTxInhibit (p : Ps2) : hostSide (stepTxInhibit p) = hostSide p := by
  obtain h | ⟨-, -, h⟩ := stepTxInhibit_cases p <;> rw [h]
  rfl

theorem hostSide_stepTxRelease (p : Ps2) : hostSide (stepTxRelease p) = hostSide p := by
  obtain h | ⟨-, -, h⟩ := stepTxRelease_cases p <;> rw [h]
  rfl

/-! ### The steps that are no command (R7) -/

theorem hostSide_busFall (cfg : Config.Params) (d : Bool) (t : BitVec 32) (p : Ps2) :
    hostSide (busFall cfg d t p) = hostSide p := by
  obtain h | ⟨-, -, h⟩ | ⟨-, -, h⟩ := busFall_cases cfg d t p <;> rw [h]
  · exact hostSide_txEdge _ p
  · exact hostSide_rxFall cfg _ t p

/-- An edge or a sequencer step always answers a next state, which differs from the one before it in the
PS/2 unit alone, and there not in the host's side. -/
theorem deliver_of_not_command {a : AgentStep} (ha : ∀ packet, a ≠ .command packet) (s : State) :
    ∃ p, deliver a s = .next { s with ps2 := p } ∧ hostSide p = hostSide s.ps2 := by
  cases a with
  | command packet => exact absurd rfl (ha packet)
  | fall d t => exact ⟨_, rfl, hostSide_busFall s.cfg d t s.ps2⟩
  | rise => exact ⟨_, rfl, rfl⟩
  | txStart => exact ⟨_, rfl, hostSide_stepTxStart s.ps2⟩
  | txInhibit => exact ⟨_, rfl, hostSide_stepTxInhibit s.ps2⟩
  | txRelease => exact ⟨_, rfl, hostSide_stepTxRelease s.ps2⟩

/-! ### The parameters (R5, R106) -/

/-- The reference case meets the constraints, so `params` has a valid value to fall back on. -/
theorem reference_valid : Config.reference.Valid := by decide

theorem params_valid : Config.params.Valid := by
  unfold Config.params
  split
  · assumption
  · exact reference_valid

theorem CommandEffect.cfg_eq {s u : State} (h : CommandEffect s u) : u.cfg = s.cfg := by
  cases h <;> rfl

theorem exec_keeps_cfg {i : Instr} {s t : State} (h : exec i s = .next t) : t.cfg = s.cfg := by
  obtain ⟨st, -, rfl⟩ | ⟨data, u, hu, rfl⟩ := exec_next h
  · rfl
  · exact hu.cfg_eq

theorem step_keeps_cfg {s t : State} (h : step s = .next t) : t.cfg = s.cfg := by
  obtain ⟨-, rfl⟩ | ⟨a, rest, -, hd⟩ := step_cases h
  · rfl
  obtain ⟨packet, rfl, he⟩ | ⟨d, ms, -, rfl⟩ | ⟨-, rfl⟩ | ⟨-, rfl⟩ | ⟨-, rfl⟩ | ⟨-, rfl⟩ :=
    deliver_cases hd
  case inl =>
    obtain ⟨i, -, hx⟩ | ⟨-, ho⟩ := exchange_cases he
    · exact (exec_keeps_cfg hx).trans rfl
    · cases ho; rfl
  all_goals rfl

/-! ### The statements -/

/-- Settles O18: by the cases of a step for the first clause, and by the outcomes of each of the four engine
commands for the second. -/
theorem engineChangesOnlyInItsCommands : Obligations.EngineChangesOnlyInItsCommands := by
  refine ⟨fun s t h hc => step_keeps_eng h hc, ?_⟩
  rintro i s t (hi | ⟨n, rfl⟩) h
  · exact exec_keeps_ps2_of_changesEngine hi s t h
  · exact execEngRotorOffset_keeps_ps2 n s t h

/-- Settles O57: each such step rewrites the PS/2 unit alone and keeps its host side. -/
theorem deviceAndSequencerStepsLeaveTheHostSideAlone :
    Obligations.DeviceAndSequencerStepsLeaveTheHostSideAlone := by
  intro a s ha
  obtain ⟨p, hd, hp⟩ := deliver_of_not_command ha s
  exact ⟨_, hd, rfl, rfl, rfl, (hostSide_eq_iff s.ps2 p).1 hp⟩

/-- Settles O59: `params` is a valid choice by its definition, and no agent's step writes `cfg`. -/
theorem parametersAreValidAndFixed : Obligations.ParametersAreValidAndFixed :=
  ⟨params_valid, fun _ _ h => step_keeps_cfg h⟩

end Sys2Proof.Machine
end

section
/-! PROOFS. R55's invariants between any two steps (10_state.md): the engine's, the counts that say who
owns the bus, and the queues' bounds, each kept by every step on its own. -/

namespace Sys2Proof.Machine

/-! ### Invariants of the whole state -/

/-- What does not look at the pending steps or the last response, and is kept by every command's effect, by
a falling edge and by the sequencer's steps, is kept by every step. -/
theorem step_keeps_state {I : State → Prop}
    (aside : ∀ s inputs response, I s → I { s with inputs := inputs, response := response })
    (command : ∀ s u, CommandEffect s u → I s → I u)
    (fall : ∀ s d ms, I s → I { s with ps2 := busFall s.cfg d ms s.ps2 })
    (txStart : ∀ s, I s → I { s with ps2 := stepTxStart s.ps2 })
    (txInhibit : ∀ s, I s → I { s with ps2 := stepTxInhibit s.ps2 })
    (txRelease : ∀ s, I s → I { s with ps2 := stepTxRelease s.ps2 })
    {s t : State} (hs : I s) (h : step s = .next t) : I t := by
  obtain ⟨-, rfl⟩ | ⟨a, rest, -, hd⟩ := step_cases h
  · exact hs
  have hs' : I { s with inputs := rest } := aside s rest s.response hs
  obtain ⟨packet, -, he⟩ | ⟨d, ms, -, rfl⟩ | ⟨-, rfl⟩ | ⟨-, rfl⟩ | ⟨-, rfl⟩ | ⟨-, rfl⟩ :=
    deliver_cases hd
  · obtain ⟨i, -, hx⟩ | ⟨-, ho⟩ := exchange_cases he
    · obtain ⟨st, -, rfl⟩ | ⟨data, u, hu, rfl⟩ := exec_next hx
      · exact aside _ _ _ hs'
      · exact aside _ _ _ (command _ u hu hs')
    · cases ho
      exact aside _ _ _ hs'
  · exact fall _ d ms hs'
  · exact hs'
  · exact txStart _ hs'
  · exact txInhibit _ hs'
  · exact txRelease _ hs'

/-! ### The engine (R26, R27) -/

/-- R55's part of the engine. -/
def EngineInv (e : Engine) : Prop := PlugInvolution e ∧ FlagsClear e

theorem CommandEffect.keeps_engineInv {s u : State} (h : CommandEffect s u) (hs : EngineInv s.eng) :
    EngineInv u.eng := by
  obtain ⟨involution, flags⟩ := hs
  cases h with
  | configure => exact ⟨involution, rfl, rfl⟩
  | plugboard pb hpb => exact ⟨hpb, flags⟩
  | keystroke =>
    exact ⟨fun c => by simpa only [plug_stepEngine] using involution c, stepEngine_flags_clear s.eng⟩
  | _ => exact ⟨involution, flags⟩

theorem step_keeps_engineInv {s t : State} (hs : EngineInv s.eng) (h : step s = .next t) :
    EngineInv t.eng :=
  step_keeps_state (I := fun s => EngineInv s.eng) (fun _ _ _ hs => hs)
    (fun _ _ hu hs => hu.keeps_engineInv hs) (fun _ _ _ hs => hs) (fun _ hs => hs) (fun _ hs => hs)
    (fun _ hs => hs) hs h

/-! ### What receiving can write (R153 to R161) -/

/-- The bit's own rule leaves a frame count of at most 10, whatever the count was, and beside the frame
state does nothing, or asks for a RESEND, or decodes one byte. -/
theorem rxBit_writes (cfg : Config.Params) (d : Bool) (p : Ps2) : ∃ rx : Rx, rx.n.toNat ≤ 10 ∧
    (rxBit cfg d p = { p with rx := rx } ∨ rxBit cfg d p = immediate 0xFE { p with rx := rx } ∨
      ∃ b, rxBit cfg d p = decodeByte cfg b { p with rx := rx }) := by
  obtain ⟨hn, h⟩ | ⟨-, hn, h⟩ | ⟨hn, h⟩ | ⟨-, h⟩ := rxBit_cases cfg d p <;> rw [h]
  · simp only [rxStartBit]
    split
    · exact ⟨_, by simp, .inl rfl⟩
    · exact ⟨p.rx, by simp [hn], .inl rfl⟩
  · exact ⟨(rxDataBit d p).rx, Nat.le_succ_of_le hn, .inl rfl⟩
  · simp only [rxParityBit]
    split
    · exact ⟨p.rx, by simp [hn], .inl rfl⟩
    · exact ⟨_, by simp [hn], .inl rfl⟩
  · simp only [rxStopBit]
    split
    · exact ⟨{ (rxClear p).rx with status := .parityError }, Nat.zero_le 10, .inr (.inl rfl)⟩
    · exact ⟨{ (rxClear p).rx with status := .ok }, Nat.zero_le 10, .inr (.inr ⟨_, rfl⟩)⟩

theorem rxFall_writes (cfg : Config.Params) (d : Bool) (t : BitVec 32) (p : Ps2) :
    ∃ rx : Rx, rx.n.toNat ≤ 10 ∧
    (rxFall cfg d t p = { p with rx := rx } ∨ rxFall cfg d t p = immediate 0xFE { p with rx := rx } ∨
      ∃ b, rxFall cfg d t p = decodeByte cfg b { p with rx := rx }) := by
  simp only [rxFall]
  obtain ⟨-, hw⟩ | ⟨-, hw⟩ := rxWatchdog_cases t p <;> rw [hw] <;> exact rxBit_writes cfg d _

/-! ### The counts of the bus (R30, R40, R164) -/

/-- R55's part of the two counts: their ranges, and that a frame is being received in IDLE alone and edges
of a transmission are counted in SHIFT alone. -/
structure CountsInv (n : BitVec 4) (phase : TxPhase) (k : Nat) : Prop where
  rxCount : n.toNat ≤ 10
  txCount : k ≤ 10
  txCountIdle : phase ≠ .shift → k = 0
  rxIdle : phase ≠ .idle → n = 0

/-- `CountsInv` of the unit's own counts and phase. -/
def BusCounts (p : Ps2) : Prop := CountsInv p.rx.n p.tx.phase p.tx.k

/-- In IDLE any count within its range will do. -/
theorem CountsInv.receive {n m : BitVec 4} {phase : TxPhase} {k : Nat} (h : CountsInv n phase k)
    (idle : phase = .idle) (hm : m.toNat ≤ 10) : CountsInv m phase k :=
  ⟨hm, h.txCount, h.txCountIdle, fun busy => absurd idle busy⟩

/-- With no frame bit in and no edge counted, any phase will do. -/
theorem CountsInv.zero {n : BitVec 4} {phase : TxPhase} (hn : n = 0) : CountsInv n phase 0 :=
  ⟨by simp [hn], Nat.zero_le 10, fun _ => rfl, fun _ => hn⟩

theorem BusCounts.decodeByte (cfg : Config.Params) (b : Byte) {p : Ps2} (h : BusCounts p) :
    BusCounts (decodeByte cfg b p) := by
  have keeps := decodeByte_keeps cfg b p
  unfold BusCounts
  rwa [keeps.rx, keeps.phase, keeps.k]

theorem BusCounts.rxFall (cfg : Config.Params) (d : Bool) (t : BitVec 32) {p : Ps2} (h : BusCounts p)
    (idle : p.tx.phase = .idle) : BusCounts (rxFall cfg d t p) := by
  obtain ⟨rx, hn, hw⟩ := rxFall_writes cfg d t p
  have received : BusCounts { p with rx := rx } := CountsInv.receive h idle hn
  obtain hw | hw | ⟨b, hw⟩ := hw <;> rw [hw]
  · exact received
  · exact received
  · exact received.decodeByte cfg b

theorem BusCounts.txEdge (d : Bool) {p : Ps2} (h : BusCounts p) (shift : p.tx.phase = .shift) :
    BusCounts (txEdge d p) := by
  obtain ⟨hk, v, he⟩ | ⟨-, he⟩ := txEdge_cases d p <;> rw [he]
  · exact ⟨h.rxCount, hk, fun other => absurd shift other, h.rxIdle⟩
  · exact CountsInv.zero rfl

theorem BusCounts.busFall (cfg : Config.Params) (d : Bool) (t : BitVec 32) {p : Ps2} (h : BusCounts p) :
    BusCounts (busFall cfg d t p) := by
  obtain hb | ⟨-, shift, hb⟩ | ⟨-, idle, hb⟩ := busFall_cases cfg d t p <;> rw [hb]
  · exact h
  · exact h.txEdge _ shift
  · exact h.rxFall cfg _ t idle

/-- TX_START waits for `rx.n = 0` (R216). -/
theorem BusCounts.stepTxStart {p : Ps2} (h : BusCounts p) : BusCounts (stepTxStart p) := by
  obtain hs | ⟨guard, hs⟩ := stepTxStart_cases p
  · rwa [hs]
  obtain ⟨-, -, hn, -⟩ := (txStartEnabled_iff p).1 guard
  obtain ⟨-, hs⟩ | ⟨b, rest, -, -, hs⟩ := hs <;> rw [hs] <;> exact CountsInv.zero hn

theorem BusCounts.stepTxInhibit {p : Ps2} (h : BusCounts p) : BusCounts (stepTxInhibit p) := by
  obtain hs | ⟨-, prep, hs⟩ := stepTxInhibit_cases p <;> rw [hs]
  · exact h
  · have hk : p.tx.k = 0 := h.txCountIdle (by simp [prep])
    exact ⟨h.rxCount, h.txCount, fun _ => hk, fun _ => h.rxIdle (by simp [prep])⟩

theorem BusCounts.stepTxRelease {p : Ps2} (h : BusCounts p) : BusCounts (stepTxRelease p) := by
  obtain hs | ⟨-, inhibit, hs⟩ := stepTxRelease_cases p <;> rw [hs]
  · exact h
  · exact CountsInv.zero (h.rxIdle (by simp [inhibit]))

/-- Translation has no part in the bus (R190). -/
theorem translate_rx_tx (cfg : Config.Params) (p : Ps2) :
    (translate cfg p).rx = p.rx ∧ (translate cfg p).tx = p.tx :=
  translateEntries_induct (P := fun q => q.rx = p.rx ∧ q.tx = p.tx) cfg (fun _ _ h => h)
    (fun _ _ _ keeps _ h => ⟨keeps.rx.trans h.1, keeps.tx.trans h.2⟩)
    (fun _ _ _ _ keeps _ _ _ h => ⟨keeps.rx.trans h.1, keeps.tx.trans h.2⟩) p.raw p ⟨rfl, rfl⟩

theorem BusCounts.translate (cfg : Config.Params) {p : Ps2} (h : BusCounts p) :
    BusCounts (translate cfg p) := by
  obtain ⟨hrx, htx⟩ := translate_rx_tx cfg p
  unfold BusCounts
  rwa [hrx, htx]

theorem step_keeps_busCounts {s t : State} (hs : BusCounts s.ps2) (h : step s = .next t) :
    BusCounts t.ps2 :=
  step_keeps_unit (I := BusCounts) (CountsInv.zero rfl) (fun _ _ _ _ hp => hp)
    (fun cfg _ hp => hp.translate cfg) (fun _ _ _ _ hp => hp) (fun _ _ _ _ hp => hp)
    (fun cfg d t _ hp => hp.busFall cfg d t) (fun _ hp => hp.stepTxStart) (fun _ hp => hp.stepTxInhibit)
    (fun _ hp => hp.stepTxRelease) hs h

/-! ### The queues (R64, R101) -/

/-- The outbound queue does not start with a placeholder (R101). -/
def HeadIsCommand (q : List TxItem) : Prop := q.head? ≠ some .ign

theorem IsSequence.headIsCommand {items : List TxItem} (h : IsSequence items) : HeadIsCommand items := by
  cases h <;> exact fun h => nomatch h

theorem HeadIsCommand.append {q items : List TxItem} (hq : HeadIsCommand q)
    (hi : HeadIsCommand items) : HeadIsCommand (q ++ items) := by
  cases q with
  | nil => exact hi
  | cons i rest => exact hq

/-- Taking the placeholders off leaves a command at the head, or nothing. -/
theorem headIsCommand_dropWhile_isIgn (q : List TxItem) : HeadIsCommand (q.dropWhile isIgn) := by
  intro h
  have hi := List.head?_dropWhile_not isIgn q
  rw [h] at hi
  exact absurd hi (by decide)

/-- R55's part of the outbound queue. -/
def TxqInv (cfg : Config.Params) (q : List TxItem) : Prop := q.length ≤ cfg.txqCap ∧ HeadIsCommand q

theorem TxqInv.nil (cfg : Config.Params) : TxqInv cfg [] := ⟨Nat.zero_le _, fun h => nomatch h⟩

theorem TxqInv.append {cfg : Config.Params} {q items : List TxItem} (h : TxqInv cfg q)
    (hi : IsSequence items) (fits : q.length + items.length ≤ cfg.txqCap) : TxqInv cfg (q ++ items) :=
  ⟨List.length_append ▸ fits, h.2.append hi.headIsCommand⟩

/-- R55's part of the three queues. -/
structure QueuesInv (cfg : Config.Params) (raw : List RawEntry) (evt : List KeyEvent)
    (txq : List TxItem) : Prop where
  rawRoom : raw.length ≤ cfg.rawCap
  evtRoom : evt.length ≤ cfg.evtCap
  txqInv : TxqInv cfg txq

/-- `QueuesInv` of the unit's own queues. -/
def QueuesFit (cfg : Config.Params) (p : Ps2) : Prop := QueuesInv cfg p.raw p.evt p.txq

/-- Consuming an entry queues at most one LED sequence, which fits (R198). -/
theorem EntryKeeps.keeps_txqInv {cfg : Config.Params} {p q : Ps2} (keeps : EntryKeeps cfg p q)
    (h : TxqInv cfg p.txq) : TxqInv cfg q.txq := by
  obtain hq | ⟨mask, hq, fits⟩ := keeps.txq <;> rw [hq]
  · exact h
  · exact h.append (.led mask) fits

/-- Translation stops with a tail of the entries it was given in the raw ring (R190). -/
theorem translateEntries_raw_suffix (cfg : Config.Params) (entries : List RawEntry) (p : Ps2) :
    (translateEntries cfg entries p).raw <:+ entries := by
  induction entries generalizing p with
  | nil => exact List.suffix_rfl
  | cons e rest ih =>
    simp only [translateEntries]
    split
    · split
      · exact List.suffix_rfl
      · exact (ih _).trans (List.suffix_cons e rest)
      · exact (ih _).trans (List.suffix_cons e rest)
    · exact List.suffix_rfl

theorem QueuesFit.translate {cfg : Config.Params} {p : Ps2} (h : QueuesFit cfg p) :
    QueuesFit cfg (translate cfg p) := by
  have raw : (Machine.translate cfg p).raw.length ≤ p.raw.length :=
    (translateEntries_raw_suffix cfg p.raw p).length_le
  obtain ⟨evt, txq⟩ := translateEntries_induct (P := fun q => q.evt.length ≤ cfg.evtCap ∧ TxqInv cfg q.txq) cfg
    (fun _ _ hq => hq)
    (fun _ _ _ keeps _ hq => ⟨keeps.evt ▸ hq.1, keeps.keeps_txqInv hq.2⟩)
    (fun _ _ _ _ keeps _ room _ hq => ⟨by simpa [keeps.evt] using room, keeps.keeps_txqInv hq.2⟩)
    p.raw p ⟨h.evtRoom, h.txqInv⟩
  exact ⟨raw.trans h.rawRoom, evt, txq⟩

/-- A received byte saves one entry, where there is room, and empties the outbound queue or leaves it
alone (R183, R184). -/
theorem QueuesFit.decodeByte {cfg : Config.Params} (b : Byte) {p : Ps2} (h : QueuesFit cfg p) :
    QueuesFit cfg (decodeByte cfg b p) := by
  have keeps := decodeByte_keeps cfg b p
  refine ⟨?_, keeps.evt ▸ h.evtRoom, ?_⟩
  · obtain hr | ⟨e, hr, room⟩ := decodeByte_rawAppends cfg b p <;> rw [hr]
    · exact h.rawRoom
    · simpa using room
  · obtain hq | hq := keeps.txq <;> rw [hq]
    · exact h.txqInv
    · exact .nil cfg

theorem QueuesFit.busFall {cfg : Config.Params} (d : Bool) (t : BitVec 32) {p : Ps2}
    (h : QueuesFit cfg p) : QueuesFit cfg (busFall cfg d t p) := by
  obtain hb | ⟨-, -, hb⟩ | ⟨-, -, hb⟩ := busFall_cases cfg d t p <;> rw [hb]
  · exact h
  · obtain ⟨-, v, he⟩ | ⟨-, he⟩ := txEdge_cases (dataLevel d p) p <;> rw [he] <;> exact h
  · obtain ⟨rx, -, hw | hw | ⟨b, hw⟩⟩ := rxFall_writes cfg (dataLevel d p) t p <;> rw [hw]
    · exact h
    · exact h
    · exact QueuesFit.decodeByte b (p := { p with rx := rx }) h

/-- TX_START takes a command and its placeholders off the outbound queue (R217). -/
theorem QueuesFit.stepTxStart {cfg : Config.Params} {p : Ps2} (h : QueuesFit cfg p) :
    QueuesFit cfg (stepTxStart p) := by
  obtain hs | ⟨-, ⟨-, hs⟩ | ⟨b, rest, -, hq, hs⟩⟩ := stepTxStart_cases p <;> rw [hs]
  · exact h
  · exact h
  · have shorter : (rest.dropWhile isIgn).length ≤ p.txq.length := by
      rw [hq]
      exact ((List.dropWhile_suffix isIgn).length_le).trans (Nat.le_succ _)
    exact ⟨h.rawRoom, h.evtRoom, shorter.trans h.txqInv.1, headIsCommand_dropWhile_isIgn rest⟩

theorem QueuesFit.stepTxInhibit {cfg : Config.Params} {p : Ps2} (h : QueuesFit cfg p) :
    QueuesFit cfg (stepTxInhibit p) := by
  obtain hs | ⟨-, -, hs⟩ := stepTxInhibit_cases p <;> rw [hs] <;> exact h

theorem QueuesFit.stepTxRelease {cfg : Config.Params} {p : Ps2} (h : QueuesFit cfg p) :
    QueuesFit cfg (stepTxRelease p) := by
  obtain hs | ⟨-, -, hs⟩ := stepTxRelease_cases p <;> rw [hs] <;> exact h

theorem CommandEffect.keeps_queuesFit {s u : State} (h : CommandEffect s u)
    (hs : QueuesFit s.cfg s.ps2) : QueuesFit u.cfg u.ps2 := by
  cases h with
  | init => exact ⟨Nat.zero_le _, Nat.zero_le _, .nil _⟩
  | translate => exact hs.translate
  | pop ev rest hevt =>
    have evt : (Machine.translate s.cfg s.ps2).evt.length ≤ s.cfg.evtCap := hs.translate.evtRoom
    rw [hevt] at evt
    exact ⟨hs.translate.rawRoom, (Nat.le_succ _).trans evt, hs.translate.txqInv⟩
  | queue items hi fits => exact ⟨hs.rawRoom, hs.evtRoom, hs.txqInv.append hi fits⟩
  | lock mask m fits => exact ⟨hs.rawRoom, hs.evtRoom, hs.txqInv.append (.led mask) fits⟩
  | _ => exact hs

theorem step_keeps_queuesFit {s t : State} (hs : QueuesFit s.cfg s.ps2) (h : step s = .next t) :
    QueuesFit t.cfg t.ps2 :=
  step_keeps_state (I := fun s => QueuesFit s.cfg s.ps2) (fun _ _ _ hs => hs)
    (fun _ _ hu hs => hu.keeps_queuesFit hs) (fun _ d t hs => hs.busFall d t)
    (fun _ hs => hs.stepTxStart) (fun _ hs => hs.stepTxInhibit) (fun _ hs => hs.stepTxRelease) hs h

/-! ### The statement -/

theorem coreInv_iff (s : State) :
    CoreInv s ↔ EngineInv s.eng ∧ BusCounts s.ps2 ∧ QueuesFit s.cfg s.ps2 :=
  ⟨fun h => ⟨⟨h.plugboard, h.stepNext⟩, ⟨h.rxCount, h.txCount, h.txCountIdle, h.rxIdle⟩,
      h.rawRoom, h.evtRoom, h.txqRoom, h.txqHead⟩,
    fun ⟨engine, counts, queues⟩ =>
      { plugboard := engine.1, stepNext := engine.2
        rxCount := counts.rxCount, txCount := counts.txCount
        txCountIdle := counts.txCountIdle, rxIdle := counts.rxIdle
        rawRoom := queues.rawRoom, evtRoom := queues.evtRoom
        txqRoom := queues.txqInv.1, txqHead := queues.txqInv.2 }⟩

/-- Settles O50: R55's invariants fall into three parts, of the engine, of the bus counts and of the
queues, and every step keeps each part by itself. -/
theorem stepKeepsTheCoreInvariant : Obligations.StepKeepsTheCoreInvariant := by
  intro s t hs h
  obtain ⟨engine, counts, queues⟩ := (coreInv_iff s).1 hs
  exact (coreInv_iff t).2
    ⟨step_keeps_engineInv engine h, step_keeps_busCounts counts h, step_keeps_queuesFit queues h⟩

end Sys2Proof.Machine
end

section
/-! PROOFS. Noninterference (10_state.md R26, R54): a command reads the engine and the PS/2 unit through a
few elements only, so two machines that agree on these answer it alike; hence the slow rotor's flag and the
four hidden elements of the unit influence nothing but themselves. -/

namespace Sys2Proof.Machine

open Host (Outcome)

/-! ### Related machines -/

/-- Two outcomes that are next states related by `R`, or one and the same fault. -/
inductive SameOutcome (R : State → State → Prop) :
    Outcome State Fault Refusal → Outcome State Fault Refusal → Prop where
  | next {s t : State} : R s t → SameOutcome R (.next s) (.next t)
  | fault (f : Fault) : SameOutcome R (.fault f) (.fault f)

theorem SameOutcome.exists_next {R : State → State → Prop} {o o' : Outcome State Fault Refusal} {s : State}
    (h : SameOutcome R o o') (ho : o = .next s) : ∃ t, o' = .next t ∧ R s t := by
  subst ho
  cases h with
  | next hst => exact ⟨_, rfl, hst⟩

theorem SameOutcome.fault_eq {R : State → State → Prop} {o o' : Outcome State Fault Refusal} {f : Fault}
    (h : SameOutcome R o o') (ho : o = .fault f) : o' = .fault f := by
  subst ho
  cases h with
  | fault => rfl

/-- The relation `E` of engines is kept by whatever a command does to an engine, and related engines show a
command the same. -/
structure EngineCongruence (E : Engine → Engine → Prop) : Prop where
  configured {d e : Engine} : E d e → e.configured = d.configured
  offsets {d e : Engine} : E d e → e.r1.off = d.r1.off ∧ e.r2.off = d.r2.off ∧ e.r3.off = d.r3.off
  perm {d e : Engine} (c : Letter) : E d e → perm e c = perm d c
  configure {d e : Engine} (n1 n2 n3 : RotorNo) (f : ReflectorNo) (o1 o2 o3 : Letter) :
    E d e → E (configure d n1 n2 n3 f o1 o2 o3) (configure e n1 n2 n3 f o1 o2 o3)
  plugboard {d e : Engine} (pb : Vector Letter 26) : E d e → E { d with pb := pb } { e with pb := pb }
  stepEngine {d e : Engine} : E d e → E (stepEngine d) (stepEngine e)

/-- The same of a relation `U` of PS/2 units. -/
structure UnitCongruence (U : Ps2 → Ps2 → Prop) : Prop where
  evt {p q : Ps2} : U p q → q.evt = p.evt
  txq {p q : Ps2} : U p q → q.txq = p.txq
  lockMask {p q : Ps2} : U p q → q.lockMask = p.lockMask
  reset : U Ps2.reset Ps2.reset
  setIrqEn {p q : Ps2} (v : Bool) : U p q → U { p with irqEn := v } { q with irqEn := v }
  setNoBreaks {p q : Ps2} (v : Bool) : U p q → U { p with noBreaks := v } { q with noBreaks := v }
  setNoRepeats {p q : Ps2} (v : Bool) : U p q → U { p with noRepeats := v } { q with noRepeats := v }
  setEvt {p q : Ps2} (l : List KeyEvent) : U p q → U { p with evt := l } { q with evt := l }
  setLockMask {p q : Ps2} (m : BitVec 4) : U p q → U { p with lockMask := m } { q with lockMask := m }
  pushTx {p q : Ps2} (items : List TxItem) : U p q → U (pushTx items p) (pushTx items q)
  translate {p q : Ps2} (cfg : Config.Params) : U p q → U (translate cfg p) (translate cfg q)

theorem EngineCongruence.eq : EngineCongruence Eq := by
  constructor <;> intros <;> subst_vars <;> simp

theorem UnitCongruence.eq : UnitCongruence Eq := by
  constructor <;> intros <;> subst_vars <;> rfl

/-- Two machines whose engines are related by `E` and whose units by `U`, and which agree in all else. -/
structure Related (E : Engine → Engine → Prop) (U : Ps2 → Ps2 → Prop) (s t : State) : Prop where
  eng : E s.eng t.eng
  ps2 : U s.ps2 t.ps2
  cfg : t.cfg = s.cfg
  inputs : t.inputs = s.inputs
  response : t.response = s.response

section
variable {E : Engine → Engine → Prop} {U : Ps2 → Ps2 → Prop} {s t : State}

theorem Related.withEng {d e : Engine} (h : Related E U s t) (he : E d e) :
    Related E U { s with eng := d } { t with eng := e } :=
  ⟨he, h.ps2, h.cfg, h.inputs, h.response⟩

theorem Related.withPs2 {p q : Ps2} (h : Related E U s t) (hu : U p q) :
    Related E U { s with ps2 := p } { t with ps2 := q } :=
  ⟨h.eng, hu, h.cfg, h.inputs, h.response⟩

theorem Related.withInputs (h : Related E U s t) (l : List AgentStep) :
    Related E U { s with inputs := l } { t with inputs := l } :=
  ⟨h.eng, h.ps2, h.cfg, rfl, h.response⟩

theorem Related.respond (h : Related E U s t) (st : Status) (data : List Byte) :
    SameOutcome (Related E U) (.next (respond st data s)) (.next (respond st data t)) :=
  .next ⟨h.eng, h.ps2, h.cfg, h.inputs, rfl⟩

theorem Related.txFits (hU : UnitCongruence U) (h : Related E U s t) (items : List TxItem) :
    txFits t.cfg items t.ps2 = txFits s.cfg items s.ps2 := by
  simp only [Machine.txFits, h.cfg, hU.txq h.ps2]

theorem Related.queueSequence (hU : UnitCongruence U) (h : Related E U s t) (items : List TxItem) :
    SameOutcome (Related E U) (queueSequence items s) (queueSequence items t) := by
  simp only [Machine.queueSequence, h.txFits hU]
  split
  · exact (h.withPs2 (hU.pushTx items h.ps2)).respond .ok []
  · exact h.respond .txQueueFull []

/-! ### The engine commands -/

theorem Related.execEngInit (hE : EngineCongruence E) (h : Related E U s t)
    (rot1 rot2 rot3 refl off1 off2 off3 : Byte) : SameOutcome (Related E U)
      (execEngInit rot1 rot2 rot3 refl off1 off2 off3 s)
      (execEngInit rot1 rot2 rot3 refl off1 off2 off3 t) := by
  simp only [Machine.execEngInit]
  split
  · split
    · split
      · exact (h.withEng (hE.configure _ _ _ _ _ _ _ h.eng)).respond .ok []
      · exact h.respond .invalidReflector []
    · exact h.respond .invalidOffset []
  · exact h.respond .invalidRotorIndex []

theorem Related.execEngSetPlugboard (hE : EngineCongruence E) (h : Related E U s t) (p : List Byte) :
    SameOutcome (Related E U) (execEngSetPlugboard p s) (execEngSetPlugboard p t) := by
  simp only [Machine.execEngSetPlugboard]
  split
  · exact (h.withEng (hE.plugboard _ h.eng)).respond .ok []
  · exact h.respond .invalidPlugboard []

theorem Related.execEngEncrypt (hE : EngineCongruence E) (h : Related E U s t) (ch : Byte) :
    SameOutcome (Related E U) (execEngEncrypt ch s) (execEngEncrypt ch t) := by
  have stepped : E (stepEngine s.eng) (stepEngine t.eng) := hE.stepEngine h.eng
  simp only [Machine.execEngEncrypt, hE.configured h.eng]
  split
  · split
    · rw [hE.perm _ stepped]
      exact (h.withEng stepped).respond .ok _
    · exact .fault _
  · exact h.respond .notConfigured []

theorem Related.execEngRotorOffset (hE : EngineCongruence E) (h : Related E U s t) (i : Byte) :
    SameOutcome (Related E U) (execEngRotorOffset i s) (execEngRotorOffset i t) := by
  obtain ⟨off1, off2, off3⟩ := hE.offsets h.eng
  simp only [Machine.execEngRotorOffset, hE.configured h.eng, off1, off2, off3]
  split
  · split
    · exact h.respond .ok _
    · exact h.respond .ok _
    · exact h.respond .ok _
    · exact h.respond .invalidArg []
  · exact h.respond .notConfigured []

/-! ### The PS/2 commands -/

theorem Related.translate (hU : UnitCongruence U) (h : Related E U s t) :
    U (translate s.cfg s.ps2) (translate t.cfg t.ps2) := by
  rw [h.cfg]
  exact hU.translate s.cfg h.ps2

theorem Related.execPs2Available (hU : UnitCongruence U) (h : Related E U s t) :
    SameOutcome (Related E U) (execPs2Available s) (execPs2Available t) := by
  have translated := h.translate hU
  simp only [Machine.execPs2Available, hU.evt translated]
  exact (h.withPs2 translated).respond .ok _

theorem Related.execPs2Read (hU : UnitCongruence U) (h : Related E U s t) :
    SameOutcome (Related E U) (execPs2Read s) (execPs2Read t) := by
  have translated := h.translate hU
  simp only [Machine.execPs2Read, hU.evt translated]
  split
  · exact (h.withPs2 translated).respond .ok _
  · exact (h.withPs2 (hU.setEvt _ translated)).respond .ok _

theorem Related.execPs2SetLock (hU : UnitCongruence U) (h : Related E U s t) (mask : Byte) :
    SameOutcome (Related E U) (execPs2SetLock mask s) (execPs2SetLock mask t) := by
  simp only [Machine.execPs2SetLock, h.txFits hU]
  split
  · exact h.respond .invalidArg []
  · split
    · exact (h.withPs2 (hU.pushTx _ (hU.setLockMask _ h.ps2))).respond .ok []
    · exact h.respond .txQueueFull []

theorem Related.execPs2SetNoBreaks (hU : UnitCongruence U) (h : Related E U s t) (flag : Byte) :
    SameOutcome (Related E U) (execPs2SetNoBreaks flag s) (execPs2SetNoBreaks flag t) := by
  simp only [Machine.execPs2SetNoBreaks]
  split
  · exact (h.withPs2 (hU.setNoBreaks _ h.ps2)).respond .ok []
  · exact h.respond .invalidArg []

theorem Related.execPs2SetNoRepeats (hU : UnitCongruence U) (h : Related E U s t) (flag : Byte) :
    SameOutcome (Related E U) (execPs2SetNoRepeats flag s) (execPs2SetNoRepeats flag t) := by
  simp only [Machine.execPs2SetNoRepeats]
  split
  · exact (h.withPs2 (hU.setNoRepeats _ h.ps2)).respond .ok []
  · exact h.respond .invalidArg []

theorem Related.execPs2Typematic (hU : UnitCongruence U) (h : Related E U s t) (rate delay : Byte) :
    SameOutcome (Related E U) (execPs2Typematic rate delay s) (execPs2Typematic rate delay t) := by
  simp only [Machine.execPs2Typematic]
  split
  · exact h.queueSequence hU _
  · exact h.respond .invalidArg []

/-- Related machines answer every command alike, and stay related. -/
theorem Related.exec (hE : EngineCongruence E) (hU : UnitCongruence U) (h : Related E U s t) (i : Instr) :
    SameOutcome (Related E U) (exec i s) (exec i t) := by
  cases i with
  | engInit => exact h.execEngInit hE _ _ _ _ _ _ _
  | engSetPlugboard p => exact h.execEngSetPlugboard hE p
  | engEncrypt ch => exact h.execEngEncrypt hE ch
  | engRotorOffset n => exact h.execEngRotorOffset hE n
  | ps2Init => exact (h.withPs2 hU.reset).respond .ok []
  | ps2EnableIrq => exact (h.withPs2 (hU.setIrqEn true h.ps2)).respond .ok []
  | ps2DisableIrq => exact (h.withPs2 (hU.setIrqEn false h.ps2)).respond .ok []
  | ps2Available => exact h.execPs2Available hU
  | ps2Read => exact h.execPs2Read hU
  | ps2GetLock =>
    simp only [Machine.exec, execPs2GetLock, hU.lockMask h.ps2]
    exact h.respond .ok _
  | ps2SetLock mask => exact h.execPs2SetLock hU mask
  | ps2SetNoBreaks flag => exact h.execPs2SetNoBreaks hU flag
  | ps2SetNoRepeats flag => exact h.execPs2SetNoRepeats hU flag
  | ps2Echo => exact h.queueSequence hU echoSequence
  | ps2ReadId => exact h.queueSequence hU readIdSequence
  | ps2GetScancodeSet => exact h.queueSequence hU getScancodeSetSequence
  | ps2Typematic rate delay => exact h.execPs2Typematic hU rate delay
  | ps2Reset => exact h.queueSequence hU resetSequence

theorem Related.exchange (hE : EngineCongruence E) (hU : UnitCongruence U) (h : Related E U s t)
    (packet : List Byte) : SameOutcome (Related E U) (exchange packet s) (exchange packet t) := by
  simp only [Machine.exchange]
  split
  · exact h.exec hE hU _
  · exact h.respond .illegalCommand []

end

/-! ### The slow rotor's flag (R26) -/

/-- Two engines that differ in `eng.step_next[2]` at most. -/
def SameButSlowFlag (d e : Engine) : Prop := ∃ v, e = { d with r3 := { d.r3 with stepNext := v } }

theorem SameButSlowFlag.stepDouble {d e : Engine} (h : SameButSlowFlag d e) :
    SameButSlowFlag (stepDouble d) (stepDouble e) := by
  obtain ⟨v, rfl⟩ := h
  simp only [Machine.stepDouble]
  split <;> exact ⟨v, rfl⟩

theorem SameButSlowFlag.carryFast {d e : Engine} (h : SameButSlowFlag d e) :
    SameButSlowFlag (carryFast d) (carryFast e) := by
  obtain ⟨v, rfl⟩ := h
  simp only [Machine.carryFast]
  split <;> exact ⟨v, rfl⟩

/-- The one stage that writes the slow rotor: the flag it reads is R2's. -/
theorem SameButSlowFlag.carryMiddle {d e : Engine} (h : SameButSlowFlag d e) :
    SameButSlowFlag (carryMiddle d) (carryMiddle e) := by
  obtain ⟨v, rfl⟩ := h
  simp only [Machine.carryMiddle, advanceMark_eq]
  split <;> exact ⟨_, rfl⟩

theorem SameButSlowFlag.stepEngine {d e : Engine} (h : SameButSlowFlag d e) :
    SameButSlowFlag (stepEngine d) (stepEngine e) := by
  have fast : SameButSlowFlag (stepFast d) (stepFast e) := by
    obtain ⟨v, rfl⟩ := h
    exact ⟨v, rfl⟩
  exact fast.stepDouble.carryFast.carryMiddle

theorem SameButSlowFlag.congruence : EngineCongruence SameButSlowFlag where
  configured := by rintro d _ ⟨v, rfl⟩; rfl
  offsets := by rintro d _ ⟨v, rfl⟩; exact ⟨rfl, rfl, rfl⟩
  perm c := by rintro ⟨v, rfl⟩; rfl
  configure n1 n2 n3 f o1 o2 o3 := by rintro ⟨v, rfl⟩; exact ⟨false, rfl⟩
  plugboard pb := by rintro ⟨v, rfl⟩; exact ⟨v, rfl⟩
  stepEngine := SameButSlowFlag.stepEngine

/-- Machines related by the flag alone differ in nothing else. -/
theorem Related.eq_of_sameButSlowFlag {s t : State} (h : Related SameButSlowFlag Eq s t) :
    ∃ v, t = { s with eng := { s.eng with r3 := { s.eng.r3 with stepNext := v } } } := by
  obtain ⟨eng, ps2, cfg, inputs, response⟩ := t
  obtain ⟨⟨v, rfl⟩, rfl, rfl, rfl, rfl⟩ := h
  exact ⟨v, rfl⟩

/-- Settles O16: to differ in the flag at most is a relation of engines that every command keeps and no
command sees through. -/
theorem slowRotorFlagIsNeverObserved : Obligations.SlowRotorFlagIsNeverObserved := by
  intro i s b flagged
  have related : Related SameButSlowFlag Eq s (flagged s b) := ⟨⟨b, rfl⟩, rfl, rfl, rfl, rfl⟩
  have same := related.exec SameButSlowFlag.congruence UnitCongruence.eq i
  refine ⟨fun t ht => ?_, fun f hf => same.fault_eq hf⟩
  obtain ⟨_, hu, htu⟩ := same.exists_next ht
  obtain ⟨v, rfl⟩ := htu.eq_of_sameButSlowFlag
  exact ⟨v, hu⟩

end Sys2Proof.Machine
end

section
/-! PROOFS. The four elements of the PS/2 unit that are written and never read (10_state.md R54): two units
that differ in them at most take every byte, edge, sequencer step and command alike. -/

namespace Sys2Proof.Machine

open Host (Outcome)

/-! ### The hidden elements -/

/-- Values of the four elements that R54 says are never visible. -/
structure Hidden where
  rawDrops : BitVec 16
  status : RxStatus
  ack : Bool
  lastMake : Byte

/-- The unit with its hidden elements replaced. -/
def Ps2.withHidden (p : Ps2) (h : Hidden) : Ps2 :=
  { p with
    rawDrops := h.rawDrops
    rx := { p.rx with status := h.status }
    tx := { p.tx with ack := h.ack }
    dec := { p.dec with lastMake := h.lastMake } }

/-- Two units that differ in the hidden elements at most. -/
def SameShown (p q : Ps2) : Prop := ∃ h, q = p.withHidden h

theorem SameShown.refl (p : Ps2) : SameShown p p :=
  ⟨⟨p.rawDrops, p.rx.status, p.tx.ack, p.dec.lastMake⟩, rfl⟩

/-- Two units agree on every element beside the four hidden ones. -/
structure ReadAlike (p q : Ps2) : Prop where
  irqEn : q.irqEn = p.irqEn
  noBreaks : q.noBreaks = p.noBreaks
  noRepeats : q.noRepeats = p.noRepeats
  rx_n : q.rx.n = p.rx.n
  rx_sr : q.rx.sr = p.rx.sr
  rx_par : q.rx.par = p.rx.par
  rx_perr : q.rx.perr = p.rx.perr
  rx_lastMs : q.rx.lastMs = p.rx.lastMs
  dec_e0 : q.dec.e0 = p.dec.e0
  dec_brk : q.dec.brk = p.dec.brk
  dec_e1Rem : q.dec.e1Rem = p.dec.e1Rem
  dec_expected : q.dec.expected = p.dec.expected
  tx_phase : q.tx.phase = p.tx.phase
  tx_byte : q.tx.byte = p.tx.byte
  tx_k : q.tx.k = p.tx.k
  tx_immValid : q.tx.immValid = p.tx.immValid
  tx_immByte : q.tx.immByte = p.tx.immByte
  tx_lastSent : q.tx.lastSent = p.tx.lastSent
  tx_lastValid : q.tx.lastValid = p.tx.lastValid
  line : q.line = p.line
  txq : q.txq = p.txq
  raw : q.raw = p.raw
  evt : q.evt = p.evt
  ks : q.ks = p.ks
  lockMask : q.lockMask = p.lockMask
  lockHeld : q.lockHeld = p.lockHeld

theorem readAlike_withHidden (p : Ps2) (v : Hidden) : ReadAlike p (p.withHidden v) := by
  constructor <;> rfl

theorem SameShown.reads {p q : Ps2} (h : SameShown p q) : ReadAlike p q := by
  obtain ⟨v, rfl⟩ := h
  exact readAlike_withHidden p v

theorem SameShown.ite {p p' q q' : Ps2} {c : Prop} [Decidable c] (h : SameShown p q)
    (h' : SameShown p' q') : SameShown (if c then p else p') (if c then q else q') := by
  split
  · exact h
  · exact h'

theorem sameVisible_iff (s t : State) : SameVisible s t ↔ Related Eq SameShown s t := by
  constructor
  · intro h
    rw [SameVisible] at h
    exact ⟨by rw [h], ⟨⟨_, _, _, _⟩, (congrArg State.ps2 h :)⟩, by rw [h], by rw [h], by rw [h]⟩
  · obtain ⟨eng, ps2, cfg, inputs, response⟩ := t
    rintro ⟨rfl, ⟨h, rfl⟩, rfl, rfl, rfl⟩
    rfl

section
variable {p q : Ps2}

/-! ### The shared operations -/

theorem SameShown.pushTx (h : SameShown p q) (items : List TxItem) :
    SameShown (pushTx items p) (pushTx items q) := by
  obtain ⟨v, rfl⟩ := h
  exact ⟨v, rfl⟩

theorem SameShown.immediate (h : SameShown p q) (b : Byte) :
    SameShown (immediate b p) (immediate b q) := by
  obtain ⟨v, rfl⟩ := h
  exact ⟨v, rfl⟩

theorem SameShown.rxClear (h : SameShown p q) : SameShown (rxClear p) (rxClear q) := by
  obtain ⟨v, rfl⟩ := h
  exact ⟨v, rfl⟩

theorem SameShown.hardReset (h : SameShown p q) : SameShown (hardReset p) (hardReset q) := by
  obtain ⟨v, rfl⟩ := h
  exact ⟨v, rfl⟩

theorem SameShown.oneAnswerFewer (h : SameShown p q) :
    SameShown (oneAnswerFewer p) (oneAnswerFewer q) := by
  obtain ⟨v, rfl⟩ := h
  exact ⟨v, rfl⟩

/-- The drop count is written where there is no room, which it has no say in (R183). -/
theorem SameShown.save (h : SameShown p q) (cfg : Config.Params) (e : RawEntry) :
    SameShown (save cfg e p) (save cfg e q) := by
  simp only [Machine.save, h.reads.raw]
  obtain ⟨v, rfl⟩ := h
  split
  · exact ⟨v, rfl⟩
  · exact ⟨{ v with rawDrops := if v.rawDrops = 0xFFFF then 0xFFFF else v.rawDrops + 1 }, rfl⟩

/-! ### The decoder (R170 to R184) -/

theorem SameShown.decodeEcho (h : SameShown p q) (cfg : Config.Params) :
    SameShown (decodeEcho cfg p) (decodeEcho cfg q) := by
  have saved := h.save cfg (respEntry 0xEE)
  simp only [Machine.decodeEcho, h.reads.tx_lastValid, h.reads.tx_lastSent]
  split
  · exact saved.oneAnswerFewer
  · exact saved.immediate 0xEE

theorem SameShown.decodePause (h : SameShown p q) (cfg : Config.Params) (b : Byte) :
    SameShown (decodePause cfg b p) (decodePause cfg b q) := by
  have counted : SameShown { p with dec := { p.dec with e1Rem := p.dec.e1Rem - 1 } }
      { q with dec := { q.dec with e1Rem := p.dec.e1Rem - 1 } } := by
    obtain ⟨v, rfl⟩ := h
    exact ⟨v, rfl⟩
  simp only [Machine.decodePause, h.reads.dec_e1Rem]
  split
  · exact counted.save cfg (pauseEntry b)
  · exact counted

/-- `dec.last_make` is written here, and only here (R182). -/
theorem SameShown.decodeScanCode (h : SameShown p q) (cfg : Config.Params) (b : Byte) :
    SameShown (decodeScanCode cfg b p) (decodeScanCode cfg b q) := by
  obtain ⟨v, hv⟩ := h.save cfg (keyEntry b p.dec.e0 p.dec.brk)
  unfold Machine.decodeScanCode
  rw [h.reads.dec_e0, h.reads.dec_brk, hv]
  exact ⟨{ v with lastMake := if p.dec.brk then q.dec.lastMake else b }, rfl⟩

theorem SameShown.decodeByte (h : SameShown p q) (cfg : Config.Params) (b : Byte) :
    SameShown (decodeByte cfg b p) (decodeByte cfg b q) := by
  have answered : SameShown { p with dec := { p.dec with expected := 0 } }
      { q with dec := { q.dec with expected := 0 } } := by
    obtain ⟨v, rfl⟩ := h
    exact ⟨v, rfl⟩
  have extended : SameShown { p with dec := { p.dec with e0 := true } }
      { q with dec := { q.dec with e0 := true } } := by
    obtain ⟨v, rfl⟩ := h
    exact ⟨v, rfl⟩
  have pause : SameShown { p with dec := { p.dec with e1Rem := 7, e0 := false, brk := false } }
      { q with dec := { q.dec with e1Rem := 7, e0 := false, brk := false } } := by
    obtain ⟨v, rfl⟩ := h
    exact ⟨v, rfl⟩
  have broken : SameShown { p with dec := { p.dec with brk := true } }
      { q with dec := { q.dec with brk := true } } := by
    obtain ⟨v, rfl⟩ := h
    exact ⟨v, rfl⟩
  unfold Machine.decodeByte
  rw [h.reads.tx_lastValid, h.reads.tx_lastSent, h.reads.dec_e1Rem, h.reads.dec_expected]
  exact .ite (h.hardReset.save cfg _) <| .ite h.hardReset <| .ite (answered.save cfg _) <|
    .ite h.oneAnswerFewer <| .ite (.ite (h.immediate _) h) <| .ite (h.decodeEcho cfg) <|
    .ite (h.decodePause cfg b) <| .ite (h.save cfg _).oneAnswerFewer <| .ite extended <| .ite pause <|
    .ite broken (h.decodeScanCode cfg b)

/-! ### Receiving (R153 to R161): `rx.status` is written alone -/

theorem SameShown.rxWatchdog (h : SameShown p q) (t : BitVec 32) :
    SameShown (rxWatchdog t p) (rxWatchdog t q) := by
  obtain ⟨v, rfl⟩ := h
  obtain ⟨small, hp⟩ | ⟨large, hp⟩ := rxWatchdog_cases t p <;>
    obtain ⟨small', hq⟩ | ⟨large', hq⟩ := rxWatchdog_cases t (p.withHidden v)
  · rw [hp, hq]
    exact ⟨v, rfl⟩
  · exact absurd small (BitVec.not_lt.2 large')
  · exact absurd small' (BitVec.not_lt.2 large)
  · rw [hp, hq]
    exact ⟨{ v with status := if p.rx.n ≠ 0 then .timeoutResync else v.status }, rfl⟩

theorem SameShown.rxStartBit (h : SameShown p q) (d : Bool) :
    SameShown (rxStartBit d p) (rxStartBit d q) := by
  obtain ⟨v, rfl⟩ := h
  simp only [Machine.rxStartBit]
  split
  · exact ⟨{ v with status := .timeoutResync }, rfl⟩
  · exact ⟨v, rfl⟩

theorem SameShown.rxDataBit (h : SameShown p q) (d : Bool) :
    SameShown (rxDataBit d p) (rxDataBit d q) := by
  obtain ⟨v, rfl⟩ := h
  exact ⟨v, rfl⟩

theorem SameShown.rxParityBit (h : SameShown p q) (d : Bool) :
    SameShown (rxParityBit d p) (rxParityBit d q) := by
  simp only [Machine.rxParityBit, h.reads.rx_par]
  obtain ⟨v, rfl⟩ := h
  split <;> exact ⟨v, rfl⟩

theorem SameShown.withStatus (h : SameShown p q) (st : RxStatus) :
    SameShown { p with rx := { p.rx with status := st } } { q with rx := { q.rx with status := st } } := by
  obtain ⟨v, rfl⟩ := h
  exact ⟨{ v with status := st }, rfl⟩

theorem SameShown.rxStopBit (h : SameShown p q) (cfg : Config.Params) :
    SameShown (rxStopBit cfg p) (rxStopBit cfg q) := by
  simp only [Machine.rxStopBit, h.reads.rx_perr, h.reads.rx_sr]
  split
  · exact ((h.withStatus .parityError).immediate 0xFE).rxClear
  · exact (h.withStatus .ok).rxClear.decodeByte cfg _

theorem SameShown.rxBit (h : SameShown p q) (cfg : Config.Params) (d : Bool) :
    SameShown (rxBit cfg d p) (rxBit cfg d q) := by
  simp only [Machine.rxBit, h.reads.rx_n]
  split
  · exact h.rxStartBit d
  split
  · exact h.rxDataBit d
  split
  · exact h.rxParityBit d
  · exact h.rxStopBit cfg

theorem SameShown.rxFall (h : SameShown p q) (cfg : Config.Params) (d : Bool) (t : BitVec 32) :
    SameShown (rxFall cfg d t p) (rxFall cfg d t q) := by
  refine SameShown.rxBit ?_ cfg d
  obtain ⟨v, hv⟩ := h.rxWatchdog t
  rw [hv]
  exact ⟨v, rfl⟩

/-! ### Transmitting (R216 to R224) -/

/-- `tx.ack` is written at the last edge, and only there (R222). -/
theorem SameShown.txEdge (h : SameShown p q) (d : Bool) : SameShown (txEdge d p) (txEdge d q) := by
  simp only [Machine.txEdge, h.reads.tx_k, h.reads.tx_byte]
  obtain ⟨v, rfl⟩ := h
  split
  · exact ⟨v, rfl⟩
  split
  · exact ⟨v, rfl⟩
  split
  · exact ⟨v, rfl⟩
  · exact ⟨{ v with ack := !d }, rfl⟩

theorem SameShown.stepTxStart (h : SameShown p q) : SameShown (stepTxStart p) (stepTxStart q) := by
  have guard : txStartEnabled q = txStartEnabled p := by
    obtain ⟨v, rfl⟩ := h
    rfl
  simp only [Machine.stepTxStart, guard, txStart, h.reads.tx_immValid, h.reads.txq]
  obtain ⟨v, rfl⟩ := h
  split
  · split
    · exact ⟨v, rfl⟩
    · split <;> exact ⟨v, rfl⟩
  · exact ⟨v, rfl⟩

theorem SameShown.stepTxInhibit (h : SameShown p q) :
    SameShown (stepTxInhibit p) (stepTxInhibit q) := by
  simp only [Machine.stepTxInhibit, h.reads.irqEn, h.reads.tx_phase]
  obtain ⟨v, rfl⟩ := h
  split <;> exact ⟨v, rfl⟩

theorem SameShown.stepTxRelease (h : SameShown p q) :
    SameShown (stepTxRelease p) (stepTxRelease q) := by
  simp only [Machine.stepTxRelease, h.reads.irqEn, h.reads.tx_phase]
  obtain ⟨v, rfl⟩ := h
  split <;> exact ⟨v, rfl⟩

theorem SameShown.busFall (h : SameShown p q) (cfg : Config.Params) (d : Bool) (t : BitVec 32) :
    SameShown (busFall cfg d t p) (busFall cfg d t q) := by
  simp only [Machine.busFall, fallingEdge, dataLevel, h.reads.irqEn, h.reads.tx_phase, h.reads.line]
  split
  · split
    · exact h.txEdge _
    · exact h
    · exact h
    · exact h.rxFall cfg _ t
  · exact h

end

/-! ### Translation (R190 to R202) neither reads nor writes them -/

/-- The translation with the hidden elements of its state replaced. -/
def Translated.withHidden (v : Hidden) : Translated → Translated
  | .stall => .stall
  | .ignore p => .ignore (p.withHidden v)
  | .event ev p => .event ev (p.withHidden v)

theorem emitBreak_withHidden (code : KeyCode) (p : Ps2) (v : Hidden) :
    emitBreak code (p.withHidden v) = (emitBreak code p).withHidden v := by
  simp only [emitBreak, (readAlike_withHidden p v).noBreaks]
  split <;> rfl

theorem translateLock_withHidden (cfg : Config.Params) (k : LockKey) (code : KeyCode) (brk : Bool)
    (p : Ps2) (v : Hidden) :
    translateLock cfg k code brk (p.withHidden v) = (translateLock cfg k code brk p).withHidden v := by
  have fits (items : List TxItem) : txFits cfg items (p.withHidden v) = txFits cfg items p := rfl
  have reads := readAlike_withHidden p v
  simp only [translateLock, fits, reads.lockHeld, reads.noRepeats, reads.lockMask]
  split
  · exact emitBreak_withHidden code { p with lockHeld := setHeld k false p.lockHeld } v
  · split <;> split <;> rfl

theorem translateModifier_withHidden (m : ModKey) (code : KeyCode) (brk : Bool) (p : Ps2)
    (v : Hidden) :
    translateModifier m code brk (p.withHidden v) = (translateModifier m code brk p).withHidden v := by
  have reads := readAlike_withHidden p v
  simp only [translateModifier, reads.noRepeats, reads.ks]
  split
  · exact emitBreak_withHidden code { p with ks := setMod m false p.ks } v
  · split <;> rfl

theorem translatePlain_withHidden (cfg : Config.Params) (code : KeyCode) (brk : Bool) (p : Ps2)
    (v : Hidden) :
    translatePlain cfg code brk (p.withHidden v) = (translatePlain cfg code brk p).withHidden v := by
  have remapped : remapKeypad cfg code (p.withHidden v) = remapKeypad cfg code p := rfl
  simp only [translatePlain, remapped]
  split
  · rfl
  · split
    · exact emitBreak_withHidden _ p v
    · rfl

theorem translateOne_withHidden (cfg : Config.Params) (e : RawEntry) (p : Ps2) (v : Hidden) :
    translateOne cfg e (p.withHidden v) = (translateOne cfg e p).withHidden v := by
  simp only [translateOne]
  split
  · rfl
  split
  · rfl
  split
  · exact translateLock_withHidden cfg _ _ _ p v
  split
  · exact translateModifier_withHidden _ _ _ p v
  · exact translatePlain_withHidden cfg _ _ p v

theorem translateEntries_withHidden (cfg : Config.Params) (entries : List RawEntry) (p : Ps2)
    (v : Hidden) :
    translateEntries cfg entries (p.withHidden v) = (translateEntries cfg entries p).withHidden v := by
  induction entries generalizing p with
  | nil => rfl
  | cons e rest ih =>
    simp only [translateEntries, translateOne_withHidden, (readAlike_withHidden p v).evt]
    split
    · cases translateOne cfg e p with
      | stall => rfl
      | ignore q => exact ih q
      | event ev q => exact ih { q with evt := q.evt ++ [ev] }
    · rfl

theorem SameShown.translate {p q : Ps2} (h : SameShown p q) (cfg : Config.Params) :
    SameShown (translate cfg p) (translate cfg q) := by
  obtain ⟨v, rfl⟩ := h
  exact ⟨v, translateEntries_withHidden cfg p.raw p v⟩

/-! ### The statement -/

theorem SameShown.congruence : UnitCongruence SameShown where
  evt h := h.reads.evt
  txq h := h.reads.txq
  lockMask h := h.reads.lockMask
  reset := .refl Ps2.reset
  setIrqEn x := by rintro ⟨v, rfl⟩; exact ⟨v, rfl⟩
  setNoBreaks x := by rintro ⟨v, rfl⟩; exact ⟨v, rfl⟩
  setNoRepeats x := by rintro ⟨v, rfl⟩; exact ⟨v, rfl⟩
  setEvt l := by rintro ⟨v, rfl⟩; exact ⟨v, rfl⟩
  setLockMask m := by rintro ⟨v, rfl⟩; exact ⟨v, rfl⟩
  pushTx items h := h.pushTx items
  translate cfg h := h.translate cfg

/-- Machines that show the same take the same agent's step alike. -/
theorem deliver_sameShown {s t : State} (h : Related Eq SameShown s t) (a : AgentStep) :
    SameOutcome (Related Eq SameShown) (deliver a s) (deliver a t) := by
  cases a with
  | command packet => exact h.exchange EngineCongruence.eq SameShown.congruence packet
  | fall d ms =>
    have fallen : SameShown (busFall s.cfg d ms s.ps2) (busFall t.cfg d ms t.ps2) := by
      rw [h.cfg]
      exact h.ps2.busFall s.cfg d ms
    exact .next (h.withPs2 fallen)
  | rise => exact .next h
  | txStart => exact .next (h.withPs2 h.ps2.stepTxStart)
  | txInhibit => exact .next (h.withPs2 h.ps2.stepTxInhibit)
  | txRelease => exact .next (h.withPs2 h.ps2.stepTxRelease)

theorem step_sameShown {s t : State} (h : Related Eq SameShown s t) :
    SameOutcome (Related Eq SameShown) (step s) (step t) := by
  simp only [step, takeStep, h.inputs]
  split
  · exact .next h
  · exact deliver_sameShown (h.withInputs _) _

/-- Settles O58: to show the same is a relation of units that every step keeps and no step sees through. -/
theorem hiddenCountersAreNeverObserved : Obligations.HiddenCountersAreNeverObserved := by
  intro s t h
  have same := step_sameShown ((sameVisible_iff s t).1 h)
  refine ⟨fun s' hs => ?_, fun f hf => same.fault_eq hf⟩
  obtain ⟨t', ht, related⟩ := same.exists_next hs
  exact ⟨t', ht, (sameVisible_iff s' t').2 related⟩

end Sys2Proof.Machine
end

section
/-! PROOFS. The port's encoding (30_encoding.md R86, R88 to R90): a packet decodes to a command exactly when
it is that command's encoding, so decoding and encoding invert each other and every other packet is answered
IllegalCommand. -/

namespace Sys2Proof.Machine

open Host (Outcome)

/-! ### R88's map -/

/-- Column L of R88's map, read as `packetLength` and as a list, is one table. -/
theorem packetLength_eq_some_iff (op : Byte) (n : Nat) :
    packetLength op = some n ↔ (op, n) ∈ opcodeMap := by
  constructor
  · intro h
    simp only [packetLength] at h
    split at h
    case h_19 => cases h
    all_goals
      rename_i hop
      cases h
      rw [byte_eq_ofNat hop]
      decide
  · have rows : ∀ row ∈ opcodeMap, packetLength row.1 = some row.2 := by decide
    exact rows (op, n)

/-- The encoding of a command has the length R88 gives its opcode. -/
theorem encode_length (i : Instr) : Laws.EncodeLength.Statement i := by
  cases i with
  | engInit => exact Laws.EncodeLength.engInit _ _ _ _ _ _ _
  | engSetPlugboard => exact Laws.EncodeLength.engSetPlugboard _
  | engEncrypt => exact Laws.EncodeLength.engEncrypt _
  | engRotorOffset => exact Laws.EncodeLength.engRotorOffset _
  | ps2Init => exact Laws.EncodeLength.ps2Init
  | ps2EnableIrq => exact Laws.EncodeLength.ps2EnableIrq
  | ps2DisableIrq => exact Laws.EncodeLength.ps2DisableIrq
  | ps2Available => exact Laws.EncodeLength.ps2Available
  | ps2Read => exact Laws.EncodeLength.ps2Read
  | ps2GetLock => exact Laws.EncodeLength.ps2GetLock
  | ps2SetLock => exact Laws.EncodeLength.ps2SetLock _
  | ps2SetNoBreaks => exact Laws.EncodeLength.ps2SetNoBreaks _
  | ps2SetNoRepeats => exact Laws.EncodeLength.ps2SetNoRepeats _
  | ps2Echo => exact Laws.EncodeLength.ps2Echo
  | ps2ReadId => exact Laws.EncodeLength.ps2ReadId
  | ps2GetScancodeSet => exact Laws.EncodeLength.ps2GetScancodeSet
  | ps2Typematic => exact Laws.EncodeLength.ps2Typematic _ _
  | ps2Reset => exact Laws.EncodeLength.ps2Reset

/-! ### Operands -/

/-- The packet is the one that stands for the command, which is well formed. -/
def IsPacketOf (i : Instr) (packet : List Byte) : Prop := i.wellFormed = true ∧ encode i = packet

theorem isPacketOf_of_noOperand {op : Byte} {args : List Byte} {i j : Instr}
    (packet : IsPacketOf i [op]) (h : noOperand i args = some j) : IsPacketOf j (op :: args) := by
  obtain ⟨rfl, rfl⟩ := noOperand_eq_some h
  exact packet

theorem isPacketOf_of_oneOperand {op : Byte} {args : List Byte} {f : Byte → Instr} {j : Instr}
    (packet : ∀ a, IsPacketOf (f a) [op, a]) (h : oneOperand f args = some j) :
    IsPacketOf j (op :: args) := by
  obtain ⟨a, rfl, rfl⟩ := oneOperand_eq_some h
  exact packet a

theorem isPacketOf_of_twoOperands {op : Byte} {args : List Byte} {f : Byte → Byte → Instr} {j : Instr}
    (packet : ∀ a b, IsPacketOf (f a b) [op, a, b]) (h : twoOperands f args = some j) :
    IsPacketOf j (op :: args) := by
  obtain ⟨a, b, rfl, rfl⟩ := twoOperands_eq_some h
  exact packet a b

theorem isPacketOf_of_initOperands {args : List Byte} {j : Instr} (h : initOperands args = some j) :
    IsPacketOf j (0x01 :: args) := by
  obtain ⟨_, _, _, _, _, _, _, rfl, rfl⟩ := initOperands_eq_some h
  exact ⟨rfl, rfl⟩

theorem isPacketOf_of_plugboardOperands {args : List Byte} {j : Instr}
    (h : plugboardOperands args = some j) : IsPacketOf j (0x02 :: args) := by
  obtain ⟨hl, rfl⟩ := plugboardOperands_eq_some h
  exact ⟨by simp [Instr.wellFormed, hl], rfl⟩

/-- The 18 rows of R88: the operands an opcode takes are those its command's encoding puts after it. -/
theorem isPacketOf_of_commandOf {op : Byte} {args : List Byte} {i : Instr}
    (h : commandOf op args = some i) : IsPacketOf i (op :: args) := by
  simp only [commandOf] at h
  split at h
  case h_19 => cases h
  all_goals rename_i hop; rw [byte_eq_ofNat hop]
  · exact isPacketOf_of_initOperands h
  · exact isPacketOf_of_plugboardOperands h
  · exact isPacketOf_of_oneOperand (fun _ => ⟨rfl, rfl⟩) h
  · exact isPacketOf_of_oneOperand (fun _ => ⟨rfl, rfl⟩) h
  · exact isPacketOf_of_noOperand ⟨rfl, rfl⟩ h
  · exact isPacketOf_of_noOperand ⟨rfl, rfl⟩ h
  · exact isPacketOf_of_noOperand ⟨rfl, rfl⟩ h
  · exact isPacketOf_of_noOperand ⟨rfl, rfl⟩ h
  · exact isPacketOf_of_noOperand ⟨rfl, rfl⟩ h
  · exact isPacketOf_of_noOperand ⟨rfl, rfl⟩ h
  · exact isPacketOf_of_oneOperand (fun _ => ⟨rfl, rfl⟩) h
  · exact isPacketOf_of_oneOperand (fun _ => ⟨rfl, rfl⟩) h
  · exact isPacketOf_of_oneOperand (fun _ => ⟨rfl, rfl⟩) h
  · exact isPacketOf_of_noOperand ⟨rfl, rfl⟩ h
  · exact isPacketOf_of_noOperand ⟨rfl, rfl⟩ h
  · exact isPacketOf_of_noOperand ⟨rfl, rfl⟩ h
  · exact isPacketOf_of_twoOperands (fun _ _ => ⟨rfl, rfl⟩) h
  · exact isPacketOf_of_noOperand ⟨rfl, rfl⟩ h

/-! ### Decoding -/

/-- A packet that decodes passed both checks of R89. -/
theorem commandOf_of_decode {packet : List Byte} {i : Instr} (h : decode packet = .ok i) :
    ∃ op args, packet = op :: args ∧ commandOf op args = some i := by
  cases packet with
  | nil => cases h
  | cons op args =>
    refine ⟨op, args, rfl, ?_⟩
    simp only [decode] at h
    split at h
    · cases h
    · split at h <;> cases h
      assumption

/-- Decoding reads back every operand of every row of R88. -/
theorem decode_encode {i : Instr} (h : i.wellFormed = true) : decode (encode i) = .ok i := by
  cases i with
  | engSetPlugboard p =>
    have hl : p.length = 26 := by simpa [Instr.wellFormed] using h
    have operands : commandOf 0x02 p = some (.engSetPlugboard p) := if_pos hl
    change decode (0x02 :: p) = _
    simp only [decode, operands]
    rfl
  | _ => rfl

theorem decode_eq_ok_iff (packet : List Byte) (i : Instr) :
    decode packet = .ok i ↔ IsPacketOf i packet := by
  constructor
  · intro h
    obtain ⟨op, args, rfl, hc⟩ := commandOf_of_decode h
    exact isPacketOf_of_commandOf hc
  · rintro ⟨hw, rfl⟩
    exact decode_encode hw

/-- The packets of commands have an opcode and length of R88's map. -/
theorem IsPacketOf.mem_opcodeMap {i : Instr} {op : Byte} {args : List Byte}
    (h : IsPacketOf i (op :: args)) : (op, args.length + 1) ∈ opcodeMap := by
  obtain ⟨hw, henc⟩ := h
  obtain ⟨op', args', henc', hl⟩ := encode_length i hw
  obtain ⟨rfl, rfl⟩ := List.cons.inj (henc'.symm.trans henc)
  exact (packetLength_eq_some_iff _ _).1 hl

/-! ### The exchange -/

theorem exchange_of_decode_ok {packet : List Byte} {i : Instr} (h : decode packet = .ok i) (s : State) :
    exchange packet s = exec i s := by
  simp only [exchange, h]

/-- A packet of no command is answered 0F, and changes nothing else (R89, R108). -/
theorem exchange_of_not_isPacketOf {packet : List Byte} (h : ∀ i, ¬ IsPacketOf i packet) (s : State) :
    exchange packet s = .next { s with response := [0x0F] } := by
  obtain ⟨i, hd, -⟩ | ⟨-, ho⟩ := exchange_cases (packet := packet) (s := s) rfl
  · exact absurd ((decode_eq_ok_iff packet i).1 hd) (h i)
  · exact ho

/-- A step whose oldest pending input is a packet exchanges it. -/
theorem step_command (s : State) (packet : List Byte) (rest : List AgentStep) :
    step { s with inputs := .command packet :: rest } = exchange packet { s with inputs := rest } := rfl

/-! ### The statements -/

/-- Settles O1: row by row of R88; only the 26 operands of ENG_SET_PLUGBOARD need the command to be well
formed. -/
theorem decodeInvertsEncode : Obligations.DecodeInvertsEncode := fun _ hw => decode_encode hw

/-- Settles O2: the rows of `commandOf` read the operands that `encode` writes. -/
theorem decodedPacketIsTheEncoding : Obligations.DecodedPacketIsTheEncoding :=
  fun packet i h => (decode_eq_ok_iff packet i).1 h

/-- Settles O5: such a packet is the encoding of no command. -/
theorem illegalPacketIsAnsweredAndChangesNothing :
    Obligations.IllegalPacketIsAnsweredAndChangesNothing :=
  ⟨fun _ => rfl, fun _ _ s hmap => exchange_of_not_isPacketOf (fun _ h => hmap h.mem_opcodeMap) s⟩

/-- Settles O3: each packet is the encoding of its command, the last as the opcode table's word. -/
theorem writtenPacketsDecode : Obligations.WrittenPacketsDecode := by
  have tableWord : tablePacket 8 0x1D = encode .ps2Reset := by decide
  refine ⟨decode_encode (i := .engInit 3 2 1 1 0 0 0) rfl, decode_encode (i := .engEncrypt 0x41) rfl,
    decode_encode (i := .ps2Read) rfl, decode_encode (i := .ps2Typematic 0x0B 0x01) rfl, ?_⟩
  simp only [decodeTableWord, tableWord, decode_encode (i := .ps2Reset) rfl]

/-- Settles O4: the step exchanges the packet, and the exchange runs the command it decodes to. -/
theorem stepRunsTheDecodedCommand : Obligations.StepRunsTheDecodedCommand := by
  intro s packet rest i hd _
  exact (step_command s packet rest).trans (exchange_of_decode_ok hd _)

end Sys2Proof.Machine
end

section
/-! PROOFS. The raw ring and the event ring between any two steps (30_encoding.md R104, R105): the decoder
saves only the entries of R170, and no such entry translates to the event 0x0000. -/

namespace Sys2Proof.Machine

/-! ### Saving sound entries -/

/-- Every raw entry of `q` was in `p` or is one the decoder can make. -/
def SavesOnlySound (p q : Ps2) : Prop := ∀ e ∈ q.raw, e ∈ p.raw ∨ e.Sound

theorem savesOnlySound_of_raw_eq {p q : Ps2} (h : q.raw = p.raw) : SavesOnlySound p q :=
  fun _ he => .inl (h ▸ he)

theorem savesOnlySound_save {cfg : Config.Params} {e : RawEntry} {p q r : Ps2} (he : e.Sound)
    (hq : q.raw = p.raw) (hr : r.raw = (save cfg e q).raw) : SavesOnlySound p r := by
  intro x hx
  obtain hx | rfl := mem_save_raw cfg e x q (hr ▸ hx)
  · exact .inl (hq ▸ hx)
  · exact .inr he

theorem respEntry_sound {b : Byte} (key : b ≠ 0x00) (ack : b ≠ 0xFA) (resend : b ≠ 0xFE) :
    (respEntry b).Sound where
  response _ := ⟨rfl, rfl, rfl, key, ack, resend⟩
  pause h := nomatch h
  notAnswer h := nomatch h
  notPrefix h := nomatch h

theorem pauseEntry_sound {b : Byte} (h : isProtocolByte b = false) : (pauseEntry b).Sound where
  response h := nomatch h
  pause _ := ⟨rfl, rfl, rfl⟩
  notAnswer _ := h
  notPrefix _ h := nomatch h

theorem keyEntry_sound {b : Byte} (e0 brk : Bool) (answer : isProtocolByte b = false)
    (sequence : isSequenceByte b = false) : (keyEntry b e0 brk).Sound where
  response h := nomatch h
  pause h := nomatch h
  notAnswer _ := answer
  notPrefix _ _ := sequence

/-! ### The decoder (R170 to R182) -/

theorem isProtocolByte_iff (b : Byte) : isProtocolByte b = true ↔
    b = 0xFF ∨ b = 0x00 ∨ (b = 0xAA ∨ b = 0xFC) ∨ b = 0xFA ∨ b = 0xFE ∨ b = 0xEE := by
  simp [isProtocolByte, or_assoc]

theorem isProtocolByte_eq_false_iff (b : Byte) : isProtocolByte b = false ↔
    b ≠ 0xFF ∧ b ≠ 0x00 ∧ ¬ (b = 0xAA ∨ b = 0xFC) ∧ b ≠ 0xFA ∧ b ≠ 0xFE ∧ b ≠ 0xEE := by
  simp [isProtocolByte, and_assoc]

theorem isSequenceByte_eq_false_iff (b : Byte) :
    isSequenceByte b = false ↔ b ≠ 0xE0 ∧ b ≠ 0xE1 ∧ b ≠ 0xF0 := by
  simp [isSequenceByte, and_assoc]

theorem decodeEcho_savesOnlySound (cfg : Config.Params) (p : Ps2) :
    SavesOnlySound p (decodeEcho cfg p) := by
  have sound : (respEntry 0xEE).Sound := respEntry_sound (by decide) (by decide) (by decide)
  simp only [decodeEcho]
  split <;> exact savesOnlySound_save (cfg := cfg) (q := p) sound rfl rfl

theorem decodePause_savesOnlySound (cfg : Config.Params) {b : Byte} (h : isProtocolByte b = false)
    (p : Ps2) : SavesOnlySound p (decodePause cfg b p) := by
  simp only [decodePause]
  split
  · exact savesOnlySound_save (cfg := cfg) (q := { p with dec := { p.dec with e1Rem := p.dec.e1Rem - 1 } })
      (pauseEntry_sound h) rfl rfl
  · exact savesOnlySound_of_raw_eq rfl

theorem decodeResponse_savesOnlySound (cfg : Config.Params) {b : Byte} (h : isProtocolByte b = false)
    (p : Ps2) : SavesOnlySound p (decodeResponse cfg b p) := by
  obtain ⟨-, error, -, ack, resend, -⟩ := (isProtocolByte_eq_false_iff b).1 h
  exact savesOnlySound_save (cfg := cfg) (q := p) (respEntry_sound error ack resend) rfl rfl

theorem decodeScanCode_savesOnlySound (cfg : Config.Params) {b : Byte} (answer : isProtocolByte b = false)
    (sequence : isSequenceByte b = false) (p : Ps2) : SavesOnlySound p (decodeScanCode cfg b p) :=
  savesOnlySound_save (cfg := cfg) (q := p) (keyEntry_sound p.dec.e0 p.dec.brk answer sequence) rfl rfl

/-- Of the device answers, OVERRUN, BAT and ECHO save themselves as responses, and key error, ACK and RESEND
save nothing. -/
theorem decodeByte_savesOnlySound_of_protocol (cfg : Config.Params) {b : Byte}
    (h : isProtocolByte b = true) (p : Ps2) : SavesOnlySound p (decodeByte cfg b p) := by
  obtain rfl | rfl | rfl | rfl | rfl | rfl | rfl := by simpa only [isProtocolByte_iff, or_assoc] using h
  · exact savesOnlySound_save (cfg := cfg) (q := hardReset p)
      (respEntry_sound (b := 0xFF) (by decide) (by decide) (by decide)) rfl rfl
  · exact savesOnlySound_of_raw_eq rfl
  · exact savesOnlySound_save (cfg := cfg) (q := { p with dec := { p.dec with expected := 0 } })
      (respEntry_sound (b := 0xAA) (by decide) (by decide) (by decide)) rfl rfl
  · exact savesOnlySound_save (cfg := cfg) (q := { p with dec := { p.dec with expected := 0 } })
      (respEntry_sound (b := 0xFC) (by decide) (by decide) (by decide)) rfl rfl
  · exact savesOnlySound_of_raw_eq rfl
  · change SavesOnlySound p (if p.tx.lastValid then immediate p.tx.lastSent p else p)
    split <;> exact savesOnlySound_of_raw_eq rfl
  · exact decodeEcho_savesOnlySound cfg p

/-- A byte that is no device answer continues a Pause sequence, answers a command, starts a key sequence, or
is a scan code. -/
theorem decodeByte_cases_of_not_protocol (cfg : Config.Params) {b : Byte} (h : isProtocolByte b = false)
    (p : Ps2) :
    decodeByte cfg b p = decodePause cfg b p ∨ decodeByte cfg b p = decodeResponse cfg b p ∨
      (∃ dec, decodeByte cfg b p = { p with dec := dec }) ∨
      (isSequenceByte b = false ∧ decodeByte cfg b p = decodeScanCode cfg b p) := by
  obtain ⟨overrun, error, bat, ack, resend, echo⟩ := (isProtocolByte_eq_false_iff b).1 h
  simp only [decodeByte, if_neg overrun, if_neg error, if_neg bat, if_neg ack, if_neg resend, if_neg echo]
  split_ifs with pause owed e0 e1 f0
  · exact .inl rfl
  · exact .inr (.inl rfl)
  · exact .inr (.inr (.inl ⟨_, rfl⟩))
  · exact .inr (.inr (.inl ⟨_, rfl⟩))
  · exact .inr (.inr (.inl ⟨_, rfl⟩))
  · exact .inr (.inr (.inr ⟨(isSequenceByte_eq_false_iff b).2 ⟨e0, e1, f0⟩, rfl⟩))

theorem decodeByte_savesOnlySound (cfg : Config.Params) (b : Byte) (p : Ps2) :
    SavesOnlySound p (decodeByte cfg b p) := by
  by_cases h : isProtocolByte b = true
  · exact decodeByte_savesOnlySound_of_protocol cfg h p
  rw [Bool.not_eq_true] at h
  obtain hd | hd | ⟨dec, hd⟩ | ⟨sequence, hd⟩ := decodeByte_cases_of_not_protocol cfg h p <;> rw [hd]
  · exact decodePause_savesOnlySound cfg h p
  · exact decodeResponse_savesOnlySound cfg h p
  · exact savesOnlySound_of_raw_eq rfl
  · exact decodeScanCode_savesOnlySound cfg h sequence p

/-! ### The unit's steps -/

theorem RingsSound.decodeByte (cfg : Config.Params) (b : Byte) {p : Ps2} (h : RingsSound p) :
    RingsSound (decodeByte cfg b p) := by
  obtain ⟨raw, evt⟩ := h
  refine ⟨fun e he => ?_, (decodeByte_keeps cfg b p).evt ▸ evt⟩
  obtain he | sound := decodeByte_savesOnlySound cfg b p e he
  · exact raw e he
  · exact sound

theorem RingsSound.busFall (cfg : Config.Params) (d : Bool) (t : BitVec 32) {p : Ps2}
    (h : RingsSound p) : RingsSound (busFall cfg d t p) := by
  obtain hb | ⟨-, -, hb⟩ | ⟨-, -, hb⟩ := busFall_cases cfg d t p <;> rw [hb]
  · exact h
  · obtain ⟨-, v, he⟩ | ⟨-, he⟩ := txEdge_cases (dataLevel d p) p <;> rw [he] <;> exact h
  · obtain ⟨rx, -, hw | hw | ⟨b, hw⟩⟩ := rxFall_writes cfg (dataLevel d p) t p <;> rw [hw]
    · exact h
    · exact h
    · exact RingsSound.decodeByte cfg b (p := { p with rx := rx }) h

theorem RingsSound.stepTxStart {p : Ps2} (h : RingsSound p) : RingsSound (stepTxStart p) := by
  obtain hs | ⟨-, ⟨-, hs⟩ | ⟨b, rest, -, -, hs⟩⟩ := stepTxStart_cases p <;> rw [hs] <;> exact h

theorem RingsSound.stepTxInhibit {p : Ps2} (h : RingsSound p) : RingsSound (stepTxInhibit p) := by
  obtain hs | ⟨-, -, hs⟩ := stepTxInhibit_cases p <;> rw [hs] <;> exact h

theorem RingsSound.stepTxRelease {p : Ps2} (h : RingsSound p) : RingsSound (stepTxRelease p) := by
  obtain hs | ⟨-, -, hs⟩ := stepTxRelease_cases p <;> rw [hs] <;> exact h

/-! ### Translation (R190 to R202) -/

/-- A response of byte 0x00 is the one entry whose event would be 0x0000, and no sound entry is one. -/
theorem RawEntry.Sound.not_response_zero {e : RawEntry} (h : e.Sound) :
    ¬ (e.resp = true ∧ e.byte = 0) := by
  rintro ⟨resp, zero⟩
  obtain ⟨-, -, -, nonzero, -, -⟩ := h.response resp
  exact nonzero zero

theorem translateEntries_events_ne_zero (cfg : Config.Params) (entries : List RawEntry)
    (sound : ∀ e ∈ entries, e.Sound) (p : Ps2) (hp : ∀ ev ∈ p.evt, ev ≠ 0) :
    ∀ ev ∈ (translateEntries cfg entries p).evt, ev ≠ 0 := by
  induction entries generalizing p with
  | nil => exact hp
  | cons e rest ih =>
    obtain ⟨he, hrest⟩ := List.forall_mem_cons.1 sound
    have good := translateOne_good cfg e p
    simp only [translateEntries]
    split
    · split
      · exact hp
      · rename_i q heq
        rw [heq] at good
        cases good with
        | ignore _ keeps => exact ih hrest q (keeps.evt ▸ hp)
      · rename_i ev q heq
        rw [heq] at good
        cases good with
        | event _ _ keeps nonzero =>
          have hev : ev ≠ 0 := nonzero.resolve_left he.not_response_zero
          refine ih hrest _ fun x hx => ?_
          obtain hx | hx := List.mem_append.1 hx
          · exact hp x (keeps.evt ▸ hx)
          · exact List.mem_singleton.1 hx ▸ hev
    · exact hp

theorem RingsSound.translate (cfg : Config.Params) {p : Ps2} (h : RingsSound p) :
    RingsSound (translate cfg p) := by
  obtain ⟨raw, evt⟩ := h
  exact ⟨fun e he => raw e ((translateEntries_raw_suffix cfg p.raw p).mem he),
    translateEntries_events_ne_zero cfg p.raw raw p evt⟩

/-- PS2_READ takes an event off its ring (R239). -/
theorem RingsSound.pop {p : Ps2} {ev : KeyEvent} {rest : List KeyEvent} (hevt : p.evt = ev :: rest)
    (h : RingsSound p) : RingsSound { p with evt := rest } :=
  ⟨h.1, fun x hx => h.2 x (hevt ▸ List.mem_cons_of_mem ev hx)⟩

/-! ### The statement -/

theorem ringsSound_reset : RingsSound Ps2.reset :=
  ⟨fun _ h => absurd h List.not_mem_nil, fun _ h => absurd h List.not_mem_nil⟩

/-- Settles O53: the decoder saves only sound entries, and translation turns sound entries into nonzero
events; nothing else adds to either ring. -/
theorem stepKeepsTheRingsSound : Obligations.StepKeepsTheRingsSound := fun _ _ hs h =>
  step_keeps_unit (I := RingsSound) ringsSound_reset (fun _ _ _ _ hp => hp)
    (fun cfg _ hp => hp.translate cfg) (fun _ _ _ hevt hp => hp.pop hevt) (fun _ _ _ _ hp => hp)
    (fun cfg d t _ hp => hp.busFall cfg d t) (fun _ hp => hp.stepTxStart) (fun _ hp => hp.stepTxInhibit)
    (fun _ hp => hp.stepTxRelease) hs h

end Sys2Proof.Machine
end

section
/-! PROOFS. The answers owed between any two steps (30_encoding.md R98, 44_ps2_transmit.md R217; log entry
14): no sequence of R98 awaits more than three for one byte, and queueing, sending and answering never join
two runs of placeholders. -/

namespace Sys2Proof.Machine

/-! ### Runs of placeholders -/

/-- No byte of the queue awaits four answers. -/
def RunsBounded (q : List TxItem) : Prop := ¬ List.replicate 4 TxItem.ign <:+: q

theorem RunsBounded.of_infix {q items : List TxItem} (h : RunsBounded items) (hq : q <:+: items) :
    RunsBounded q := fun run => h (run.trans hq)

theorem RunsBounded.nil : RunsBounded [] := by
  unfold RunsBounded
  decide

theorem RunsBounded.of_count {q : List TxItem} (h : q.count .ign ≤ 3) : RunsBounded q := by
  intro run
  have four := run.sublist.count_le .ign
  rw [List.count_replicate_self] at four
  omega

/-- A sequence of placeholders cannot run on into a queue that starts with a command. -/
theorem eq_nil_of_replicate_ign_prefix {n : Nat} {items : List TxItem} (head : HeadIsCommand items)
    (h : List.replicate n TxItem.ign <+: items) : n = 0 := by
  cases n with
  | zero => rfl
  | succ n =>
    obtain ⟨rest, rfl⟩ := h
    exact absurd rfl head

/-- Appending what starts with a command joins no two runs. -/
theorem RunsBounded.append {q items : List TxItem} (hq : RunsBounded q) (hi : RunsBounded items)
    (head : HeadIsCommand items) : RunsBounded (q ++ items) := by
  intro run
  obtain run | run | ⟨l₁, l₂, joined, ends, starts⟩ := List.infix_append_iff.1 run
  · exact hq run
  · exact hi run
  · obtain ⟨-, -, h₂⟩ := List.append_eq_replicate_iff.1 joined.symm
    rw [h₂] at starts
    have none : l₂ = [] := List.length_eq_zero_iff.1 (eq_nil_of_replicate_ign_prefix head starts)
    rw [none, List.append_nil] at joined
    exact hq (joined ▸ ends.isInfix)

/-- The sequences of R98 hold at most three placeholders each. -/
theorem IsSequence.count_ign_le {items : List TxItem} (h : IsSequence items) : items.count .ign ≤ 3 := by
  cases h with
  | led mask => simp [ledSequence]
  | typematic p => simp [typematicSequence]
  | echo | readId | getScancodeSet | reset => decide

theorem RunsBounded.append_sequence {q items : List TxItem} (hq : RunsBounded q) (hi : IsSequence items) :
    RunsBounded (q ++ items) :=
  hq.append (.of_count hi.count_ign_le) hi.headIsCommand

/-- The placeholders taken with a command are one run. -/
theorem RunsBounded.takeWhile_length_le {q : List TxItem} (h : RunsBounded q) :
    (q.takeWhile isIgn).length ≤ 3 := by
  by_contra long
  have run : q.takeWhile isIgn = List.replicate (q.takeWhile isIgn).length .ign := by
    refine List.eq_replicate_iff.2 ⟨rfl, fun i hi => ?_⟩
    have ign := List.mem_takeWhile_imp hi
    cases i with
    | ign => rfl
    | cmd b => cases ign
  have four : List.replicate 4 TxItem.ign <+: q.takeWhile isIgn := by
    rw [run]
    exact List.prefix_replicate_iff.2 ⟨by simpa [Nat.succ_le_iff] using long, by simp⟩
  exact h (four.trans (List.takeWhile_prefix isIgn)).isInfix

/-! ### The decoder (R170 to R182) -/

theorem oneAnswerFewer_expected_le (p : Ps2) :
    (oneAnswerFewer p).dec.expected.toNat ≤ p.dec.expected.toNat := by
  rw [oneAnswerFewer_dec_expected]
  split
  · exact Nat.zero_le _
  · bv_omega

/-- A received byte never adds to the answers owed. -/
theorem decodeByte_expected_le (cfg : Config.Params) (b : Byte) (p : Ps2) :
    (decodeByte cfg b p).dec.expected.toNat ≤ p.dec.expected.toNat := by
  obtain ⟨-, h⟩ | ⟨-, h⟩ | ⟨-, h⟩ | ⟨-, h⟩ | ⟨-, h⟩ | ⟨-, h⟩ | ⟨-, -, h⟩ | ⟨-, -, -, h⟩ |
    ⟨-, -, ⟨-, h⟩ | ⟨-, h⟩ | ⟨-, h⟩ | h⟩ := decodeByte_cases cfg b p <;> rw [h]
  · simp
  · simp
  · simp
  · exact oneAnswerFewer_expected_le p
  · split <;> simp
  · simp only [decodeEcho]
    split
    · simpa using oneAnswerFewer_expected_le (save cfg (respEntry 0xEE) p)
    · simp
  · simp only [decodePause]
    split <;> simp
  · simpa [decodeResponse] using oneAnswerFewer_expected_le (save cfg (respEntry b) p)
  · simp [decodeScanCode]

/-! ### The unit's steps -/

theorem answersBounded_iff (p : Ps2) :
    AnswersBounded p ↔ RunsBounded p.txq ∧ p.dec.expected.toNat ≤ 3 := Iff.rfl

theorem AnswersBounded.decodeByte (cfg : Config.Params) (b : Byte) {p : Ps2} (h : AnswersBounded p) :
    AnswersBounded (decodeByte cfg b p) := by
  obtain ⟨runs, owed⟩ := (answersBounded_iff p).1 h
  refine (answersBounded_iff _).2 ⟨?_, (decodeByte_expected_le cfg b p).trans owed⟩
  obtain hq | hq := (decodeByte_keeps cfg b p).txq <;> rw [hq]
  · exact runs
  · exact .nil

theorem AnswersBounded.busFall (cfg : Config.Params) (d : Bool) (t : BitVec 32) {p : Ps2}
    (h : AnswersBounded p) : AnswersBounded (busFall cfg d t p) := by
  obtain hb | ⟨-, -, hb⟩ | ⟨-, -, hb⟩ := busFall_cases cfg d t p <;> rw [hb]
  · exact h
  · obtain ⟨-, v, he⟩ | ⟨-, he⟩ := txEdge_cases (dataLevel d p) p <;> rw [he] <;> exact h
  · obtain ⟨rx, -, hw | hw | ⟨b, hw⟩⟩ := rxFall_writes cfg (dataLevel d p) t p <;> rw [hw]
    · exact h
    · exact h
    · exact AnswersBounded.decodeByte cfg b (p := { p with rx := rx }) h

/-- The answers owed after TX_START are the run of placeholders taken with the command (R217). -/
theorem AnswersBounded.stepTxStart {p : Ps2} (h : AnswersBounded p) : AnswersBounded (stepTxStart p) := by
  obtain hs | ⟨-, ⟨-, hs⟩ | ⟨b, rest, -, hq, hs⟩⟩ := stepTxStart_cases p <;> rw [hs]
  · exact h
  · exact h
  · obtain ⟨runs, -⟩ := (answersBounded_iff p).1 h
    have restRuns : RunsBounded rest := runs.of_infix (hq ▸ (List.suffix_cons _ rest).isInfix)
    refine (answersBounded_iff _).2 ⟨restRuns.of_infix (List.dropWhile_suffix isIgn).isInfix, ?_⟩
    calc (BitVec.ofNat 8 (rest.takeWhile isIgn).length).toNat
        ≤ (rest.takeWhile isIgn).length := by
          rw [BitVec.toNat_ofNat]
          exact Nat.mod_le _ _
      _ ≤ 3 := restRuns.takeWhile_length_le

theorem AnswersBounded.stepTxInhibit {p : Ps2} (h : AnswersBounded p) :
    AnswersBounded (stepTxInhibit p) := by
  obtain hs | ⟨-, -, hs⟩ := stepTxInhibit_cases p <;> rw [hs] <;> exact h

theorem AnswersBounded.stepTxRelease {p : Ps2} (h : AnswersBounded p) :
    AnswersBounded (stepTxRelease p) := by
  obtain hs | ⟨-, -, hs⟩ := stepTxRelease_cases p <;> rw [hs] <;> exact h

theorem AnswersBounded.push {p : Ps2} {items : List TxItem} (mask : BitVec 4) (hi : IsSequence items)
    (h : AnswersBounded p) : AnswersBounded (pushTx items { p with lockMask := mask }) := by
  obtain ⟨runs, owed⟩ := (answersBounded_iff p).1 h
  exact (answersBounded_iff _).2 ⟨runs.append_sequence hi, owed⟩

/-! ### Translation -/

/-- Consuming an entry queues at most one LED sequence (R198). -/
theorem EntryKeeps.keeps_answersBounded {cfg : Config.Params} {p q : Ps2} (keeps : EntryKeeps cfg p q)
    (h : AnswersBounded p) : AnswersBounded q := by
  obtain ⟨runs, owed⟩ := (answersBounded_iff p).1 h
  refine (answersBounded_iff q).2 ⟨?_, keeps.dec ▸ owed⟩
  obtain hq | ⟨mask, hq, -⟩ := keeps.txq <;> rw [hq]
  · exact runs
  · exact runs.append_sequence (.led mask)

theorem AnswersBounded.translate (cfg : Config.Params) {p : Ps2} (h : AnswersBounded p) :
    AnswersBounded (translate cfg p) :=
  translateEntries_induct (P := AnswersBounded) cfg (fun _ _ hp => hp)
    (fun _ _ _ keeps _ hp => keeps.keeps_answersBounded hp)
    (fun _ _ _ _ keeps _ _ _ hp => keeps.keeps_answersBounded hp) p.raw p h

/-! ### The statement -/

theorem answersBounded_reset : AnswersBounded Ps2.reset :=
  (answersBounded_iff _).2 ⟨.nil, Nat.zero_le 3⟩

/-- Settles O54: each sequence starts with a command, so queueing joins no two runs of placeholders, and the
answers owed are one such run less those that came. -/
theorem stepKeepsTheAnswersBounded : Obligations.StepKeepsTheAnswersBounded := fun _ _ hs h =>
  step_keeps_unit (I := AnswersBounded) answersBounded_reset (fun _ _ _ _ hp => hp)
    (fun cfg _ hp => hp.translate cfg) (fun _ _ _ _ hp => hp) (fun _ _ mask hi hp => hp.push mask hi)
    (fun cfg d t _ hp => hp.busFall cfg d t) (fun _ hp => hp.stepTxStart) (fun _ hp => hp.stepTxInhibit)
    (fun _ hp => hp.stepTxRelease) hs h

end Sys2Proof.Machine
end

section
/-! PROOFS. Receiving a frame (30_encoding.md R92, 41_ps2_receive.md R153 to R158): what the start bit and each
data bit leave in the receive state, and what the last two edges of a good frame make of it. -/

namespace Sys2Proof.Machine

/-! ### Runs of falling edges -/

/-- The unit after the falling edges with these device levels, all at time `t`. -/
def fallAll (cfg : Config.Params) (t : BitVec 32) (levels : List Bool) (p : Ps2) : Ps2 :=
  levels.foldl (fun q d => busFall cfg d t q) p

theorem fallAll_cons (cfg : Config.Params) (t : BitVec 32) (d : Bool) (levels : List Bool) (p : Ps2) :
    fallAll cfg t (d :: levels) p = fallAll cfg t levels (busFall cfg d t p) := rfl

theorem fallAll_append (cfg : Config.Params) (t : BitVec 32) (levels more : List Bool) (p : Ps2) :
    fallAll cfg t (levels ++ more) p = fallAll cfg t more (fallAll cfg t levels p) :=
  List.foldl_append

/-- A run over pending falling edges takes them one by one and touches the unit alone. -/
theorem run_fallsAt (t : BitVec 32) (levels : List Bool) (rest : List AgentStep) (s : State) :
    Host.Core.run Sys2Proof.core levels.length { s with inputs := fallsAt t levels ++ rest } =
      .next { s with inputs := rest, ps2 := fallAll s.cfg t levels s.ps2 } := by
  induction levels generalizing s with
  | nil => rfl
  | cons d levels ih =>
    have first := run_succ_of_deliver (s := { s with inputs := fallsAt t (d :: levels) ++ rest })
      levels.length rfl rfl
    exact first.trans (ih { s with ps2 := busFall s.cfg d t s.ps2 })

/-! ### One edge of a listening unit -/

theorem busFall_of_listening (cfg : Config.Params) (d : Bool) (t : BitVec 32) {p : Ps2}
    (h : Listening p) : busFall cfg d t p = rxFall cfg d t p := by
  obtain ⟨irq, idle, released⟩ := h
  simp [busFall, fallingEdge, dataLevel, irq, idle, released]

/-- An edge at the very time of the last one is the frame's next bit (R153, R154). -/
theorem busFall_of_same_time (cfg : Config.Params) (d : Bool) {p : Ps2} (h : Listening p) (rx : Rx) :
    busFall cfg d rx.lastMs { p with rx := rx } =
      rxBit cfg d { p with rx := { rx with n := rx.n + 1 } } := by
  rw [busFall_of_listening cfg d rx.lastMs (p := { p with rx := rx }) h]
  obtain ⟨-, hw⟩ | ⟨expired, -⟩ := rxWatchdog_cases rx.lastMs { p with rx := rx }
  · rw [rxFall, hw]
  · rw [BitVec.sub_self] at expired
    exact absurd expired (by decide)

/-- Before a frame the watchdog finds nothing to drop (R153). -/
theorem rxWatchdog_of_frameClear (t : BitVec 32) {p : Ps2} (h : FrameClear p.rx) :
    rxWatchdog t p = { p with rx :=
      { n := 0, sr := 0, par := false, perr := false, lastMs := t, status := p.rx.status } } := by
  obtain ⟨n, sr, par, perr⟩ := h
  obtain ⟨-, hw⟩ | ⟨-, hw⟩ := rxWatchdog_cases t p <;> rw [hw] <;> simp [n, sr, par, perr]

theorem rxBit_start (cfg : Config.Params) (d : Bool) {p : Ps2} (h : p.rx.n = 1) :
    rxBit cfg d p = rxStartBit d p := if_pos h

theorem rxBit_data (cfg : Config.Params) (d : Bool) {p : Ps2} (h : 2 ≤ p.rx.n ∧ p.rx.n ≤ 9) :
    rxBit cfg d p = rxDataBit d p := by
  have notStart : p.rx.n ≠ 1 := by bv_omega
  rw [rxBit, if_neg notStart, if_pos h]

theorem rxBit_parity (cfg : Config.Params) (d : Bool) {p : Ps2} (h : p.rx.n = 10) :
    rxBit cfg d p = rxParityBit d p := by
  simp [rxBit, h]

theorem rxBit_stop (cfg : Config.Params) (d : Bool) {p : Ps2} (h : p.rx.n = 11) :
    rxBit cfg d p = rxStopBit cfg p := by
  simp [rxBit, h]

/-! ### The start bit and the data bits (R155, R156) -/

/-- The low `k` bits of `b`: the shift register with `k` data bits in. -/
def lowBits (b : Byte) (k : Nat) : Byte := (b.setWidth k).setWidth 8

theorem getLsbD_lowBits (b : Byte) (k i : Nat) :
    (lowBits b k).getLsbD i = (decide (i < k) && b.getLsbD i) := by
  by_cases hi : i < 8
  · simp [lowBits, hi]
  · simp [lowBits, BitVec.getLsbD_of_ge _ i (Nat.le_of_not_lt hi)]

theorem lowBits_zero (b : Byte) : lowBits b 0 = 0 := by
  apply BitVec.eq_of_getLsbD_eq
  simp [getLsbD_lowBits]

theorem lowBits_eight (b : Byte) : lowBits b 8 = b := by simp [lowBits]

/-- The next data bit lands above those already in. -/
theorem lowBits_succ (b : Byte) {k : Nat} (hk : k < 8) :
    lowBits b k ||| ((BitVec.ofBool (b.getLsbD k)).setWidth 8 <<< k) = lowBits b (k + 1) := by
  apply BitVec.eq_of_getLsbD_eq
  intro i hi
  simp only [BitVec.getLsbD_or, getLsbD_lowBits, BitVec.getLsbD_shiftLeft, BitVec.getLsbD_setWidth,
    BitVec.getLsbD_ofBool]
  obtain below | rfl | above := Nat.lt_trichotomy i k
  · simp [below, Nat.lt_succ_of_lt below]
  · simp [hi]
  · have notIn : ¬ i < k + 1 := by omega
    have notHere : i - k ≠ 0 := by omega
    simp [notIn, notHere, Nat.lt_asymm above]

theorem xor8_lowBits_succ (b : Byte) {k : Nat} (hk : k < 8) :
    (xor8 (lowBits b k) ^^ b.getLsbD k) = xor8 (lowBits b (k + 1)) := by
  simp only [xor8, getLsbD_lowBits]
  interval_cases k <;> simp

/-- The receive state with the start bit and the low `k` data bits of `b` in, at time `t`. -/
def frameSoFar (b : Byte) (t : BitVec 32) (status : RxStatus) (k : Nat) : Rx where
  n := BitVec.ofNat 4 (k + 1)
  sr := lowBits b k
  par := xor8 (lowBits b k)
  perr := false
  lastMs := t
  status := status

theorem busFall_start (cfg : Config.Params) (b : Byte) (t : BitVec 32) {p : Ps2} (listen : Listening p)
    (clear : FrameClear p.rx) :
    busFall cfg false t p = { p with rx := frameSoFar b t p.rx.status 0 } := by
  rw [busFall_of_listening cfg false t listen, rxFall, rxWatchdog_of_frameClear t clear]
  refine (rxBit_start cfg false rfl).trans ?_
  simp only [frameSoFar, lowBits_zero]
  rfl

theorem busFall_data (cfg : Config.Params) (b : Byte) (t : BitVec 32) (status : RxStatus) {k : Nat}
    (hk : k < 8) {p : Ps2} (listen : Listening p) :
    busFall cfg (b.getLsbD k) t { p with rx := frameSoFar b t status k } =
      { p with rx := frameSoFar b t status (k + 1) } := by
  have count : BitVec.ofNat 4 (k + 1) + 1 = BitVec.ofNat 4 (k + 2) := by bv_omega
  have place : (BitVec.ofNat 4 (k + 2)).toNat - 2 = k := by
    rw [BitVec.toNat_ofNat]
    omega
  refine (busFall_of_same_time cfg _ listen (frameSoFar b t status k)).trans ?_
  rw [rxBit_data]
  · simp only [rxDataBit, frameSoFar, count, place, lowBits_succ b hk, xor8_lowBits_succ b hk]
  · simp only [frameSoFar, count]
    constructor <;> bv_omega

/-- The low `k` data bits, one edge each. -/
theorem fallAll_lowBits (cfg : Config.Params) (b : Byte) (t : BitVec 32) (status : RxStatus) {k : Nat}
    (hk : k ≤ 8) {p : Ps2} (listen : Listening p) :
    fallAll cfg t ((List.range k).map b.getLsbD) { p with rx := frameSoFar b t status 0 } =
      { p with rx := frameSoFar b t status k } := by
  induction k with
  | zero => rfl
  | succ k ih =>
    rw [List.range_succ, List.map_append, fallAll_append, ih (Nat.le_of_succ_le hk)]
    exact busFall_data cfg b t status hk listen

/-- The start bit and the eight data bits of a frame, least significant first (R66, R92). -/
theorem fallAll_data (cfg : Config.Params) (b : Byte) (t : BitVec 32) {p : Ps2} (listen : Listening p)
    (clear : FrameClear p.rx) :
    fallAll cfg t (false :: dataBits b) p = { p with rx := frameSoFar b t p.rx.status 8 } := by
  rw [fallAll_cons, busFall_start cfg b t listen clear]
  exact fallAll_lowBits cfg b t p.rx.status (k := 8) (Nat.le_refl 8) listen

/-! ### The parity and stop bits of a good frame (R157, R158) -/

theorem busFall_goodParity (cfg : Config.Params) (b : Byte) (t : BitVec 32) (status : RxStatus) {p : Ps2}
    (listen : Listening p) :
    busFall cfg (oddPar b) t { p with rx := frameSoFar b t status 8 } =
      { p with rx := { frameSoFar b t status 8 with n := 10 } } := by
  have odd : (xor8 (lowBits b 8) ^^ oddPar b) = true := by simp [lowBits_eight, oddPar]
  refine (busFall_of_same_time cfg _ listen (frameSoFar b t status 8)).trans ?_
  refine (rxBit_parity cfg _ rfl).trans ?_
  exact if_pos odd

theorem busFall_goodStop (cfg : Config.Params) (b : Byte) (t : BitVec 32) (status : RxStatus)
    (stop : Bool) {p : Ps2} (listen : Listening p) :
    busFall cfg stop t { p with rx := { frameSoFar b t status 8 with n := 10 } } =
      decodeByte cfg b { p with rx :=
        { n := 0, sr := 0, par := false, perr := false, lastMs := t, status := .ok } } := by
  refine (busFall_of_same_time cfg _ listen { frameSoFar b t status 8 with n := 10 }).trans ?_
  refine (rxBit_stop cfg _ rfl).trans ?_
  simp only [rxStopBit, frameSoFar, lowBits_eight]
  rfl

theorem fallAll_goodFrame (cfg : Config.Params) (b : Byte) (stop : Bool) (t : BitVec 32) {p : Ps2}
    (listen : Listening p) (clear : FrameClear p.rx) :
    fallAll cfg t (frameLevels b (oddPar b) stop) p =
      decodeByte cfg b { p with rx :=
        { n := 0, sr := 0, par := false, perr := false, lastMs := t, status := .ok } } := by
  rw [frameLevels, ← List.cons_append, fallAll_append, fallAll_data cfg b t listen clear, fallAll_cons,
    busFall_goodParity cfg b t p.rx.status listen, fallAll_cons,
    busFall_goodStop cfg b t p.rx.status stop listen]
  rfl

/-! ### The statement -/

/-- Settles O30: the 11 edges are taken one by one; each data bit adds its place to the shift register, and
the stop bit finds the whole byte there with its parity right. -/
theorem goodFrameDeliversItsByte : Obligations.GoodFrameDeliversItsByte := by
  intro s b stop t rest listen clear
  rw [← fallAll_goodFrame s.cfg b stop t listen clear]
  exact run_fallsAt t (frameLevels b (oddPar b) stop) rest s

end Sys2Proof.Machine
end

section
/-! PROOFS. Stepping (40_cipher_engine.md R120 to R126, R131, R132): what one keystroke does to each rotor,
and what follows for the middle one over several keystrokes. -/

namespace Sys2Proof.Machine

/-! ### The rotors after each stage -/

theorem stepDouble_r2 (e : Engine) :
    (stepDouble e).r2 = if atNotch e.r2 then advanceMark e.r2 else e.r2 := by
  simp only [stepDouble]
  split <;> rfl

theorem carryFast_r1 (e : Engine) : (carryFast e).r1 = { e.r1 with stepNext := false } := by
  simp only [carryFast]
  split
  · rfl
  · next clear => rw [← Bool.eq_false_iff.2 clear]

theorem carryFast_r2 (e : Engine) :
    (carryFast e).r2 = if e.r1.stepNext then advanceMark e.r2 else e.r2 := by
  simp only [carryFast]
  split <;> rfl

theorem carryMiddle_r2 (e : Engine) : (carryMiddle e).r2 = { e.r2 with stepNext := false } := by
  simp only [carryMiddle]
  split
  · rfl
  · next clear => rw [← Bool.eq_false_iff.2 clear]

theorem carryMiddle_r3 (e : Engine) :
    (carryMiddle e).r3 = if e.r2.stepNext then advanceMark e.r3 else e.r3 := by
  simp only [carryMiddle]
  split <;> rfl

/-! ### What a keystroke turns on -/

/-- R1 lands on a turnover (R121). -/
def fastTurns (e : Engine) : Bool := (romTurnover e.r1.sel).contains (e.r1.off + 1)

/-- R2's offset after its double step (R122). -/
def doubleStepped (e : Engine) : Letter := if atNotch e.r2 then e.r2.off + 1 else e.r2.off

/-- R2 lands on a turnover, in its double step or in its advance for R1 (R122, R124). -/
def middleTurns (e : Engine) : Bool :=
  (atNotch e.r2 && (romTurnover e.r2.sel).contains (doubleStepped e)) ||
    (fastTurns e && (romTurnover e.r2.sel).contains (doubleStepped e + 1))

/-! ### The rotors after a keystroke -/

section
variable {e : Engine}

theorem stepFast_r1 (clear : FlagsClear e) :
    (stepFast e).r1 = ⟨e.r1.sel, e.r1.off + 1, fastTurns e⟩ := by
  simp only [stepFast, advanceMark_eq, clear.1, Bool.false_or, fastTurns]

/-- R2 after step 2, its flag telling whether it advanced and landed on a turnover. -/
theorem stepDouble_stepFast_r2 (clear : FlagsClear e) :
    (stepDouble (stepFast e)).r2 = ⟨e.r2.sel, doubleStepped e,
      atNotch e.r2 && (romTurnover e.r2.sel).contains (doubleStepped e)⟩ := by
  rw [stepDouble_r2, doubleStepped]
  change (if atNotch e.r2 then advanceMark e.r2 else e.r2) = _
  split
  · next notch => rw [advanceMark_eq, clear.2, notch, Bool.false_or, Bool.true_and]
  · next notch => rw [Bool.eq_false_iff.2 notch, Bool.false_and, ← clear.2]

/-- R2 after R1's carry, its flag telling whether it landed on a turnover in either advance. -/
theorem carryFast_stepDouble_stepFast_r2 (clear : FlagsClear e) :
    (carryFast (stepDouble (stepFast e))).r2 =
      ⟨e.r2.sel, if fastTurns e then doubleStepped e + 1 else doubleStepped e, middleTurns e⟩ := by
  obtain ⟨-, r1, -⟩ := stepDouble_keeps (stepFast e)
  rw [carryFast_r2, r1, stepFast_r1 clear, stepDouble_stepFast_r2 clear, middleTurns]
  cases fastTurns e
  · simp
  · simp [advanceMark_eq]

/-- R1 advances once at every keystroke, whatever the flags (R121). -/
theorem stepEngine_r1 (e : Engine) :
    (stepEngine e).r1 = ⟨e.r1.sel, e.r1.off + 1, false⟩ := by
  obtain ⟨-, carried, -⟩ := carryMiddle_keeps (carryFast (stepDouble (stepFast e)))
  obtain ⟨-, doubled, -⟩ := stepDouble_keeps (stepFast e)
  rw [stepEngine, carried, carryFast_r1, doubled, stepFast, advanceMark_eq]

theorem stepEngine_r2 (clear : FlagsClear e) :
    (stepEngine e).r2 =
      ⟨e.r2.sel, if fastTurns e then doubleStepped e + 1 else doubleStepped e, false⟩ := by
  rw [stepEngine, carryMiddle_r2, carryFast_stepDouble_stepFast_r2 clear]

theorem stepEngine_r2_off (clear : FlagsClear e) :
    (stepEngine e).r2.off = if fastTurns e then doubleStepped e + 1 else doubleStepped e := by
  rw [stepEngine_r2 clear]

theorem stepEngine_r3 (clear : FlagsClear e) :
    (stepEngine e).r3 = if middleTurns e then advanceMark e.r3 else e.r3 := by
  obtain ⟨-, carried, -⟩ := carryFast_keeps (stepDouble (stepFast e))
  obtain ⟨-, -, doubled, -⟩ := stepDouble_keeps (stepFast e)
  rw [stepEngine, carryMiddle_r3, carryFast_stepDouble_stepFast_r2 clear, carried, doubled]
  rfl

end

/-! ### The notch of the middle rotor (R126 (b), R131) -/

theorem contains_romTurnover_not_adjacent {r : RotorNo} {x : Letter}
    (h : (romTurnover r).contains (x + 1) = true) : (romTurnover r).contains x = false := by
  rw [List.contains_eq_mem] at h ⊢
  exact decide_eq_false fun hx => romTurnover_not_adjacent r x hx (of_decide_eq_true h)

/-- A rotor at a notch that has double stepped is at no notch. -/
theorem not_mem_romNotch_doubleStepped (e : Engine) : doubleStepped e ∉ romNotch e.r2.sel := by
  rw [doubleStepped]
  split
  · next notch => exact romNotch_not_adjacent _ _ (List.contains_iff_mem.1 notch)
  · next notch => exact fun h => notch (List.contains_iff_mem.2 h)

/-- R1 lands on a turnover at no two keystrokes running. -/
theorem fastTurns_stepEngine {e : Engine} (h : fastTurns (stepEngine e) = true) :
    fastTurns e = false := by
  rw [fastTurns, stepEngine_r1] at h
  exact contains_romTurnover_not_adjacent h

/-- A keystroke at which R1 does not carry leaves R2 at no notch. -/
theorem atNotch_stepEngine_r2 {e : Engine} (clear : FlagsClear e) (stays : fastTurns e = false) :
    atNotch (stepEngine e).r2 = false := by
  rw [stepEngine_r2 clear, stays, Bool.eq_false_iff]
  exact fun notch => not_mem_romNotch_doubleStepped e (List.contains_iff_mem.1 notch)

/-! ### Many keystrokes (R132) -/

theorem flagsClear_iterate_stepEngine {e : Engine} (clear : FlagsClear e) (k : ℕ) :
    FlagsClear (stepEngine^[k] e) := by
  cases k with
  | zero => exact clear
  | succ k =>
    rw [Function.iterate_succ_apply']
    exact stepEngine_flags_clear _

theorem iterate_stepEngine_r1 (e : Engine) (k : ℕ) :
    (stepEngine^[k] e).r1.sel = e.r1.sel ∧ (stepEngine^[k] e).r1.off = e.r1.off + Fin.ofNat 26 k := by
  induction k with
  | zero => exact ⟨rfl, (add_zero e.r1.off).symm⟩
  | succ k ih =>
    obtain ⟨sel, off⟩ := ih
    rw [Function.iterate_succ_apply', stepEngine_r1]
    refine ⟨sel, ?_⟩
    simp only [off, add_assoc]
    congr 1
    apply Fin.ext
    simp [Fin.val_add]

/-- Within one turn of R1 some keystroke makes it land on a turnover. -/
theorem exists_fastTurns_iterate_stepEngine (e : Engine) :
    ∃ k < 26, fastTurns (stepEngine^[k] e) = true := by
  obtain ⟨x, hx⟩ := romTurnover_nonempty e.r1.sel
  refine ⟨(x - e.r1.off - 1).val, Fin.isLt _, ?_⟩
  obtain ⟨sel, off⟩ := iterate_stepEngine_r1 e (x - e.r1.off - 1).val
  have landed : e.r1.off + (x - e.r1.off - 1) + 1 = x := by abel
  rw [fastTurns, sel, off, Fin.ofNat_val_eq_self, landed]
  exact List.contains_iff_mem.2 hx

/-- R1's carry moves R2, whether or not R2 has double stepped. -/
theorem stepEngine_r2_off_ne {e : Engine} (clear : FlagsClear e) (turns : fastTurns e = true) :
    (stepEngine e).r2.off ≠ e.r2.off := by
  have once : ∀ x : Letter, x + 1 ≠ x := by decide
  have twice : ∀ x : Letter, x + 1 + 1 ≠ x := by decide
  rw [stepEngine_r2_off clear, if_pos turns, doubleStepped]
  split
  · exact twice _
  · exact once _

/-! ### The statements -/

/-- Settles O11: the stages of Step() one after the other, each flag read telling whether its rotor has just
landed on a turnover. -/
theorem keystrokeMovesTheRotors : Obligations.KeystrokeMovesTheRotors := by
  intro e clear
  refine ⟨?_, ?_, ?_, stepEngine_refl e, stepEngine_pb e, stepEngine_configured e⟩
  · exact (stepEngine_r1 e).trans (by rw [← clear.1])
  · exact (stepEngine_r2 clear).trans (by rw [← clear.2]; rfl)
  · change (stepEngine e).r3 = { e.r3 with
      off := if middleTurns e then e.r3.off + 1 else e.r3.off
      stepNext := e.r3.stepNext || (middleTurns e && (romTurnover e.r3.sel).contains (e.r3.off + 1)) }
    rw [stepEngine_r3 clear]
    cases middleTurns e
    · simp
    · simp [advanceMark_eq]

/-- Settles O12: if R1 carries at the second keystroke it did not at the first, which then left R2 at no
notch. -/
theorem secondKeystrokeAdvancesTheMiddleRotorAtMostOnce :
    Obligations.SecondKeystrokeAdvancesTheMiddleRotorAtMostOnce := by
  intro e clear e1
  have clear1 : FlagsClear e1 := stepEngine_flags_clear e
  rw [stepEngine_r2_off clear1]
  split
  · next turns =>
    have notch : ¬ atNotch e1.r2 = true := by
      rw [atNotch_stepEngine_r2 clear (fastTurns_stepEngine turns)]
      exact Bool.false_ne_true
    rw [doubleStepped, if_neg notch]
    exact .inr rfl
  · rw [doubleStepped]
    split
    · exact .inr rfl
    · exact .inl rfl

/-- Settles O13: in 26 keystrokes R1 passes every letter, so it lands on a turnover and carries into R2. -/
theorem middleRotorMovesWithin26Keystrokes : Obligations.MiddleRotorMovesWithin26Keystrokes := by
  intro e clear
  obtain ⟨k, hk, turns⟩ := exists_fastTurns_iterate_stepEngine e
  refine ⟨k, hk, ?_⟩
  rw [Function.iterate_succ_apply']
  exact stepEngine_r2_off_ne (flagsClear_iterate_stepEngine clear k) turns

end Sys2Proof.Machine
end

section
/-! PROOFS. The four engine commands (40_cipher_engine.md R133 to R138): what each operand reading refuses,
and the answer of each command under its checks. -/

namespace Sys2Proof.Machine

/-! ### Readings of one operand byte (R90) -/

theorem rotorOfByte_eq_none_iff (b : Byte) :
    rotorOfByte b = none ↔ ¬ (1 ≤ b.toNat ∧ b.toNat ≤ 8) := by
  unfold rotorOfByte
  split <;> simp_all
  omega

theorem reflectorOfByte_eq_none_iff (b : Byte) : reflectorOfByte b = none ↔ 2 < b.toNat := by
  unfold reflectorOfByte
  split <;> simp_all
  omega

theorem letterOfByte_eq_none_iff (b : Byte) : letterOfByte b = none ↔ ¬ b.toNat ≤ 25 := by
  unfold letterOfByte
  split
  · next h => simp [Nat.le_of_lt_succ h]
  · next h => simpa [Nat.lt_succ_iff] using h

theorem rotorOfByte_rotorByte (n : RotorNo) : rotorOfByte (rotorByte n) = some n := by
  cases n <;> rfl

theorem reflectorOfByte_reflectorByte (f : ReflectorNo) :
    reflectorOfByte (reflectorByte f) = some f := by
  cases f <;> rfl

theorem letterOfByte_ofNat (o : Letter) : letterOfByte (BitVec.ofNat 8 o.val) = some o := by
  have h : (BitVec.ofNat 8 o.val).toNat = o.val := Nat.mod_eq_of_lt (o.isLt.trans (by decide))
  simp only [letterOfByte, h, o.isLt, dite_true]

/-! ### ASCII codes (R12, R135) -/

/-- The byte is an ASCII letter, capital or small (R135). -/
def IsLetterCode (ch : Byte) : Prop :=
  (0x41 ≤ ch.toNat ∧ ch.toNat ≤ 0x5A) ∨ (0x61 ≤ ch.toNat ∧ ch.toNat ≤ 0x7A)

theorem asciiOfLetter_toNat (c : Letter) : (asciiOfLetter c).toNat = 0x41 + c.val :=
  Nat.mod_eq_of_lt (by omega)

theorem asciiOfLetter_injective : Function.Injective asciiOfLetter := by
  intro c d h
  have codes := congrArg BitVec.toNat h
  rw [asciiOfLetter_toNat, asciiOfLetter_toNat] at codes
  exact Fin.ext (Nat.add_left_cancel codes)

/-- Both cases of a letter are read as its index. -/
theorem letterOfAscii_of_code {ch : Byte} {c : Letter}
    (h : ch.toNat = 0x41 + c.val ∨ ch.toNat = 0x61 + c.val) : letterOfAscii ch = some c := by
  unfold letterOfAscii
  obtain h | h := h
  · rw [if_pos (by omega), h, Nat.add_sub_cancel_left, Fin.ofNat_val_eq_self]
  · rw [if_neg (by omega), if_pos (by omega), h, Nat.add_sub_cancel_left, Fin.ofNat_val_eq_self]

theorem letterOfAscii_asciiOfLetter (c : Letter) : letterOfAscii (asciiOfLetter c) = some c :=
  letterOfAscii_of_code (.inl (asciiOfLetter_toNat c))

/-- Every byte of the two ranges is the code of some letter. -/
theorem exists_letter_of_code {ch : Byte} (h : IsLetterCode ch) :
    ∃ c : Letter, ch.toNat = 0x41 + c.val ∨ ch.toNat = 0x61 + c.val := by
  obtain ⟨low, high⟩ | ⟨low, high⟩ := h
  · exact ⟨⟨ch.toNat - 0x41, by omega⟩, .inl (Nat.add_sub_cancel' low).symm⟩
  · exact ⟨⟨ch.toNat - 0x61, by omega⟩, .inr (Nat.add_sub_cancel' low).symm⟩

theorem letterOfAscii_of_not_code {ch : Byte} (h : ¬ IsLetterCode ch) : letterOfAscii ch = none := by
  obtain ⟨upper, lower⟩ := not_or.1 h
  rw [letterOfAscii, if_neg upper, if_neg lower]

/-! ### ENG_INIT (R133, R134) -/

/-- Operand bytes that all have a reading, with their readings. -/
theorem exists_three_readings {α : Type} {read : Byte → Option α} {a b c : Byte}
    (h : ∀ x ∈ [a, b, c], read x ≠ none) :
    ∃ u v w, read a = some u ∧ read b = some v ∧ read c = some w := by
  obtain ⟨u, hu⟩ := Option.ne_none_iff_exists'.1 (h a (by simp))
  obtain ⟨v, hv⟩ := Option.ne_none_iff_exists'.1 (h b (by simp))
  obtain ⟨w, hw⟩ := Option.ne_none_iff_exists'.1 (h c (by simp))
  exact ⟨u, v, w, hu, hv, hw⟩

section
variable {rot1 rot2 rot3 refl off1 off2 off3 : Byte} (s : State)

theorem execEngInit_of_bad_rotor (bad : ¬ ∀ b ∈ [rot1, rot2, rot3], rotorOfByte b ≠ none) :
    execEngInit rot1 rot2 rot3 refl off1 off2 off3 s = raiseStatus .invalidRotorIndex s := by
  simp only [execEngInit]
  split
  · next h1 h2 h3 => exact absurd (by simp [h1, h2, h3]) bad
  · rfl

theorem execEngInit_of_bad_offset (rotors : ∀ b ∈ [rot1, rot2, rot3], rotorOfByte b ≠ none)
    (bad : ¬ ∀ b ∈ [off1, off2, off3], letterOfByte b ≠ none) :
    execEngInit rot1 rot2 rot3 refl off1 off2 off3 s = raiseStatus .invalidOffset s := by
  obtain ⟨n1, n2, n3, h1, h2, h3⟩ := exists_three_readings rotors
  simp only [execEngInit, h1, h2, h3]
  split
  · next h1 h2 h3 => exact absurd (by simp [h1, h2, h3]) bad
  · rfl

theorem execEngInit_of_bad_reflector (rotors : ∀ b ∈ [rot1, rot2, rot3], rotorOfByte b ≠ none)
    (offsets : ∀ b ∈ [off1, off2, off3], letterOfByte b ≠ none) (bad : reflectorOfByte refl = none) :
    execEngInit rot1 rot2 rot3 refl off1 off2 off3 s = raiseStatus .invalidReflector s := by
  obtain ⟨n1, n2, n3, h1, h2, h3⟩ := exists_three_readings rotors
  obtain ⟨o1, o2, o3, k1, k2, k3⟩ := exists_three_readings offsets
  simp only [execEngInit, h1, h2, h3, k1, k2, k3, bad]

end

/-! ### ENG_SET_PLUGBOARD (R136, R137) -/

theorem plugEntry_val {p : List Byte} (range : ∀ b ∈ p, b.toNat < 26) (i : Letter) :
    (plugEntry p i).val = (p.getD i.val 0).toNat := by
  refine Nat.mod_eq_of_lt ?_
  rw [List.getD_eq_getElem?_getD]
  cases h : p[i.val]? with
  | none => decide
  | some b => exact range b (List.mem_of_getElem? h)

/-- The involution check on letters is R136's on the operand list. -/
theorem plugEntry_involutive_iff {p : List Byte} (range : ∀ b ∈ p, b.toNat < 26) :
    (∀ i : Letter, plugEntry p (plugEntry p i) = i) ↔
      ∀ i < 26, (p.getD (p.getD i 0).toNat 0).toNat = i := by
  simp only [Fin.ext_iff, plugEntry_val range, Fin.forall_iff]

/-- What R136 checks of the 26 operands. -/
theorem plugboardOfBytes_accepts_iff {p : List Byte} (len : p.length = 26) :
    (p.length = 26 ∧ (∀ b ∈ p, b.toNat < 26) ∧ ∀ i : Letter, plugEntry p (plugEntry p i) = i) ↔
      (∀ b ∈ p, b.toNat < 26) ∧ ∀ i < 26, (p.getD (p.getD i 0).toNat 0).toNat = i :=
  (and_iff_right len).trans (and_congr_right plugEntry_involutive_iff)

/-! ### ENG_ENCRYPT (R135, R266) -/

section
variable {s : State}

theorem execEngEncrypt_of_not_configured (h : s.eng.configured = false) (ch : Byte) :
    execEngEncrypt ch s = raiseStatus .notConfigured s := by
  simp [execEngEncrypt, h]

theorem execEngEncrypt_of_letter (h : s.eng.configured = true) {ch : Byte} {c : Letter}
    (hc : letterOfAscii ch = some c) :
    execEngEncrypt ch s =
      .next { s with eng := stepEngine s.eng
                     response := [0x00, asciiOfLetter (perm (stepEngine s.eng) c)] } := by
  simp only [execEngEncrypt, h, hc, if_true]
  rfl

theorem execEngEncrypt_of_not_letter (h : s.eng.configured = true) {ch : Byte}
    (hc : letterOfAscii ch = none) : execEngEncrypt ch s = .fault (.encryptNonLetter ch) := by
  simp only [execEngEncrypt, h, hc, if_true]

/-! ### ENG_ROTOR_OFFSET (R138) -/

theorem execEngRotorOffset_of_not_configured (h : s.eng.configured = false) (i : Byte) :
    execEngRotorOffset i s = raiseStatus .notConfigured s := by
  simp [execEngRotorOffset, h]

theorem execEngRotorOffset_of_bad_index (h : s.eng.configured = true) {i : Byte} (hi : 3 ≤ i.toNat) :
    execEngRotorOffset i s = raiseStatus .invalidArg s := by
  simp only [execEngRotorOffset, h, if_true]
  split
  · omega
  · omega
  · omega
  · rfl

end

/-! ### The statements -/

/-- Settles O7: each range of R133 is where its reading answers, and the readings are tried in R133's
order. -/
theorem engInitChecksThenReplacesTheConfiguration :
    Obligations.EngInitChecksThenReplacesTheConfiguration := by
  constructor
  · intro rot1 rot2 rot3 refl off1 off2 off3 s i rotorsLegal offsetsLegal
    have rotors : rotorsLegal ↔ ∀ b ∈ [rot1, rot2, rot3], rotorOfByte b ≠ none :=
      forall₂_congr fun b _ => by rw [ne_eq, rotorOfByte_eq_none_iff, not_not]
    have offsets : offsetsLegal ↔ ∀ b ∈ [off1, off2, off3], letterOfByte b ≠ none :=
      forall₂_congr fun b _ => by rw [ne_eq, letterOfByte_eq_none_iff, not_not]
    refine ⟨decode_encode (i := i) rfl, fun bad => ?_, fun hr bad => ?_, fun hr ho bad => ?_⟩
    · exact execEngInit_of_bad_rotor s (mt rotors.2 bad)
    · exact execEngInit_of_bad_offset s (rotors.1 hr) (mt offsets.2 bad)
    · exact execEngInit_of_bad_reflector s (rotors.1 hr) (offsets.1 ho)
        ((reflectorOfByte_eq_none_iff refl).2 bad)
  · intro n1 n2 n3 f o1 o2 o3 s
    simp only [exec, execEngInit, rotorOfByte_rotorByte, letterOfByte_ofNat,
      reflectorOfByte_reflectorByte]
    rfl

/-- Settles O8: on 26 operands the model's check is R136's, and the installed board lists the operands. -/
theorem engSetPlugboardInstallsInvolutionsOnly :
    Obligations.EngSetPlugboardInstallsInvolutionsOnly := by
  intro p s len legal
  refine ⟨decode_encode (i := .engSetPlugboard p) (by simp [Instr.wellFormed, len]), fun ok => ?_,
    fun bad => ?_⟩
  · refine ⟨Vector.ofFn (plugEntry p), fun i => ?_, ?_⟩
    · simpa using plugEntry_val ok.1 i
    · simp only [exec, execEngSetPlugboard, plugboardOfBytes,
        if_pos ((plugboardOfBytes_accepts_iff len).2 ok)]
      rfl
  · simp only [exec, execEngSetPlugboard, plugboardOfBytes,
      if_neg (mt (plugboardOfBytes_accepts_iff len).1 bad)]
    rfl

/-- Settles O9: by the configured bit and the two letter ranges. -/
theorem engEncryptStepsThenPermutes : Obligations.EngEncryptStepsThenPermutes := by
  intro ch s letter
  refine ⟨decode_encode (i := .engEncrypt ch) rfl, fun h => execEngEncrypt_of_not_configured h ch,
    fun h hc => execEngEncrypt_of_not_letter h (letterOfAscii_of_not_code hc), fun h hc => ?_⟩
  obtain ⟨c, hcode⟩ := exists_letter_of_code hc
  exact ⟨c, hcode, execEngEncrypt_of_letter h (letterOfAscii_of_code hcode)⟩

/-- Settles O10: by the configured bit, then by the index. -/
theorem engRotorOffsetReadsTheOffset : Obligations.EngRotorOffsetReadsTheOffset := by
  intro i s
  refine ⟨decode_encode (i := .engRotorOffset i) rfl, fun h => execEngRotorOffset_of_not_configured h i,
    fun h hi => execEngRotorOffset_of_bad_index h hi, fun h => ⟨?_, ?_, ?_⟩⟩
  all_goals exact if_pos h

end Sys2Proof.Machine
end

section
/-! PROOFS. The permutation (40_cipher_engine.md R127 to R130): the reflector conjugated by the way through
the rotors, and what that makes of ENG_ENCRYPT. -/

namespace Sys2Proof.Machine

/-! ### The way through the rotors -/

/-- The forward transforms of R1, R2 and R3, one after the other: the F of R130. -/
def throughRotors (e : Engine) (x : Letter) : Letter := forward e.r3 (forward e.r2 (forward e.r1 x))

theorem throughRotors_injective (e : Engine) : Function.Injective (throughRotors e) := by
  have inj (r : Rotor) : Function.Injective (forward r) :=
    Function.LeftInverse.injective (reverse_forward r)
  exact (inj e.r3).comp ((inj e.r2).comp (inj e.r1))

/-- The rotor core is the reflector as seen through the rotors (R129). -/
theorem throughRotors_core26 (e : Engine) (x : Letter) :
    throughRotors e (core26 e x) = reflect e (throughRotors e x) := by
  simp only [throughRotors, core26, forward_reverse]

theorem core26_core26 (e : Engine) (x : Letter) : core26 e (core26 e x) = x := by
  apply throughRotors_injective e
  rw [throughRotors_core26, throughRotors_core26, reflect_reflect]

theorem core26_ne (e : Engine) (x : Letter) : core26 e x ≠ x := by
  intro fixed
  have reflected := throughRotors_core26 e x
  rw [fixed] at reflected
  exact reflect_ne e _ reflected.symm

/-! ### The permutation between two passes of the plugboard (R129, R130) -/

section
variable {e : Engine}

theorem plug_perm (involution : PlugInvolution e) (c : Letter) :
    plug e (perm e c) = core26 e (plug e c) := involution _

theorem perm_perm (involution : PlugInvolution e) (c : Letter) : perm e (perm e c) = c := by
  rw [perm, plug_perm involution, core26_core26, involution]

theorem perm_ne (involution : PlugInvolution e) (c : Letter) : perm e c ≠ c := by
  intro fixed
  have core := plug_perm involution c
  rw [fixed] at core
  exact core26_ne e _ core.symm

theorem PlugInvolution.stepEngine (involution : PlugInvolution e) :
    PlugInvolution (stepEngine e) := by
  intro c
  simp only [plug_stepEngine, involution c]

end

/-! ### The statements -/

/-- Settles O60: the core's letter is the one whose way through the rotors ends at the reflected letter. -/
theorem permutationIsTheReflectorSeenThroughTheRotors :
    Obligations.PermutationIsTheReflectorSeenThroughTheRotors := by
  intro e c through rotors pb reflected
  have way : rotors (core26 e (pb c)) = reflected := throughRotors_core26 e (pb c)
  refine ⟨⟨core26 e (pb c), way, rfl⟩, fun involution => ?_⟩
  have back : pb (perm e c) = core26 e (pb c) := plug_perm involution c
  rw [back, way]

/-- Settles O14: the reflector has no fixed letter, so the permutation at the stepped engine has none. -/
theorem encryptNeverAnswersItsLetter : Obligations.EncryptNeverAnswersItsLetter := by
  intro c s t involution h configured
  obtain rfl := Host.Outcome.next.inj
    ((execEngEncrypt_of_letter configured (letterOfAscii_asciiOfLetter c)).symm.trans h)
  exact ⟨_, perm_ne involution.stepEngine c, rfl⟩

/-- Settles O15: the answered letter is the permutation's image at the stepped engine, the permutation is
its own inverse there, and both keystrokes step the same engine. -/
theorem encryptIsAnInvolutionAtAState : Obligations.EncryptIsAnInvolutionAtAState := by
  intro c d s t involution configured h answered
  obtain rfl := Host.Outcome.next.inj
    ((execEngEncrypt_of_letter configured (letterOfAscii_asciiOfLetter c)).symm.trans h)
  obtain ⟨code, -⟩ := List.cons.inj (List.cons.inj answered).2
  obtain rfl : perm (stepEngine s.eng) c = d := asciiOfLetter_injective code
  refine (execEngEncrypt_of_letter configured (letterOfAscii_asciiOfLetter _)).trans ?_
  rw [perm_perm involution.stepEngine]
  rfl

end Sys2Proof.Machine
end

section
/-! PROOFS. The receive frame machine edge by edge (41_ps2_receive.md R150 to R161): which edges have an
effect at all, what an edge does on either side of the watchdog's time, the frame with a wrong parity bit,
and what the accumulators hold between any two steps. -/

namespace Sys2Proof.Machine

/-! ### Edges without an effect (R151, R152, R160) -/

theorem busFall_of_irqOff (cfg : Config.Params) (d : Bool) (t : BitVec 32) {p : Ps2}
    (off : p.irqEn = false) : busFall cfg d t p = p := by
  simp [busFall, off]

theorem busFall_of_preparing (cfg : Config.Params) (d : Bool) (t : BitVec 32) {p : Ps2}
    (preparing : p.tx.phase = .prep ∨ p.tx.phase = .inhibit) : busFall cfg d t p = p := by
  obtain h | ⟨-, shift, -⟩ | ⟨-, idle, -⟩ := busFall_cases cfg d t p
  · exact h
  · simp [shift] at preparing
  · simp [idle] at preparing

theorem step_fall {s : State} {d : Bool} {t : BitVec 32} {rest : List AgentStep}
    (pending : s.inputs = .fall d t :: rest) :
    step s = .next { s with inputs := rest, ps2 := busFall s.cfg d t s.ps2 } := by
  simp only [step, takeStep, pending, deliver]

/-! ### The data bit's place (R156) -/

/-- The shift register with the level `d` taken at place `i`. -/
def withBit (sr : Byte) (i : Nat) (d : Bool) : Byte := if d then sr ||| BitVec.twoPow 8 i else sr

/-- R156's shift and or. -/
theorem withBit_eq (sr : Byte) (i : Nat) (d : Bool) :
    withBit sr i d = sr ||| ((BitVec.ofBool d).setWidth 8 <<< i) := by
  cases d
  · simp [withBit]
  · rfl

theorem getLsbD_withBit (sr : Byte) {i : Nat} (hi : i < 8) (d : Bool) (j : Nat) :
    (withBit sr i d).getLsbD j = (sr.getLsbD j || (d && decide (i = j))) := by
  cases d
  · simp [withBit]
  · simp only [withBit, if_true, BitVec.getLsbD_or, BitVec.getLsbD_twoPow, hi, decide_true,
      Bool.true_and]

/-- A level that lands on a clear bit is one more term of the parity: the other seven bits stay as they
are, so `rx.par` may take it in at the end (R156). -/
theorem xor8_withBit {sr : Byte} {i : Nat} (hi : i < 8) (d : Bool) (clear : sr.getLsbD i = false) :
    xor8 (withBit sr i d) = (xor8 sr ^^ d) := by
  simp only [xor8, getLsbD_withBit sr hi]
  interval_cases i <;> rw [clear] <;> simp [Bool.xor_comm]

/-! ### The watchdog (R153) -/

section
variable (cfg : Config.Params) (d : Bool) {t : BitVec 32} {p : Ps2}

/-- An edge that finds the watchdog expired is tried as the start bit of a new frame (R153, R155). -/
theorem rxFall_expired (expired : watchdogMs ≤ t - p.rx.lastMs) :
    rxFall cfg d t p = { p with rx :=
      { n := if d then 0 else 1, sr := 0, par := false, perr := false, lastMs := t,
        status := if d ∨ p.rx.n ≠ 0 then .timeoutResync else p.rx.status } } := by
  obtain ⟨within, -⟩ | ⟨-, hw⟩ := rxWatchdog_cases t p
  · exact absurd within (BitVec.not_lt.2 expired)
  · rw [rxFall, hw]
    refine (rxBit_start cfg d rfl).trans ?_
    cases d <;> simp [rxStartBit]

/-- An edge within the watchdog's time is the frame's next bit (R154). -/
theorem rxFall_within (within : t - p.rx.lastMs < watchdogMs) :
    rxFall cfg d t p =
      rxBit cfg d { p with rx := { p.rx with n := p.rx.n + 1, lastMs := t } } := by
  obtain ⟨-, hw⟩ | ⟨expired, -⟩ := rxWatchdog_cases t p
  · rw [rxFall, hw]
  · exact absurd within (BitVec.not_lt.2 expired)

/-! ### The frame's next bit (R155 to R158) -/

variable (within : t - p.rx.lastMs < watchdogMs)
include within

theorem rxFall_start (hn : p.rx.n = 0) :
    rxFall cfg d t p = { p with rx := { p.rx with
      n := if d then 0 else 1, lastMs := t
      status := if d then .timeoutResync else p.rx.status } } := by
  rw [rxFall_within cfg d within, rxBit_start cfg d (by simp [hn])]
  cases d <;> simp [rxStartBit, hn]

theorem rxFall_data (first : 1 ≤ p.rx.n.toNat) (last : p.rx.n.toNat ≤ 8) :
    rxFall cfg d t p = { p with rx := { p.rx with
      n := p.rx.n + 1, lastMs := t
      sr := withBit p.rx.sr (p.rx.n.toNat - 1) d
      par := p.rx.par ^^ d } } := by
  have count : (p.rx.n + 1).toNat = p.rx.n.toNat + 1 := rxCount_succ (by omega)
  have place : (p.rx.n + 1).toNat - 2 = p.rx.n.toNat - 1 := by omega
  rw [rxFall_within cfg d within, rxBit_data]
  · simp only [rxDataBit, place, withBit_eq]
  · constructor <;> bv_omega

theorem rxFall_parity (hn : p.rx.n = 9) :
    rxFall cfg d t p = { p with rx := { p.rx with
      n := 10, lastMs := t, perr := if p.rx.par = d then true else p.rx.perr } } := by
  rw [rxFall_within cfg d within, rxBit_parity cfg d (by simp [hn])]
  cases d <;> cases hpar : p.rx.par <;> simp [rxParityBit, hn, hpar]

theorem rxFall_stop (hn : 10 ≤ p.rx.n.toNat) :
    rxFall cfg d t p =
      rxStopBit cfg { p with rx := { p.rx with n := p.rx.n + 1, lastMs := t } } := by
  rw [rxFall_within cfg d within]
  obtain ⟨other, -⟩ | ⟨low, high, -⟩ | ⟨other, -⟩ | ⟨-, h⟩ :=
    rxBit_cases cfg d { p with rx := { p.rx with n := p.rx.n + 1, lastMs := t } }
  · bv_omega
  · bv_omega
  · bv_omega
  · exact h

end

/-! ### A frame with a wrong parity bit (R157) -/

theorem busFall_badParity (cfg : Config.Params) (b : Byte) (t : BitVec 32) (status : RxStatus) {p : Ps2}
    (listen : Listening p) :
    busFall cfg (!oddPar b) t { p with rx := frameSoFar b t status 8 } =
      { p with rx := { frameSoFar b t status 8 with n := 10, perr := true } } := by
  have even : (xor8 (lowBits b 8) ^^ !oddPar b) = false := by simp [lowBits_eight, oddPar]
  refine (busFall_of_same_time cfg _ listen (frameSoFar b t status 8)).trans ?_
  refine (rxBit_parity cfg _ rfl).trans ?_
  exact if_neg (ne_true_of_eq_false even)

/-- The stop bit of a frame with a recorded mismatch discards it and asks for a RESEND. -/
theorem busFall_badStop (cfg : Config.Params) (stop : Bool) {p : Ps2} (listen : Listening p) {rx : Rx}
    (hn : rx.n = 10) (mismatch : rx.perr = true) :
    busFall cfg stop rx.lastMs { p with rx := rx } = { p with
      rx := { n := 0, sr := 0, par := false, perr := false, lastMs := rx.lastMs,
              status := .parityError }
      tx := { p.tx with immValid := true, immByte := 0xFE } } := by
  refine (busFall_of_same_time cfg _ listen rx).trans ?_
  refine (rxBit_stop cfg _ (by simp [hn])).trans ?_
  exact if_pos mismatch

theorem fallAll_badFrame (cfg : Config.Params) (b : Byte) (stop : Bool) (t : BitVec 32) {p : Ps2}
    (listen : Listening p) (clear : FrameClear p.rx) :
    fallAll cfg t (frameLevels b (!oddPar b) stop) p = { p with
      rx := { n := 0, sr := 0, par := false, perr := false, lastMs := t, status := .parityError }
      tx := { p.tx with immValid := true, immByte := 0xFE } } := by
  rw [frameLevels, ← List.cons_append, fallAll_append, fallAll_data cfg b t listen clear, fallAll_cons,
    busFall_badParity cfg b t p.rx.status listen]
  exact busFall_badStop cfg stop listen (rx := { frameSoFar b t p.rx.status 8 with n := 10, perr := true })
    rfl rfl

/-! ### The accumulators (R155, R156, R159) -/

theorem FrameInv.of_rx_eq {p q : Ps2} (h : FrameInv p) (rx : q.rx = p.rx) : FrameInv q := by
  obtain ⟨noData, high, parity, parityError⟩ := h
  rw [← rx] at noData high parity parityError
  exact ⟨noData, high, parity, parityError⟩

/-- Clear accumulators are those of any count. -/
theorem FrameInv.of_clear {p : Ps2} (sr : p.rx.sr = 0) (par : p.rx.par = false)
    (perr : p.rx.perr = false) : FrameInv p where
  noData _ := ⟨sr, par⟩
  high k _ := by simp [sr]
  parity := by rw [sr, par]; rfl
  parityError _ := perr

theorem frameInv_rxStopBit (cfg : Config.Params) (p : Ps2) : FrameInv (rxStopBit cfg p) := by
  simp only [rxStopBit]
  split
  · exact .of_clear rfl rfl rfl
  · exact FrameInv.of_rx_eq (.of_clear rfl rfl rfl) (decodeByte_keeps cfg _ _).rx

/-- The next data bit lands above those already in. -/
theorem FrameInv.dataBit {p q : Ps2} (h : FrameInv p) (d : Bool) (first : 1 ≤ p.rx.n.toNat)
    (last : p.rx.n.toNat ≤ 8) (n : q.rx.n = p.rx.n + 1)
    (sr : q.rx.sr = withBit p.rx.sr (p.rx.n.toNat - 1) d)
    (par : q.rx.par = (p.rx.par ^^ d)) (perr : q.rx.perr = p.rx.perr) : FrameInv q := by
  have count : q.rx.n.toNat = p.rx.n.toNat + 1 := n ▸ rxCount_succ (by omega)
  have place : p.rx.n.toNat - 1 < 8 := by omega
  have notParity : p.rx.n ≠ 10 := by bv_omega
  constructor
  case noData => omega
  case high =>
    intro k hk
    have above : p.rx.n.toNat - 1 ≠ k := by omega
    rw [sr, getLsbD_withBit _ place, h.high k (by omega), decide_eq_false above, Bool.and_false,
      Bool.or_false]
  case parity =>
    rw [par, sr, xor8_withBit place d (h.high _ (by omega)), h.parity]
  case parityError =>
    intro _
    rw [perr, h.parityError notParity]

/-- The bit just taken stands at its place, and the bits before it are as they were. -/
theorem FrameInv.getLsbD_data {p : Ps2} (h : FrameInv p) (d : Bool) (first : 1 ≤ p.rx.n.toNat)
    (last : p.rx.n.toNat ≤ 8) (j : Nat) :
    (withBit p.rx.sr (p.rx.n.toNat - 1) d).getLsbD j =
      if j + 1 = p.rx.n.toNat then d else p.rx.sr.getLsbD j := by
  rw [getLsbD_withBit _ (by omega : p.rx.n.toNat - 1 < 8)]
  split
  · next here =>
    have place : p.rx.n.toNat - 1 = j := by omega
    simp [h.high j (by omega), place]
  · next elsewhere =>
    have place : p.rx.n.toNat - 1 ≠ j := by omega
    simp [place]

theorem FrameInv.parityBit {p q : Ps2} (h : FrameInv p) (hn : p.rx.n = 9) (n : q.rx.n = 10)
    (sr : q.rx.sr = p.rx.sr) (par : q.rx.par = p.rx.par) : FrameInv q where
  noData few := by simp [n] at few
  high k hk := by
    rw [n] at hk
    rw [sr]
    exact h.high k (by rw [hn]; exact Nat.le_of_succ_le hk)
  parity := by rw [sr, par, h.parity]
  parityError other := absurd n other

theorem FrameInv.rxFall (cfg : Config.Params) (d : Bool) (t : BitVec 32) {p : Ps2} (h : FrameInv p) :
    FrameInv (rxFall cfg d t p) := by
  by_cases expired : watchdogMs ≤ t - p.rx.lastMs
  · rw [rxFall_expired cfg d expired]
    exact .of_clear rfl rfl rfl
  have within : t - p.rx.lastMs < watchdogMs := BitVec.not_le.1 expired
  by_cases start : p.rx.n = 0
  · rw [rxFall_start cfg d within start]
    obtain ⟨sr, par⟩ := h.noData (by simp [start])
    exact .of_clear sr par (h.parityError (by simp [start]))
  by_cases data : p.rx.n.toNat ≤ 8
  · have first : 1 ≤ p.rx.n.toNat := by bv_omega
    rw [rxFall_data cfg d within first data]
    exact h.dataBit d first data rfl rfl rfl rfl
  by_cases parity : p.rx.n = 9
  · rw [rxFall_parity cfg d within parity]
    exact h.parityBit parity rfl rfl rfl
  · rw [rxFall_stop cfg d within (by bv_omega)]
    exact frameInv_rxStopBit cfg _

theorem FrameInv.busFall (cfg : Config.Params) (d : Bool) (t : BitVec 32) {p : Ps2} (h : FrameInv p) :
    FrameInv (busFall cfg d t p) := by
  obtain hb | ⟨-, -, hb⟩ | ⟨-, -, hb⟩ := busFall_cases cfg d t p <;> rw [hb]
  · exact h
  · obtain ⟨-, v, he⟩ | ⟨-, he⟩ := txEdge_cases (dataLevel d p) p <;> rw [he]
    · exact h.of_rx_eq rfl
    · exact .of_clear rfl rfl rfl
  · exact h.rxFall cfg _ t

/-- An edge that raises a count of 1 to 8 by one was taken as that data bit: no other edge does. -/
theorem busFall_rx_sr_of_counted {cfg : Config.Params} {d : Bool} {t : BitVec 32} {p : Ps2}
    (first : 1 ≤ p.rx.n.toNat) (last : p.rx.n.toNat ≤ 8)
    (counted : (busFall cfg d t p).rx.n = p.rx.n + 1) :
    (busFall cfg d t p).rx.sr =
      withBit p.rx.sr (p.rx.n.toNat - 1) (dataLevel d p) := by
  obtain hb | ⟨-, -, hb⟩ | ⟨-, -, hb⟩ := busFall_cases cfg d t p <;> rw [hb] at counted ⊢
  · bv_omega
  · obtain ⟨-, v, he⟩ | ⟨-, he⟩ := txEdge_cases (dataLevel d p) p <;> rw [he] at counted
    · have same : p.rx.n = p.rx.n + 1 := counted
      bv_omega
    · have none : 0 = p.rx.n + 1 := counted
      bv_omega
  · by_cases expired : watchdogMs ≤ t - p.rx.lastMs
    · rw [rxFall_expired cfg _ expired] at counted
      simp only at counted
      split at counted <;> bv_omega
    · rw [rxFall_data cfg _ (BitVec.not_le.1 expired) first last]

theorem FrameInv.stepTxStart {p : Ps2} (h : FrameInv p) : FrameInv (stepTxStart p) := by
  obtain hs | ⟨-, ⟨-, hs⟩ | ⟨b, rest, -, -, hs⟩⟩ := stepTxStart_cases p <;> rw [hs] <;>
    exact h.of_rx_eq rfl

theorem FrameInv.stepTxInhibit {p : Ps2} (h : FrameInv p) : FrameInv (stepTxInhibit p) := by
  obtain hs | ⟨-, -, hs⟩ := stepTxInhibit_cases p <;> rw [hs] <;> exact h.of_rx_eq rfl

theorem FrameInv.stepTxRelease {p : Ps2} (h : FrameInv p) : FrameInv (stepTxRelease p) := by
  obtain hs | ⟨-, -, hs⟩ := stepTxRelease_cases p <;> rw [hs] <;> exact h.of_rx_eq rfl

theorem step_keeps_frameInv {s t : State} (hs : FrameInv s.ps2) (h : step s = .next t) :
    FrameInv t.ps2 :=
  step_keeps_unit (I := FrameInv) (.of_clear rfl rfl rfl) (fun _ _ _ _ hp => hp.of_rx_eq rfl)
    (fun cfg p hp => hp.of_rx_eq (translate_rx_tx cfg p).1) (fun _ _ _ _ hp => hp.of_rx_eq rfl)
    (fun _ _ _ _ hp => hp.of_rx_eq rfl) (fun cfg d t _ hp => hp.busFall cfg d t)
    (fun _ hp => hp.stepTxStart) (fun _ hp => hp.stepTxInhibit) (fun _ hp => hp.stepTxRelease) hs h

/-! ### The statements -/

/-- Settles O52: each bit's own rule keeps the accumulators, every other step keeps or clears them; and a count
raised from 1 to 8 by one tells the data bit's rule from all others. -/
theorem stepKeepsTheFrameAccumulators : Obligations.StepKeepsTheFrameAccumulators := by
  intro s t hs h
  refine ⟨step_keeps_frameInv hs h, ?_⟩
  intro d ms rest pending first last counted j _
  obtain rfl := Host.Outcome.next.inj ((step_fall pending).symm.trans h)
  rw [busFall_rx_sr_of_counted first last counted]
  exact hs.getLsbD_data (dataLevel d s.ps2) first last j

/-- Settles O28: by the watchdog's branch, for both levels. -/
theorem watchdogExpiryStartsANewFrame : Obligations.WatchdogExpiryStartsANewFrame := by
  intro s t listen expired
  have edge (d : Bool) :=
    (busFall_of_listening s.cfg d t listen).trans (rxFall_expired s.cfg d (BitVec.le_def.2 expired))
  constructor
  · simp [deliver, edge]
  · simp [deliver, edge]

/-- Settles O29: one equation of `rxFall` for each bit of the frame. -/
theorem edgesWithinTheWatchdogAreTheNextBit : Obligations.EdgesWithinTheWatchdogAreTheNextBit := by
  intro s d t listen early rx after
  have within : t - s.ps2.rx.lastMs < watchdogMs := BitVec.lt_def.2 early
  have edge : deliver (.fall d t) s = .next { s with ps2 := rxFall s.cfg d t s.ps2 } := by
    rw [deliver, busFall_of_listening s.cfg d t listen]
  refine ⟨?start, ?badStart, ?data, ?parity, ?stop⟩
  case start =>
    rintro hn rfl
    exact edge.trans (by rw [rxFall_start s.cfg false within hn]; rfl)
  case badStart =>
    rintro hn rfl
    exact edge.trans (by rw [rxFall_start s.cfg true within hn]; rfl)
  case data =>
    intro first last
    exact edge.trans (by rw [rxFall_data s.cfg d within first last]; rfl)
  case parity =>
    intro hn
    exact edge.trans (by rw [rxFall_parity s.cfg d within hn])
  case stop =>
    intro hn
    have full : 10 ≤ s.ps2.rx.n.toNat := by rw [hn]; decide
    exact edge.trans (by rw [rxFall_stop s.cfg d within full]; rfl)

/-- Settles O31: as for a good frame, but the parity bit records a mismatch, which the stop bit answers. -/
theorem badParityFrameRequestsAResend : Obligations.BadParityFrameRequestsAResend := by
  intro s b stop t rest listen clear
  rw [← fallAll_badFrame s.cfg b stop t listen clear]
  exact run_fallsAt t (frameLevels b (!oddPar b) stop) rest s

/-- Settles O26: the step takes the edge from the pending ones, and the unit ignores it. -/
theorem nothingMovesWithTheInterruptOff : Obligations.NothingMovesWithTheInterruptOff := by
  rintro s a rest off (rfl | ⟨d, t, rfl⟩)
  · rfl
  · exact (step_fall rfl).trans (by rw [busFall_of_irqOff _ d t off])

/-- Settles O27: of the four phases only IDLE and SHIFT hear a falling edge, and none a rising one. -/
theorem risingAndSpuriousEdgesHaveNoEffect : Obligations.RisingAndSpuriousEdgesHaveNoEffect := by
  refine ⟨fun _ => rfl, fun s d t preparing => ?_⟩
  rw [deliver, busFall_of_preparing _ d t preparing]

end Sys2Proof.Machine
end

section
/-! PROOFS. The PS/2 decoder byte by byte (42_ps2_decoder.md R170 to R184): what saving an entry writes, what
each class of R94 does with its byte, and the sequences of bytes that save one entry or one for each byte. -/

namespace Sys2Proof.Machine

/-! ### Saving an entry (R183) -/

/-- The drop count saturates: one more, but never beyond 0xFFFF. -/
theorem dropCount_eq (d : BitVec 16) :
    (if d = 0xFFFF then 0xFFFF else d + 1) = BitVec.ofNat 16 (min (d.toNat + 1) 0xFFFF) := by
  apply BitVec.eq_of_toNat_eq
  split
  · next full => simp [full]
  · next notFull =>
    have below : d.toNat + 1 ≤ 0xFFFF := by bv_omega
    rw [min_eq_left below, BitVec.ofNat_add, BitVec.ofNat_toNat, BitVec.setWidth_eq]
    rfl

theorem save_of_room {cfg : Config.Params} {p : Ps2} (room : p.raw.length < cfg.rawCap) (e : RawEntry) :
    save cfg e p = { p with raw := p.raw ++ [e] } := by
  rw [save, if_pos ((hasRoom_iff _ _ _).2 room)]

theorem save_of_full {cfg : Config.Params} {p : Ps2} (full : cfg.rawCap ≤ p.raw.length) (e : RawEntry) :
    save cfg e p = { p with rawDrops := BitVec.ofNat 16 (min (p.rawDrops.toNat + 1) 0xFFFF) } := by
  rw [save, if_neg (mt (hasRoom_iff _ _ _).1 (by omega)), dropCount_eq]

/-- Saving neither reads nor writes the decoder's mode. -/
theorem save_withDec (cfg : Config.Params) (e : RawEntry) (p : Ps2) (dec : Dec) :
    save cfg e { p with dec := dec } = { save cfg e p with dec := dec } := by
  simp only [save]
  split <;> rfl

/-! ### The answers owed (R174, R176, R179) -/

/-- One answer fewer is the difference of natural numbers, which stops at 0. -/
theorem oneAnswerFewer_eq (p : Ps2) : oneAnswerFewer p =
    { p with dec := { p.dec with expected := BitVec.ofNat 8 (p.dec.expected.toNat - 1) } } := by
  have count : (if p.dec.expected = 0 then 0 else p.dec.expected - 1) =
      BitVec.ofNat 8 (p.dec.expected.toNat - 1) := by
    split
    · next noneOwed => simp [noneOwed]
    · next owed => bv_omega
  rw [oneAnswerFewer, count]

theorem decodeEcho_eq (cfg : Config.Params) (p : Ps2) : decodeEcho cfg p =
    if p.tx.lastValid = true ∧ p.tx.lastSent = 0xEE then oneAnswerFewer (save cfg (respEntry 0xEE) p)
    else immediate 0xEE (save cfg (respEntry 0xEE) p) := by
  simp only [decodeEcho, Bool.and_eq_true, beq_iff_eq]

/-- While the raw ring has room, an answer goes to its tail and is owed no more. -/
theorem decodeResponse_of_room {cfg : Config.Params} {p : Ps2} (room : p.raw.length < cfg.rawCap)
    (b : Byte) : decodeResponse cfg b p = { p with
      dec := { p.dec with expected := BitVec.ofNat 8 (p.dec.expected.toNat - 1) }
      raw := p.raw ++ [respEntry b] } := by
  rw [decodeResponse, save_of_room room, oneAnswerFewer_eq]

/-! ### A byte of a Pause sequence (R178) -/

theorem decodePause_of_last (cfg : Config.Params) (b : Byte) {p : Ps2} (last : p.dec.e1Rem = 1) :
    decodePause cfg b p = save cfg (pauseEntry b) { p with dec := { p.dec with e1Rem := 0 } } := by
  rw [decodePause, last]
  rfl

theorem decodePause_of_more (cfg : Config.Params) (b : Byte) {p : Ps2} (more : 2 ≤ p.dec.e1Rem.toNat) :
    decodePause cfg b p = { p with dec := { p.dec with e1Rem := p.dec.e1Rem - 1 } } := by
  have due : p.dec.e1Rem - 1 ≠ 0 := by bv_omega
  rw [decodePause]
  exact if_neg due

/-! ### The classes of a byte that is no device answer (R94 priorities 6 to 11) -/

section
variable (cfg : Config.Params) {b : Byte} {p : Ps2}

/-- Past the device answers, R94's order: a Pause sequence, an owed answer, the prefixes, a scan code. -/
theorem decodeByte_of_not_protocol (answer : isProtocolByte b = false) : decodeByte cfg b p =
    if p.dec.e1Rem ≠ 0 then decodePause cfg b p
    else if p.dec.expected ≠ 0 then decodeResponse cfg b p
    else if b = 0xE0 then { p with dec := { p.dec with e0 := true } }
    else if b = 0xE1 then { p with dec := { p.dec with e1Rem := 7, e0 := false, brk := false } }
    else if b = 0xF0 then { p with dec := { p.dec with brk := true } }
    else decodeScanCode cfg b p := by
  obtain ⟨overrun, error, bat, ack, resend, echo⟩ := (isProtocolByte_eq_false_iff b).1 answer
  rw [decodeByte, if_neg overrun, if_neg error, if_neg bat, if_neg ack, if_neg resend, if_neg echo]

theorem decodeByte_of_pause (answer : isProtocolByte b = false) (pause : p.dec.e1Rem ≠ 0) :
    decodeByte cfg b p = decodePause cfg b p := by
  rw [decodeByte_of_not_protocol cfg answer, if_pos pause]

theorem decodeByte_of_owed (answer : isProtocolByte b = false) (noPause : p.dec.e1Rem = 0)
    (owed : p.dec.expected ≠ 0) : decodeByte cfg b p = decodeResponse cfg b p := by
  rw [decodeByte_of_not_protocol cfg answer, if_neg (not_not.2 noPause), if_pos owed]

variable (noPause : p.dec.e1Rem = 0) (noneOwed : p.dec.expected = 0)
include noPause noneOwed

/-- With nothing due, R94's order: E0, E1 and F0, then a scan code. -/
theorem decodeByte_of_nothing_due (answer : isProtocolByte b = false) : decodeByte cfg b p =
    if b = 0xE0 then { p with dec := { p.dec with e0 := true } }
    else if b = 0xE1 then { p with dec := { p.dec with e1Rem := 7, e0 := false, brk := false } }
    else if b = 0xF0 then { p with dec := { p.dec with brk := true } }
    else decodeScanCode cfg b p := by
  rw [decodeByte_of_not_protocol cfg answer, if_neg (not_not.2 noPause), if_neg (not_not.2 noneOwed)]

theorem decodeByte_extended :
    decodeByte cfg 0xE0 p = { p with dec := { p.dec with e0 := true } } :=
  decodeByte_of_nothing_due cfg noPause noneOwed rfl

theorem decodeByte_pauseStart : decodeByte cfg 0xE1 p =
    { p with dec := { p.dec with e1Rem := 7, e0 := false, brk := false } } :=
  decodeByte_of_nothing_due cfg noPause noneOwed rfl

theorem decodeByte_released :
    decodeByte cfg 0xF0 p = { p with dec := { p.dec with brk := true } } :=
  decodeByte_of_nothing_due cfg noPause noneOwed rfl

/-- A scan code takes the E0 and F0 flags into its entry and leaves them clear (R182). -/
theorem decodeByte_scanCode {e0 brk : Bool} (he0 : p.dec.e0 = e0) (hbrk : p.dec.brk = brk)
    (answer : isProtocolByte b = false) (sequence : isSequenceByte b = false) :
    decodeByte cfg b p = save cfg (keyEntry b e0 brk) { p with dec := { p.dec with
      lastMake := if brk then p.dec.lastMake else b, e0 := false, brk := false } } := by
  subst he0 hbrk
  obtain ⟨notE0, notE1, notF0⟩ := (isSequenceByte_eq_false_iff b).1 sequence
  rw [decodeByte_of_nothing_due cfg noPause noneOwed answer, if_neg notE0, if_neg notE1, if_neg notF0,
    save_withDec]
  simp only [decodeScanCode, save_dec]

end

/-! ### Bytes one after the other -/

theorem decodeAll_cons (cfg : Config.Params) (b : Byte) (bytes : List Byte) (p : Ps2) :
    decodeAll cfg (b :: bytes) p = decodeAll cfg bytes (decodeByte cfg b p) := rfl

theorem decodeAll_singleton (cfg : Config.Params) (b : Byte) (p : Ps2) :
    decodeAll cfg [b] p = decodeByte cfg b p := rfl

/-- The bytes a Pause sequence still waits for save one entry, with the last of them (R178). -/
theorem decodeAll_pause (cfg : Config.Params) {init : List Byte} {last : Byte}
    (answers : ∀ b ∈ init, isProtocolByte b = false) (answer : isProtocolByte last = false) {p : Ps2}
    (due : init.length + 1 = p.dec.e1Rem.toNat) :
    decodeAll cfg (init ++ [last]) p =
      save cfg (pauseEntry last) { p with dec := { p.dec with e1Rem := 0 } } := by
  have pause : p.dec.e1Rem ≠ 0 := by bv_omega
  induction init generalizing p with
  | nil =>
    have one : p.dec.e1Rem = 1 := BitVec.eq_of_toNat_eq due.symm
    rw [List.nil_append, decodeAll_singleton, decodeByte_of_pause cfg answer pause,
      decodePause_of_last cfg last one]
  | cons b init ih =>
    obtain ⟨first, others⟩ := List.forall_mem_cons.1 answers
    rw [List.length_cons] at due
    have more : 2 ≤ p.dec.e1Rem.toNat := by omega
    have left : init.length + 1 = (p.dec.e1Rem - 1).toNat := by bv_omega
    rw [List.cons_append, decodeAll_cons, decodeByte_of_pause cfg first pause,
      decodePause_of_more cfg b more]
    exact ih others left (by bv_omega)

/-- As many bytes as answers are owed are the answers (R179). -/
theorem decodeAll_owed (cfg : Config.Params) {bytes : List Byte}
    (answers : ∀ b ∈ bytes, isProtocolByte b = false) {p : Ps2} (noPause : p.dec.e1Rem = 0)
    (owed : bytes.length = p.dec.expected.toNat) (room : p.raw.length + bytes.length ≤ cfg.rawCap) :
    decodeAll cfg bytes p =
      { p with dec := { p.dec with expected := 0 }, raw := p.raw ++ bytes.map respEntry } := by
  induction bytes generalizing p with
  | nil =>
    have noneOwed : p.dec.expected = 0 := BitVec.eq_of_toNat_eq owed.symm
    rw [List.map_nil, List.append_nil, ← noneOwed]
    rfl
  | cons b bytes ih =>
    obtain ⟨first, others⟩ := List.forall_mem_cons.1 answers
    rw [List.length_cons] at owed room
    have someOwed : p.dec.expected ≠ 0 := by bv_omega
    have left : bytes.length = (BitVec.ofNat 8 (p.dec.expected.toNat - 1)).toNat := by
      rw [BitVec.toNat_ofNat]
      omega
    calc decodeAll cfg (b :: bytes) p
      _ = decodeAll cfg bytes { p with
            dec := { p.dec with expected := BitVec.ofNat 8 (p.dec.expected.toNat - 1) }
            raw := p.raw ++ [respEntry b] } := by
          rw [decodeAll_cons, decodeByte_of_owed cfg first noPause someOwed,
            decodeResponse_of_room (by omega)]
      _ = { p with
            dec := { p.dec with expected := 0 }
            raw := p.raw ++ [respEntry b] ++ bytes.map respEntry } :=
          ih others noPause left (by simp only [List.length_append, List.length_singleton]; omega)
      _ = _ := by rw [List.append_assoc, List.singleton_append, List.map_cons]

/-! ### The statements -/

/-- Settles O35: E1 leaves seven bytes due, and the bytes due save one entry. -/
theorem pauseSequenceSavesOneEntry : Obligations.PauseSequenceSavesOneEntry := by
  intro cfg p init last answers answer started pause
  refine ⟨decodeByte_pauseStart cfg, decodeAll_pause cfg answers answer, ?_⟩
  intro noPause noneOwed six
  have due : init.length + 1 = started.dec.e1Rem.toNat := by rw [six]; rfl
  rw [decodeAll_cons, decodeByte_pauseStart cfg noPause noneOwed]
  exact decodeAll_pause cfg answers answer due

/-- Settles O36: E0 and F0 each set their flag, and the scan code takes both into its entry. -/
theorem scanCodeIsSavedWithItsFlags : Obligations.ScanCodeIsSavedWithItsFlags := by
  intro cfg p b answer sequence noE0 noBrk noPause noneOwed saved
  have cleared (e0 brk : Bool) (lastMake : Byte) : saved e0 brk lastMake = save cfg (keyEntry b e0 brk)
      { p with dec := { p.dec with lastMake := lastMake, e0 := false, brk := false } } := by
    simp only [saved, keyEntry, noE0, noBrk]
  refine ⟨?plain, ?extended, ?released, ?both⟩
  case plain =>
    rw [decodeAll_singleton, cleared]
    exact decodeByte_scanCode cfg noPause noneOwed noE0 noBrk answer sequence
  case extended =>
    rw [decodeAll_cons, decodeByte_extended cfg noPause noneOwed, decodeAll_singleton, cleared]
    exact decodeByte_scanCode cfg (p := { p with dec := { p.dec with e0 := true } })
      noPause noneOwed rfl noBrk answer sequence
  case released =>
    rw [decodeAll_cons, decodeByte_released cfg noPause noneOwed, decodeAll_singleton, cleared]
    exact decodeByte_scanCode cfg (p := { p with dec := { p.dec with brk := true } })
      noPause noneOwed noE0 rfl answer sequence
  case both =>
    rw [decodeAll_cons, decodeByte_extended cfg noPause noneOwed, decodeAll_cons,
      decodeByte_released cfg (p := { p with dec := { p.dec with e0 := true } }) noPause noneOwed,
      decodeAll_singleton, cleared]
    exact decodeByte_scanCode cfg (p := { p with dec := { p.dec with e0 := true, brk := true } })
      noPause noneOwed rfl rfl answer sequence

/-- Settles O37: by induction on the bytes, each of which is one of the answers still owed. -/
theorem owedAnswersAreSavedAsResponses : Obligations.OwedAnswersAreSavedAsResponses :=
  fun cfg _ _ noPause owed answers room => decodeAll_owed cfg answers noPause owed room

/-- Settles O34: on either side of the ring's capacity. -/
theorem savePushesOrCountsADrop : Obligations.SavePushesOrCountsADrop :=
  fun _ e _ => ⟨fun room => save_of_room room e, fun full => save_of_full full e⟩

/-- Settles O32: OVERRUN and key error are the first class of R94, whose reset is R184's list of fields. -/
theorem overrunResetsTheMode : Obligations.OverrunResetsTheMode := fun _ _ => ⟨rfl, rfl⟩

/-- Settles O33: the classes of R94 that no decoder state comes before, with the count of answers owed as a
difference of natural numbers. -/
theorem deviceAnswersActInEveryState : Obligations.DeviceAnswersActInEveryState := by
  intro cfg p counted slot
  have fewer (q : Ps2) : oneAnswerFewer q = counted q := oneAnswerFewer_eq q
  refine ⟨?bat, ?ack, ?resend, ?echo⟩
  case bat => rintro b (rfl | rfl) <;> rfl
  case ack => exact fewer p
  case resend => rfl
  case echo =>
    change decodeEcho cfg p = _
    rw [decodeEcho_eq, fewer]
    rfl

end Sys2Proof.Machine
end

section
/-! PROOFS. Translation (43_ps2_translation.md R190 to R202): the bits of a key event, what one entry of each
kind translates to, and the passes over the raw ring. -/

namespace Sys2Proof.Machine

/-! ### The bits of an event (R105, R200, R201) -/

theorem getLsbD_keyEvent_status (brk : Bool) (ks : Modifiers) (mask : BitVec 4) (code : KeyCode) (i : Nat) :
    (keyEvent brk ks mask code).getLsbD (8 + i) = (keyStatus brk ks mask code).getLsbD i := by
  have h := BitVec.getLsbD_append (x := keyStatus brk ks mask code) (y := code) (i := 8 + i)
  simpa [keyEvent] using h

/-- Where each flag stands in the status byte of an event. -/
theorem getLsbD_keyStatus (brk : Bool) (ks : Modifiers) (mask : BitVec 4) (code : KeyCode) :
    let st := keyStatus brk ks mask code
    st.getLsbD 7 = brk ∧ st.getLsbD 6 = ks.shift ∧ st.getLsbD 5 = ks.ctrl ∧
    st.getLsbD 4 = mask.getLsbD 2 ∧ st.getLsbD 3 = ks.alt ∧ st.getLsbD 2 = ks.altGr ∧
    st.getLsbD 1 = ks.gui ∧ st.getLsbD 0 = fnFlag code := by
  simp only [keyStatus, BitVec.getLsbD_append, BitVec.getLsbD_ofBool]
  simp

theorem fnFlag_iff (code : KeyCode) : fnFlag code = true ↔
    (1 ≤ code.toNat ∧ code.toNat ≤ 0x1F) ∨ (0x61 ≤ code.toNat ∧ code.toNat ≤ 0xA0) := by
  simp [fnFlag]

/-! ### Which kind of key a code is (R193 to R195, R199) -/

theorem lockKeyOf_eq_none {cfg : Config.Params} {code : KeyCode} (h : ∀ k, code ≠ lockCode cfg k) :
    lockKeyOf cfg code = none := by
  have scroll : code ≠ cfg.keyScroll := h .scroll
  have num : code ≠ cfg.keyNum := h .num
  have caps : code ≠ cfg.keyCaps := h .caps
  rw [lockKeyOf, if_neg scroll, if_neg num, if_neg caps]

theorem modKeyOf_eq_none {cfg : Config.Params} {code : KeyCode} (h : ∀ m, code ∉ modCodes cfg m) :
    modKeyOf cfg code = none := by
  have shift := h .shift
  have ctrl := h .ctrl
  have alt := h .alt
  have altGr := h .altGr
  have gui := h .gui
  simp only [modCodes, List.mem_cons, List.not_mem_nil, or_false] at shift ctrl alt altGr gui
  rw [modKeyOf, if_neg shift, if_neg ctrl, if_neg alt, if_neg altGr, if_neg gui]

/-- Distinct and nonzero constants: a keypad key is no lock and no modifier key, and some key (R106 (a)). -/
theorem plain_of_mem_keypad {cfg : Config.Params} (valid : cfg.ConstantsValid) {code : KeyCode}
    (h : code ∈ cfg.keypadRemap.map Prod.fst) :
    lockKeyOf cfg code = none ∧ modKeyOf cfg code = none ∧ code ≠ 0 := by
  obtain ⟨nodup, all, -⟩ := valid
  obtain ⟨-, -, disjoint⟩ := List.nodup_append.1 nodup
  refine ⟨lockKeyOf_eq_none fun k heq => disjoint (lockCode cfg k) ?lock code h heq.symm,
    modKeyOf_eq_none fun m hm => disjoint code ?modifier code h rfl, ?nonzero⟩
  case lock => cases k <;> simp [lockCode]
  case modifier =>
    cases m <;> simp only [modCodes, List.mem_cons, List.not_mem_nil, or_false] at hm ⊢ <;> tauto
  case nonzero =>
    have ok := List.all_eq_true.1 all code (List.mem_append_right _ h)
    simp only [Bool.and_eq_true, bne_iff_ne] at ok
    exact ok.1.1

/-- No key of the keypad is listed twice, so its entry is the one the lookup finds. -/
theorem lookup_keypadRemap {cfg : Config.Params} (valid : cfg.ConstantsValid) {code nav : KeyCode}
    (h : (code, nav) ∈ cfg.keypadRemap) : cfg.keypadRemap.lookup code = some nav := by
  obtain ⟨nodup, -⟩ := valid
  obtain ⟨-, nodup, -⟩ := List.nodup_append.1 nodup
  obtain ⟨before, after, heq⟩ := List.append_of_mem h
  rw [heq, List.map_append, List.map_cons] at nodup
  obtain ⟨-, -, disjoint⟩ := List.nodup_append.1 nodup
  refine List.lookup_eq_some_iff.2 ⟨before, after, heq, fun x hx => ?_⟩
  have ne : x.1 ≠ code := disjoint _ (List.mem_map_of_mem hx) _ List.mem_cons_self
  simpa using ne.symm

theorem remapKeypad_of_mem {cfg : Config.Params} (valid : cfg.ConstantsValid) {code nav : KeyCode}
    (h : (code, nav) ∈ cfg.keypadRemap) (p : Ps2) : remapKeypad cfg code p =
      if p.lockMask.getLsbD 1 = false ∨ p.ks.shift = true then nav else code := by
  simp [remapKeypad, lookup_keypadRemap valid h]

theorem remapKeypad_of_not_mem {cfg : Config.Params} {code : KeyCode}
    (h : code ∉ cfg.keypadRemap.map Prod.fst) (p : Ps2) : remapKeypad cfg code p = code := by
  have none : cfg.keypadRemap.lookup code = none := by
    refine List.lookup_eq_none_iff.2 fun x hx => ?_
    have ne : code ≠ x.1 := fun heq => h (heq ▸ List.mem_map_of_mem hx)
    simpa using ne
  simp [remapKeypad, none]

/-! ### The lookup (R192) -/

theorem lookupCode_of_pause (cfg : Config.Params) {e : RawEntry} (pause : e.e1 = true) :
    lookupCode cfg e = cfg.keyPause := by
  rw [lookupCode, if_pos pause]

theorem lookupCode_of_extended (cfg : Config.Params) {e : RawEntry} (noPause : e.e1 = false)
    (extended : e.e0 = true) : lookupCode cfg e = cfg.scanE0 e.byte := by
  rw [lookupCode, if_neg (by simp [noPause]), if_pos extended]

theorem lookupCode_of_normal (cfg : Config.Params) {e : RawEntry} (noPause : e.e1 = false)
    (normal : e.e0 = false) : lookupCode cfg e = cfg.scan e.byte := by
  rw [lookupCode, if_neg (by simp [noPause]), if_neg (by simp [normal])]

/-! ### What each kind of key does -/

section
variable {cfg : Config.Params} {k : LockKey} {m : ModKey} {code : KeyCode} {p : Ps2}

theorem translateLock_break : translateLock cfg k code true p =
    let p' := { p with lockHeld := setHeld k false p.lockHeld }
    if p.noBreaks then .ignore p' else .event (keyEvent true p.ks p.lockMask code) p' := rfl

theorem translateLock_repeat (held : getHeld k p.lockHeld = true) : translateLock cfg k code false p =
    if p.noRepeats then .ignore p else .event (keyEvent false p.ks p.lockMask code) p := by
  simp [translateLock, held, emit]

theorem translateLock_first (free : getHeld k p.lockHeld = false) : translateLock cfg k code false p =
    let mask := p.lockMask ^^^ lockBit k
    if p.txq.length + 4 ≤ cfg.txqCap then .event (keyEvent false p.ks mask code)
      { p with lockMask := mask, lockHeld := setHeld k true p.lockHeld
               txq := p.txq ++ [.cmd 0xED, .ign, .cmd (mask.setWidth 8), .ign] }
    else .stall := by
  simp [translateLock, free, txFits_iff, ledSequence, ledByte, emit, pushTx]

theorem translateModifier_break : translateModifier m code true p =
    let p' := { p with ks := setMod m false p.ks }
    if p.noBreaks then .ignore p' else .event (keyEvent true p'.ks p.lockMask code) p' := rfl

theorem translateModifier_make : translateModifier m code false p =
    if p.noRepeats = true ∧ getMod m p.ks = true then .ignore p
    else .event (keyEvent false (setMod m true p.ks) p.lockMask code)
      { p with ks := setMod m true p.ks } := by
  simp [translateModifier, emit]

theorem translatePlain_eq (brk : Bool) {final : KeyCode} (h : remapKeypad cfg code p = final) :
    translatePlain cfg code brk p =
      if final = 0 ∨ (brk = true ∧ p.noBreaks = true) then .ignore p
      else .event (keyEvent brk p.ks p.lockMask final) p := by
  by_cases zero : final = 0
  · simp only [translatePlain, h, if_pos zero, if_pos (Or.inl zero)]
  · simp only [translatePlain, h, zero, false_or]
    cases brk <;> simp [emit, emitBreak]

end

/-! ### One entry (R202) -/

section
variable {cfg : Config.Params} {e : RawEntry} (key : e.resp = false) (p : Ps2)
include key

theorem translateOne_of_no_key (h : lookupCode cfg e = 0) : translateOne cfg e p = .ignore p := by
  rw [translateOne, if_neg (by simp [key]), if_pos h]

variable {code : KeyCode} (hcode : lookupCode cfg e = code) (listed : code ≠ 0)
include hcode listed

theorem translateOne_of_lock {k : LockKey} (lock : lockKeyOf cfg code = some k) :
    translateOne cfg e p = translateLock cfg k code e.brk p := by
  rw [translateOne, if_neg (by simp [key])]
  simp only [hcode, if_neg listed, lock]

theorem translateOne_of_modifier {m : ModKey} (notLock : lockKeyOf cfg code = none)
    (modifier : modKeyOf cfg code = some m) :
    translateOne cfg e p = translateModifier m code e.brk p := by
  rw [translateOne, if_neg (by simp [key])]
  simp only [hcode, if_neg listed, notLock, modifier]

theorem translateOne_of_plain (notLock : lockKeyOf cfg code = none)
    (notModifier : modKeyOf cfg code = none) :
    translateOne cfg e p = translatePlain cfg code e.brk p := by
  rw [translateOne, if_neg (by simp [key])]
  simp only [hcode, if_neg listed, notLock, notModifier]

end

/-! ### The bits a lock key and a modifier key write (R49 to R51) -/

theorem getLsbD_lockBit (k : LockKey) {j : Nat} (hj : j < 4) :
    (lockBit k).getLsbD j = decide (j = lockIndex k) := by
  cases k <;> interval_cases j <;> rfl

theorem heldBits_getElem? (k : LockKey) (h : LockHeld) : (heldBits h)[lockIndex k]? = some (getHeld k h) := by
  cases k <;> rfl

theorem heldBits_setHeld (k : LockKey) (v : Bool) (h : LockHeld) :
    heldBits (setHeld k v h) = (heldBits h).set (lockIndex k) v := by
  cases k <;> rfl

theorem modBits_getElem? (m : ModKey) (ks : Modifiers) : (modBits ks)[modIndex m]? = some (getMod m ks) := by
  cases m <;> rfl

theorem modBits_setMod (m : ModKey) (v : Bool) (ks : Modifiers) :
    modBits (setMod m v ks) = (modBits ks).set (modIndex m) v := by
  cases m <;> rfl

/-! ### The passes of translation (R190) -/

/-- One pass from `p` to `q`: with room for an event, the head of the raw ring is consumed with its whole
effect, and its event, if it gives one, goes to the tail of the event ring. -/
inductive TranslatePass (cfg : Config.Params) (p : Ps2) : Ps2 → Prop where
  | ignored (e : RawEntry) (rest : List RawEntry) (p' : Ps2) : p.raw = e :: rest →
      p.evt.length + 1 ≤ cfg.evtCap → translateOne cfg e p = .ignore p' →
      TranslatePass cfg p { p' with raw := rest }
  | emitted (e : RawEntry) (rest : List RawEntry) (ev : KeyEvent) (p' : Ps2) : p.raw = e :: rest →
      p.evt.length + 1 ≤ cfg.evtCap → translateOne cfg e p = .event ev p' →
      TranslatePass cfg p { p' with raw := rest, evt := p'.evt ++ [ev] }

/-- No pass is possible. -/
inductive TranslateStops (cfg : Config.Params) (p : Ps2) : Prop where
  | noEntry : p.raw = [] → TranslateStops cfg p
  | noRoom : cfg.evtCap ≤ p.evt.length → TranslateStops cfg p
  | stalled (e : RawEntry) (rest : List RawEntry) : p.raw = e :: rest → translateOne cfg e p = .stall →
      TranslateStops cfg p

section
variable {cfg : Config.Params} {p q : Ps2}

theorem TranslatePass.translate_eq (h : TranslatePass cfg p q) : translate cfg p = translate cfg q := by
  cases h with
  | ignored e rest p' raw room one =>
    simp [translate, translateEntries_withRaw, raw, translateEntries, (hasRoom_iff _ _ _).2 room, one]
  | emitted e rest ev p' raw room one =>
    simp [translate, translateEntries_withRaw cfg rest { p' with evt := p'.evt ++ [ev] }, raw,
      translateEntries, (hasRoom_iff _ _ _).2 room, one]

theorem TranslateStops.translate_eq (h : TranslateStops cfg p) : translate cfg p = p := by
  cases h with
  | noEntry raw => rw [translate, raw, translateEntries, ← raw]
  | noRoom full =>
    have noRoom : ¬ hasRoom cfg.evtCap p.evt.length 1 = true := by
      rw [hasRoom_iff]
      omega
    cases raw : p.raw with
    | nil => rw [translate, raw, translateEntries, ← raw]
    | cons e rest => rw [translate, raw, translateEntries, if_neg noRoom, ← raw]
  | stalled e rest raw stall =>
    rw [translate, raw]
    simp only [translateEntries, stall, ite_self]
    rw [← raw]

theorem translateStops_or_pass (cfg : Config.Params) (p : Ps2) :
    TranslateStops cfg p ∨ ∃ q, TranslatePass cfg p q := by
  cases raw : p.raw with
  | nil => exact .inl (.noEntry raw)
  | cons e rest =>
    by_cases room : p.evt.length + 1 ≤ cfg.evtCap
    · cases one : translateOne cfg e p with
      | stall => exact .inl (.stalled e rest raw one)
      | ignore p' => exact .inr ⟨_, .ignored e rest p' raw room one⟩
      | event ev p' => exact .inr ⟨_, .emitted e rest ev p' raw room one⟩
    · exact .inl (.noRoom (by omega))

theorem TranslatePass.raw_length (h : TranslatePass cfg p q) : q.raw.length < p.raw.length := by
  cases h with
  | ignored e rest p' raw => simp [raw]
  | emitted e rest ev p' raw => simp [raw]

/-- Translation is passes until none is possible. -/
theorem translate_passes (cfg : Config.Params) (p : Ps2) :
    Relation.ReflTransGen (TranslatePass cfg) p (translate cfg p) ∧
      TranslateStops cfg (translate cfg p) := by
  induction hn : p.raw.length using Nat.strong_induction_on generalizing p with
  | h n ih =>
    obtain stops | ⟨q, pass⟩ := translateStops_or_pass cfg p
    · rw [stops.translate_eq]
      exact ⟨.refl, stops⟩
    · obtain ⟨passes, stops⟩ := ih _ (hn ▸ pass.raw_length) q rfl
      rw [pass.translate_eq]
      exact ⟨.head pass passes, stops⟩

end

/-! ### What the passes keep -/

/-- From `p` to `q` entries left the raw ring at its head and at most as many events joined the event ring
at its tail, within the capacity; beside the rings only the outbound queue, the modifier and the lock state
may differ. -/
structure Translates (cfg : Config.Params) (p q : Ps2) : Prop where
  frame : q = { p with raw := q.raw, evt := q.evt, txq := q.txq, ks := q.ks,
                       lockMask := q.lockMask, lockHeld := q.lockHeld }
  rings : ∃ (taken : List RawEntry) (events : List KeyEvent),
    p.raw = taken ++ q.raw ∧ q.evt = p.evt ++ events ∧ events.length ≤ taken.length
  room : p.evt.length ≤ cfg.evtCap → q.evt.length ≤ cfg.evtCap

section
variable {cfg : Config.Params} {p q r : Ps2}

theorem Translates.refl (cfg : Config.Params) (p : Ps2) : Translates cfg p p :=
  ⟨rfl, ⟨[], [], by simp⟩, id⟩

theorem Translates.trans (h : Translates cfg p q) (h' : Translates cfg q r) : Translates cfg p r := by
  obtain ⟨taken, events, raw, evt, le⟩ := h.rings
  obtain ⟨taken', events', raw', evt', le'⟩ := h'.rings
  refine ⟨?frame, ⟨taken ++ taken', events ++ events', ?raw, ?evt, ?le⟩, h'.room ∘ h.room⟩
  case frame =>
    have frame := h'.frame
    rw [h.frame] at frame
    exact frame
  case raw => rw [raw, raw', List.append_assoc]
  case evt => rw [evt', evt, List.append_assoc]
  case le => simp only [List.length_append]; omega

/-- Consuming an entry touches the outbound queue, the modifier and the lock state alone (R198). -/
theorem EntryKeeps.frame (h : EntryKeeps cfg p q) :
    q = { p with txq := q.txq, ks := q.ks, lockMask := q.lockMask, lockHeld := q.lockHeld } := by
  obtain ⟨irqEn, noBreaks, noRepeats, rx, dec, tx, line, raw, rawDrops, evt, -⟩ := h
  rw [← irqEn, ← noBreaks, ← noRepeats, ← rx, ← dec, ← tx, ← line, ← raw, ← rawDrops, ← evt]

theorem entryKeeps_of_ignore {e : RawEntry} (h : translateOne cfg e p = .ignore q) :
    EntryKeeps cfg p q := by
  have good := translateOne_good cfg e p
  rw [h] at good
  cases good with
  | ignore _ keeps => exact keeps

theorem entryKeeps_of_event {e : RawEntry} {ev : KeyEvent} (h : translateOne cfg e p = .event ev q) :
    EntryKeeps cfg p q := by
  have good := translateOne_good cfg e p
  rw [h] at good
  cases good with
  | event _ _ keeps => exact keeps

theorem txq_full_of_stall {e : RawEntry} (h : translateOne cfg e p = .stall) :
    cfg.txqCap < p.txq.length + 4 := by
  have good := translateOne_good cfg e p
  rw [h] at good
  cases good with
  | stall full => exact full

theorem TranslatePass.translates (h : TranslatePass cfg p q) : Translates cfg p q := by
  cases h with
  | ignored e rest p' raw room one =>
    have keeps := entryKeeps_of_ignore one
    exact ⟨by rw [keeps.frame], ⟨[e], [], by simp [raw, keeps.evt]⟩, by simp [keeps.evt]⟩
  | emitted e rest ev p' raw room one =>
    have keeps := entryKeeps_of_event one
    exact ⟨by rw [keeps.frame], ⟨[e], [ev], by simp [raw, keeps.evt]⟩,
      fun _ => by simpa [keeps.evt] using room⟩

theorem translates_translate (cfg : Config.Params) (p : Ps2) : Translates cfg p (translate cfg p) := by
  obtain ⟨passes, -⟩ := translate_passes cfg p
  generalize translate cfg p = q at passes
  induction passes with
  | refl => exact .refl cfg p
  | tail _ pass ih => exact ih.trans pass.translates

end

/-! ### The statements -/

/-- Settles O38: a pass and a stop each fix what translation does, and every pass keeps `Translates`. -/
theorem translationKeepsTheRingsInOrder : Obligations.TranslationKeepsTheRingsInOrder := by
  intro cfg p q
  obtain ⟨frame, ⟨taken, events, raw, evt, le⟩, room⟩ := translates_translate cfg p
  refine ⟨?head, ?stop, frame, fun fits => ⟨taken, events, raw, evt, le, room fits⟩⟩
  case head =>
    intro e rest head space
    exact ⟨fun ev p' one => (TranslatePass.emitted e rest ev p' head space one).translate_eq,
      fun p' one => (TranslatePass.ignored e rest p' head space one).translate_eq,
      fun one => (TranslateStops.stalled e rest head one).translate_eq⟩
  case stop =>
    rintro (empty | full)
    · exact (TranslateStops.noEntry empty).translate_eq
    · exact (TranslateStops.noRoom full).translate_eq

/-- Settles O39: no pass is possible after translation, and an entry stalls only for want of room in the
outbound queue. -/
theorem translationStopsOnlyForItsReasons : Obligations.TranslationStopsOnlyForItsReasons := by
  intro cfg p q
  obtain ⟨-, stops⟩ := translate_passes cfg p
  cases stops with
  | noEntry empty => exact .inl empty
  | noRoom full => exact .inr (.inl full)
  | stalled e rest raw stall => exact .inr (.inr ⟨txq_full_of_stall stall, e, rest, raw, stall⟩)

/-- Settles O40: by R193's cases of a lock key, a make while free, a make while held, and a break. -/
theorem lockKeysToggleOncePerPress : Obligations.LockKeysToggleOncePerPress := by
  intro cfg k e p valid key hcode code mask
  obtain ⟨lock, listed⟩ := lockKeyOf_lockCode cfg valid k
  have one : translateOne cfg e p = translateLock cfg k code e.brk p :=
    translateOne_of_lock key p hcode listed lock
  refine ⟨?toggles, heldBits_getElem? k _, fun v => heldBits_setHeld k v _, ?room, ?noRoom, ?held, ?brk⟩
  case toggles =>
    intro j hj
    rw [BitVec.getLsbD_xor, getLsbD_lockBit k hj]
  case room =>
    intro make free fits
    rw [one, make, translateLock_first free]
    exact if_pos fits
  case noRoom =>
    intro make free full
    rw [one, make, translateLock_first free]
    exact if_neg (Nat.not_le.2 full)
  case held =>
    intro make held
    rw [one, make, translateLock_repeat held]
  case brk =>
    intro brk
    rw [one, brk, translateLock_break]

/-- Settles O41: by R194's cases of a modifier key, make and break. -/
theorem modifierKeysWriteTheirBit : Obligations.ModifierKeysWriteTheirBit := by
  intro cfg m code e p valid key hm hcode
  obtain ⟨notLock, modifier, listed⟩ := modKeyOf_modCodes cfg valid m code hm
  have one : translateOne cfg e p = translateModifier m code e.brk p :=
    translateOne_of_modifier key p hcode listed notLock modifier
  refine ⟨modBits_getElem? m _, fun v => modBits_setMod m v _, ?make, ?brk⟩
  case make =>
    intro make
    rw [one, make, translateModifier_make]
  case brk =>
    intro brk
    rw [one, brk, translateModifier_break]

/-- Settles O42: a keypad key is no lock or modifier key, and its remap value is the one listed with it. -/
theorem keypadKeysFollowNumLock : Obligations.KeypadKeysFollowNumLock := by
  intro cfg code nav e p valid key hkeypad hcode final
  have keypad : code ∈ cfg.keypadRemap.map Prod.fst := List.mem_map_of_mem hkeypad
  obtain ⟨notLock, notModifier, listed⟩ := plain_of_mem_keypad valid keypad
  rw [translateOne_of_plain key p hcode listed notLock notModifier]
  exact translatePlain_eq e.brk (remapKeypad_of_mem valid hkeypad p)

/-- Settles O43: the kinds of key leave an ordinary one to R196, with no remap value to look up. -/
theorem responsesAndOrdinaryKeysKeepTheirCode : Obligations.ResponsesAndOrdinaryKeysKeepTheirCode := by
  refine ⟨?response, ?lookup, ?ordinary⟩
  case response =>
    intro cfg e p resp
    rw [translateOne, if_pos resp, responseEvent, BitVec.ofNat_toNat]
  case lookup =>
    exact fun cfg e => ⟨lookupCode_of_pause cfg, lookupCode_of_extended cfg, lookupCode_of_normal cfg⟩
  case ordinary =>
    intro cfg e p key notLock notModifier notKeypad
    by_cases zero : lookupCode cfg e = 0
    · rw [translateOne_of_no_key key p zero, if_pos (.inl zero)]
    · rw [translateOne_of_plain key p rfl zero (lockKeyOf_eq_none notLock) (modKeyOf_eq_none notModifier)]
      exact translatePlain_eq e.brk (remapKeypad_of_not_mem notKeypad p)

/-- Settles O44: the event is the status byte above the code, and the status byte lists the flags. -/
theorem keyEventHasItsFields : Obligations.KeyEventHasItsFields := by
  intro brk ks mask code ev
  have flag (i : Nat) : ev.getLsbD (8 + i) = (keyStatus brk ks mask code).getLsbD i :=
    getLsbD_keyEvent_status brk ks mask code i
  obtain ⟨h7, h6, h5, h4, h3, h2, h1, h0⟩ := getLsbD_keyStatus brk ks mask code
  exact ⟨keyEvent_setWidth brk ks mask code, (flag 7).trans h7, (flag 6).trans h6, (flag 5).trans h5,
    (flag 4).trans h4, (flag 3).trans h3, (flag 2).trans h2, (flag 1).trans h1,
    ((flag 0).trans h0) ▸ fnFlag_iff code⟩

end Sys2Proof.Machine
end

section
/-! PROOFS. The transmitter (44_ps2_transmit.md R216 to R224): when the sequencer's steps act and what they do,
the level presented after each edge of a transmission, and the line drivers between any two steps. -/

namespace Sys2Proof.Machine

/-! ### The placeholders of the head command (R101, R217) -/

/-- The placeholders before a command are the run that TX_START takes. -/
theorem takeWhile_isIgn_run (k : Nat) {tail : List TxItem} (head : HeadIsCommand tail) :
    (List.replicate k TxItem.ign ++ tail).takeWhile isIgn = List.replicate k .ign := by
  induction k with
  | zero =>
    cases tail with
    | nil => rfl
    | cons i rest =>
      cases i with
      | cmd b => rfl
      | ign => exact absurd rfl head
  | succ k ih => exact congrArg (TxItem.ign :: ·) ih

/-- What TX_START leaves in the queue is what follows that run. -/
theorem dropWhile_isIgn_run (k : Nat) {tail : List TxItem} (head : HeadIsCommand tail) :
    (List.replicate k TxItem.ign ++ tail).dropWhile isIgn = tail := by
  have whole := List.takeWhile_append_dropWhile (p := isIgn) (l := List.replicate k TxItem.ign ++ tail)
  rw [takeWhile_isIgn_run k head] at whole
  exact List.append_cancel_left whole

/-! ### The sequencer's steps where their guard holds (R216 to R219) -/

section
variable {p : Ps2}

theorem stepTxStart_of_immediate (irq : p.irqEn = true) (idle : p.tx.phase = .idle) (clear : p.rx.n = 0)
    (imm : p.tx.immValid = true) : stepTxStart p =
      beginTransmission p.tx.immByte { p with tx := { p.tx with immValid := false } } := by
  rw [stepTxStart, if_pos ((txStartEnabled_iff p).2 ⟨irq, idle, clear, .inl imm⟩), txStart, if_pos imm]

theorem stepTxStart_of_command (irq : p.irqEn = true) (idle : p.tx.phase = .idle) (clear : p.rx.n = 0)
    (noImm : p.tx.immValid = false) (noneOwed : p.dec.expected = 0) {b : Byte} {rest : List TxItem}
    (queue : p.txq = .cmd b :: rest) : stepTxStart p =
      beginTransmission b { p with
        txq := rest.dropWhile isIgn
        dec := { p.dec with expected := BitVec.ofNat 8 (rest.takeWhile isIgn).length } } := by
  have guard : txStartEnabled p = true :=
    (txStartEnabled_iff p).2 ⟨irq, idle, clear, .inr ⟨by simp [queue], noneOwed⟩⟩
  simp [stepTxStart, guard, txStart, noImm, queue]

theorem stepTxInhibit_of_prep (irq : p.irqEn = true) (prep : p.tx.phase = .prep) : stepTxInhibit p =
    { p with line := { p.line with clkDrvLow := true }, tx := { p.tx with phase := .inhibit } } := by
  simp [stepTxInhibit, irq, prep]

theorem stepTxRelease_of_inhibit (irq : p.irqEn = true) (inhibit : p.tx.phase = .inhibit) :
    stepTxRelease p =
      { p with
        line := { clkDrvLow := false, dataDrvLow := true }
        tx := { p.tx with phase := .shift, k := 0 } } := by
  simp [stepTxRelease, irq, inhibit]

/-! ### One edge in SHIFT (R93, R220, R222, R224) -/

theorem busFall_of_shift (cfg : Config.Params) (d : Bool) (t : BitVec 32) (irq : p.irqEn = true)
    (shift : p.tx.phase = .shift) : busFall cfg d t p = txEdge (dataLevel d p) p := by
  simp [busFall, fallingEdge, irq, shift]

/-- R220's three kinds of edge present the bits of R93's frame. -/
theorem txEdge_of_lt (d : Bool) (more : p.tx.k < 10) : txEdge d p =
    { p with
      line := { p.line with dataDrvLow := !hostFrameLevel p.tx.byte (p.tx.k + 1) }
      tx := { p.tx with k := p.tx.k + 1 } } := by
  by_cases data : p.tx.k + 1 ≤ 8
  · simp [txEdge, hostFrameLevel, data]
  by_cases parity : p.tx.k + 1 = 9
  · simp [txEdge, hostFrameLevel, parity]
  · have stop : p.tx.k + 1 = 10 := by omega
    simp [txEdge, hostFrameLevel, stop]

theorem txEdge_of_last (d : Bool) (last : 10 ≤ p.tx.k) :
    txEdge d p = txComplete { p with tx := { p.tx with k := p.tx.k + 1, ack := !d } } := by
  obtain ⟨more, -⟩ | ⟨-, he⟩ := txEdge_cases d p
  · exact absurd more (Nat.not_lt.2 last)
  · exact he

end

/-! ### The 11 edges of a transmission -/

/-- The unit in SHIFT with `k` edges of the transmission counted and bit `k` of the frame on `data`. -/
def presenting (k : Nat) (p : Ps2) : Ps2 :=
  { p with
    line := { clkDrvLow := false, dataDrvLow := !hostFrameLevel p.tx.byte k }
    tx := { p.tx with phase := .shift, k := k } }

theorem busFall_presenting (cfg : Config.Params) (d : Bool) (t : BitVec 32) {p : Ps2} {k : Nat}
    (irq : p.irqEn = true) (more : k < 10) :
    busFall cfg d t (presenting k p) = presenting (k + 1) p := by
  rw [busFall_of_shift cfg d t (p := presenting k p) irq rfl, txEdge_of_lt _ (p := presenting k p) more]
  rfl

/-- After edge 10 `data` is released, so the device's own level is the one sampled at edge 11. -/
theorem busFall_presenting_last (cfg : Config.Params) (d : Bool) (t : BitVec 32) {p : Ps2}
    (irq : p.irqEn = true) : busFall cfg d t (presenting 10 p) =
      { p with
        tx := { p.tx with phase := .idle, k := 0, ack := !d }
        line := { clkDrvLow := false, dataDrvLow := false }
        rx := { p.rx with n := 0, sr := 0, par := false, perr := false } } := by
  have level : dataLevel d (presenting 10 p) = d := Bool.and_true d
  rw [busFall_of_shift cfg d t (p := presenting 10 p) irq rfl, level,
    txEdge_of_last _ (p := presenting 10 p) (Nat.le_refl 10)]
  rfl

/-- The levels the device gives before the last edge play no part. -/
theorem fallAll_presenting (cfg : Config.Params) (t : BitVec 32) (levels : List Bool) {p : Ps2} {k : Nat}
    (irq : p.irqEn = true) (bits : k + levels.length ≤ 10) :
    fallAll cfg t levels (presenting k p) = presenting (k + levels.length) p := by
  induction levels generalizing k with
  | nil => rfl
  | cons d levels ih =>
    rw [List.length_cons] at bits ⊢
    rw [fallAll_cons, busFall_presenting cfg d t irq (by omega), ih (by omega), Nat.add_right_comm,
      Nat.add_assoc]

/-- The sequencer's last two steps together put the start bit on `data` (R218, R219). -/
theorem stepTxRelease_stepTxInhibit {p : Ps2} (irq : p.irqEn = true) (prep : p.tx.phase = .prep) :
    stepTxRelease (stepTxInhibit p) = presenting 0 p := by
  rw [stepTxInhibit_of_prep irq prep]
  exact stepTxRelease_of_inhibit irq rfl

/-- DEV_CLOCK_HOST (R109) takes the transmission from its start bit to its end. -/
theorem fallAll_clockHost (cfg : Config.Params) (ack : Bool) {p : Ps2} (irq : p.irqEn = true) :
    fallAll cfg 0 (List.replicate 10 true ++ [!ack]) (presenting 0 p) =
      { p with
        tx := { p.tx with phase := .idle, k := 0, ack := ack }
        line := { clkDrvLow := false, dataDrvLow := false }
        rx := { p.rx with n := 0, sr := 0, par := false, perr := false } } := by
  rw [fallAll_append, fallAll_presenting cfg 0 (List.replicate 10 true) irq (Nat.le_refl 10), fallAll_cons]
  have last := busFall_presenting_last cfg (!ack) 0 irq
  rw [Bool.not_not] at last
  exact last

/-! ### The line drivers (R44, R221) -/

section
variable {p q : Ps2}

/-- The levels are those of the phase, the byte and the count of edges, and of nothing else. -/
theorem BusLevels.of_eq (h : BusLevels p) (line : q.line = p.line) (phase : q.tx.phase = p.tx.phase)
    (byte : q.tx.byte = p.tx.byte) (k : q.tx.k = p.tx.k) : BusLevels q := by
  unfold BusLevels
  rw [line, phase, byte, k]
  exact h

theorem BusLevels.line_of_idle (h : BusLevels p) (idle : p.tx.phase = .idle) :
    p.line = { clkDrvLow := false, dataDrvLow := false } := by
  simpa only [BusLevels, idle] using h

theorem BusLevels.line_of_prep (h : BusLevels p) (prep : p.tx.phase = .prep) :
    p.line = { clkDrvLow := false, dataDrvLow := false } := by
  simpa only [BusLevels, prep] using h

theorem BusLevels.line_of_shift (h : BusLevels p) (shift : p.tx.phase = .shift) : p.tx.k ≤ 10 ∧
    p.line = { clkDrvLow := false, dataDrvLow := !hostFrameLevel p.tx.byte p.tx.k } := by
  simpa only [BusLevels, shift] using h

theorem BusLevels.presenting {k : Nat} (bits : k ≤ 10) (p : Ps2) : BusLevels (presenting k p) := ⟨bits, rfl⟩

theorem BusLevels.decodeByte (cfg : Config.Params) (b : Byte) (h : BusLevels p) :
    BusLevels (decodeByte cfg b p) :=
  have keeps := decodeByte_keeps cfg b p
  h.of_eq keeps.line keeps.phase keeps.byte keeps.k

theorem BusLevels.rxFall (cfg : Config.Params) (d : Bool) (t : BitVec 32) (h : BusLevels p) :
    BusLevels (rxFall cfg d t p) := by
  obtain ⟨rx, -, hw | hw | ⟨b, hw⟩⟩ := rxFall_writes cfg d t p <;> rw [hw]
  · exact h
  · exact h
  · exact BusLevels.decodeByte cfg b (p := { p with rx := rx }) h

/-- Edge 11 finds `data` released by the stop bit (R220, R224). -/
theorem BusLevels.txEdge (d : Bool) (h : BusLevels p) (shift : p.tx.phase = .shift) :
    BusLevels (txEdge d p) := by
  obtain ⟨counted, line⟩ := h.line_of_shift shift
  obtain more | ten := Nat.lt_or_eq_of_le counted
  · rw [txEdge_of_lt d more, line]
    exact (BusLevels.presenting more p).of_eq rfl shift rfl rfl
  · rw [txEdge_of_last d ten.ge]
    exact line.trans (by rw [ten]; rfl)

theorem BusLevels.busFall (cfg : Config.Params) (d : Bool) (t : BitVec 32) (h : BusLevels p) :
    BusLevels (busFall cfg d t p) := by
  obtain hb | ⟨-, shift, hb⟩ | ⟨-, -, hb⟩ := busFall_cases cfg d t p <;> rw [hb]
  · exact h
  · exact h.txEdge _ shift
  · exact h.rxFall cfg _ t

/-- PREP keeps both lines released, as they were in IDLE (R217). -/
theorem BusLevels.stepTxStart (h : BusLevels p) : BusLevels (stepTxStart p) := by
  obtain hs | ⟨guard, hs⟩ := stepTxStart_cases p
  · rwa [hs]
  obtain ⟨-, idle, -⟩ := (txStartEnabled_iff p).1 guard
  obtain ⟨-, hs⟩ | ⟨b, rest, -, -, hs⟩ := hs <;> rw [hs] <;> exact h.line_of_idle idle

theorem BusLevels.stepTxInhibit (h : BusLevels p) : BusLevels (stepTxInhibit p) := by
  obtain hs | ⟨-, prep, hs⟩ := stepTxInhibit_cases p <;> rw [hs]
  · exact h
  · rw [h.line_of_prep prep]
    rfl

/-- Pulling `data` low presents the start bit (R219). -/
theorem BusLevels.stepTxRelease (h : BusLevels p) : BusLevels (stepTxRelease p) := by
  obtain hs | ⟨-, -, hs⟩ := stepTxRelease_cases p <;> rw [hs]
  · exact h
  · exact .presenting (Nat.zero_le 10) p

theorem BusLevels.translate (cfg : Config.Params) (h : BusLevels p) : BusLevels (translate cfg p) := by
  rw [(translates_translate cfg p).frame]
  exact h

end

/-! ### The statements -/

/-- Settles O51: the transmission alone writes the drivers and what they follow from, and each of its steps sets
the lines of the phase it enters. -/
theorem stepKeepsTheBusLevels : Obligations.StepKeepsTheBusLevels := fun _ _ hs h =>
  step_keeps_unit (I := BusLevels) rfl (fun _ _ _ _ hp => hp) (fun cfg _ hp => hp.translate cfg)
    (fun _ _ _ _ hp => hp) (fun _ _ _ _ hp => hp) (fun cfg d t _ hp => hp.busFall cfg d t)
    (fun _ hp => hp.stepTxStart) (fun _ hp => hp.stepTxInhibit) (fun _ hp => hp.stepTxRelease) hs h

/-- Settles O45: the guard holds in both cases, by the immediate byte or by the head command; with the latter
TX_START takes the one run of placeholders that stands before the next command. -/
theorem txStartSendsTheImmediateByteOrTheQueueHead :
    Obligations.TxStartSendsTheImmediateByteOrTheQueueHead := by
  intro s irq idle clear sending
  refine ⟨?immediate, ?queued⟩
  case immediate =>
    intro imm
    rw [deliver, stepTxStart_of_immediate irq idle clear imm]
    rfl
  case queued =>
    intro b k tail noImm noneOwed _ queue head
    rw [deliver, stepTxStart_of_command irq idle clear noImm noneOwed queue, takeWhile_isIgn_run k head,
      dropWhile_isIgn_run k head, List.length_replicate]
    -- The slot is empty before the step, so the statement's `immValid := false` writes what is there.
    simp only [sending, ← noImm]
    rfl

/-- Settles O48: the sequencer's two steps put the start bit on the line, and the edges take it from there. -/
theorem transmissionCompletes : Obligations.TransmissionCompletes := by
  refine ⟨?inhibit, ?release, ?complete⟩
  case inhibit =>
    intro s irq prep
    rw [deliver, stepTxInhibit_of_prep irq prep]
  case release =>
    intro s irq inhibit
    rw [deliver, stepTxRelease_of_inhibit irq inhibit]
  case complete =>
    intro s ack rest irq prep
    have released := stepTxRelease_stepTxInhibit irq prep
    calc Host.Core.run Sys2Proof.core 13
          { s with inputs := [.txInhibit, .txRelease] ++ devClockHost ack ++ rest }
        = Host.Core.run Sys2Proof.core 11
            { s with
              inputs := devClockHost ack ++ rest
              ps2 := stepTxRelease (stepTxInhibit s.ps2) } :=
          (run_succ_of_deliver 12 rfl rfl).trans (run_succ_of_deliver 11 rfl rfl)
      _ = .next { s with
            inputs := rest
            ps2 := fallAll s.cfg 0 (List.replicate 10 true ++ [!ack]) (presenting 0 s.ps2) } := by
          rw [released]
          exact run_fallsAt 0 (List.replicate 10 true ++ [!ack]) rest { s with ps2 := presenting 0 s.ps2 }
      _ = _ := by rw [fallAll_clockHost s.cfg ack irq]

/-- Settles O46: each way the guard fails contradicts it, and without its guard a step keeps the unit. -/
theorem sequencerStepsWaitForTheirGuard : Obligations.SequencerStepsWaitForTheirGuard := by
  intro s
  refine ⟨?start, ?inhibit, ?release⟩
  case start =>
    intro fails
    obtain waits | ⟨guard, -⟩ := stepTxStart_cases s.ps2
    · rw [deliver, waits]
    obtain ⟨irq, idle, clear, ready⟩ := (txStartEnabled_iff s.ps2).1 guard
    obtain off | busy | receiving | ⟨noImm, nothing⟩ := fails
    · exact absurd irq (by simp [off])
    · exact absurd idle busy
    · exact absurd clear receiving
    · obtain imm | ⟨queued, noneOwed⟩ := ready
      · exact absurd imm (by simp [noImm])
      · exact absurd nothing (by simp [queued, noneOwed])
  case inhibit =>
    intro fails
    obtain waits | ⟨irq, prep, -⟩ := stepTxInhibit_cases s.ps2
    · rw [deliver, waits]
    · exact absurd fails (by simp [irq, prep])
  case release =>
    intro fails
    obtain waits | ⟨irq, inhibit, -⟩ := stepTxRelease_cases s.ps2
    · rw [deliver, waits]
    · exact absurd fails (by simp [irq, inhibit])

/-- Settles O47: an edge in SHIFT before the last is R220's, at whatever level and time. -/
theorem transmissionPresentsTheFrame : Obligations.TransmissionPresentsTheFrame := by
  intro s d t irq shift more
  rw [deliver, busFall_of_shift s.cfg d t irq shift, txEdge_of_lt _ more]

end Sys2Proof.Machine
end

section
/-! PROOFS. The fourteen PS/2 commands (45_ps2_commands.md R235 to R248): what each operand reading accepts,
what each command answers under its checks, and what none but PS2_INIT touches. -/

namespace Sys2Proof.Machine

open Host (Outcome)

/-! ### Readings of the operands (R90, R97) -/

theorem flagOfByte_of_le {flag : Byte} (legal : flag.toNat ≤ 1) :
    flagOfByte flag = some (decide (flag = 1)) := by
  obtain zero | one : flag = 0 ∨ flag = 1 := by bv_omega
  · rw [zero]; rfl
  · rw [one]; rfl

theorem flagOfByte_of_gt {flag : Byte} (bad : 1 < flag.toNat) : flagOfByte flag = none := by
  unfold flagOfByte
  split
  · omega
  · omega
  · rfl

theorem lockMaskOfByte_of_le {mask : Byte} (legal : mask.toNat ≤ 15) :
    lockMaskOfByte mask = some (BitVec.ofNat 4 mask.toNat) := by
  rw [lockMaskOfByte, if_pos legal, BitVec.ofNat_toNat]

theorem lockMaskOfByte_of_gt {mask : Byte} (bad : 15 < mask.toNat) : lockMaskOfByte mask = none :=
  if_neg (Nat.not_le_of_lt bad)

/-- The two fields of the typematic byte share no bit, so R97's `|` adds them. -/
theorem typematicOfBytes_of_le {rate delay : Byte} (hr : rate.toNat ≤ 31) (hd : delay.toNat ≤ 3) :
    typematicOfBytes rate delay = some (BitVec.ofNat 8 (32 * delay.toNat + rate.toNat)) := by
  have disjoint : delay.toNat <<< 5 + rate.toNat = delay.toNat <<< 5 ||| rate.toNat :=
    Nat.shiftLeft_add_eq_or_of_lt (Nat.lt_succ_of_le hr) delay.toNat
  have shifted : delay.toNat <<< 5 = 32 * delay.toNat := by
    rw [Nat.shiftLeft_eq, Nat.mul_comm]
  have layout : (delay <<< 5) ||| rate = BitVec.ofNat 8 (32 * delay.toNat + rate.toNat) := by
    apply BitVec.eq_of_toNat_eq
    rw [BitVec.toNat_or, BitVec.toNat_shiftLeft, BitVec.toNat_ofNat, Nat.mod_eq_of_lt (by omega),
      Nat.mod_eq_of_lt (by omega), ← disjoint, shifted]
  rw [typematicOfBytes, if_pos ⟨hr, hd⟩, layout]

theorem typematicOfBytes_of_gt {rate delay : Byte} (bad : 31 < rate.toNat ∨ 3 < delay.toNat) :
    typematicOfBytes rate delay = none :=
  if_neg (by omega)

/-- An event is answered low byte first (R67). -/
theorem eventBytes_eq (ev : KeyEvent) :
    eventBytes ev = [BitVec.ofNat 8 ev.toNat, BitVec.ofNat 8 (ev.toNat / 256)] := by
  have low : ev.extractLsb' 0 8 = BitVec.ofNat 8 ev.toNat := rfl
  have high : ev.extractLsb' 8 8 = BitVec.ofNat 8 (ev.toNat / 256) :=
    congrArg (BitVec.ofNat 8) (Nat.shiftRight_eq_div_pow ev.toNat 8)
  rw [eventBytes, low, high]

theorem ledByte_eq (mask : BitVec 4) : ledByte mask = BitVec.ofNat 8 mask.toNat :=
  (BitVec.ofNat_toNat 8 mask).symm

/-! ### Queueing a sequence (R65, R98) -/

section
variable {s : State}

theorem queueSequence_of_room {items : List TxItem}
    (room : s.ps2.txq.length + items.length ≤ s.cfg.txqCap) : queueSequence items s =
      .next { s with ps2 := { s.ps2 with txq := s.ps2.txq ++ items }, response := [0x00] } := by
  obtain ⟨-, queued⟩ | ⟨full, -⟩ := queueSequence_cases items s
  · exact queued
  · omega

theorem queueSequence_of_full {items : List TxItem}
    (full : ¬ s.ps2.txq.length + items.length ≤ s.cfg.txqCap) :
    queueSequence items s = .next { s with response := [0x07] } := by
  obtain ⟨room, -⟩ | ⟨-, refused⟩ := queueSequence_cases items s
  · exact absurd room full
  · exact refused

/-! ### Events (R238, R239) -/

/-- Translation keeps the event ring within its capacity, so the count of events fits a byte (R5, R55). -/
theorem translate_evt_length_lt (fits : s.ps2.evt.length ≤ s.cfg.evtCap) (cap : s.cfg.evtCap ≤ 255) :
    (translate s.cfg s.ps2).evt.length < 2 ^ 8 :=
  Nat.lt_succ_of_le (((translates_translate s.cfg s.ps2).room fits).trans cap)

theorem execPs2Read_of_empty (empty : (translate s.cfg s.ps2).evt = []) : execPs2Read s =
    .next { s with ps2 := translate s.cfg s.ps2, response := [0x00, 0x00, 0x00] } := by
  simp only [execPs2Read, empty]
  rfl

theorem execPs2Read_of_event {ev : KeyEvent} {rest : List KeyEvent}
    (oldest : (translate s.cfg s.ps2).evt = ev :: rest) : execPs2Read s =
      .next { s with
        ps2 := { translate s.cfg s.ps2 with evt := rest }
        response := [0x00, BitVec.ofNat 8 ev.toNat, BitVec.ofNat 8 (ev.toNat / 256)] } := by
  simp only [execPs2Read, oldest, eventBytes_eq]
  rfl

/-! ### The lock mask (R241) -/

theorem execPs2SetLock_of_bad_mask {mask : Byte} (bad : 15 < mask.toNat) :
    execPs2SetLock mask s = .next { s with response := [0x05] } := by
  simp only [execPs2SetLock, lockMaskOfByte_of_gt bad]
  rfl

theorem execPs2SetLock_of_full {mask : Byte} (legal : mask.toNat ≤ 15)
    (full : s.cfg.txqCap < s.ps2.txq.length + 4) :
    execPs2SetLock mask s = .next { s with response := [0x07] } := by
  have noRoom : ¬ txFits s.cfg (ledSequence mask) s.ps2 = true :=
    mt (txFits_iff _ _ _).1 (Nat.not_le_of_lt full)
  simp only [execPs2SetLock, lockMaskOfByte_of_le legal, if_neg noRoom]
  rfl

theorem execPs2SetLock_of_room {mask : Byte} (legal : mask.toNat ≤ 15)
    (room : s.ps2.txq.length + 4 ≤ s.cfg.txqCap) :
    execPs2SetLock mask s = .next { s with
      ps2 := { s.ps2 with
        lockMask := BitVec.ofNat 4 mask.toNat
        txq := s.ps2.txq ++ [.cmd 0xED, .ign, .cmd mask, .ign] }
      response := [0x00] } := by
  have fits : txFits s.cfg (ledSequence mask) s.ps2 = true := (txFits_iff _ _ _).2 room
  simp only [execPs2SetLock, lockMaskOfByte_of_le legal, if_pos fits]
  rfl

/-! ### The typematic rate (R247) -/

theorem execPs2Typematic_of_bad_argument {rate delay : Byte}
    (bad : 31 < rate.toNat ∨ 3 < delay.toNat) :
    execPs2Typematic rate delay s = .next { s with response := [0x05] } := by
  simp only [execPs2Typematic, typematicOfBytes_of_gt bad]
  rfl

theorem execPs2Typematic_of_legal {rate delay : Byte} (hr : rate.toNat ≤ 31)
    (hd : delay.toNat ≤ 3) : execPs2Typematic rate delay s =
      queueSequence (typematicSequence (BitVec.ofNat 8 (32 * delay.toNat + rate.toNat))) s := by
  simp only [execPs2Typematic, typematicOfBytes_of_le hr hd]

end

/-! ### The bit-level unit (R190, R235 to R237) -/

/-- The elements of the PS/2 unit that neither the host's commands nor translation work on: the receive,
decoder and transmit state, the lines and the drop count. -/
structure BitLevel where
  rx : Rx
  dec : Dec
  tx : Tx
  line : Lines
  rawDrops : BitVec 16

/-- The unit's own bit level. -/
def bitLevel (p : Ps2) : BitLevel := ⟨p.rx, p.dec, p.tx, p.line, p.rawDrops⟩

theorem bitLevel_eq_iff (p q : Ps2) : bitLevel q = bitLevel p ↔
    q.rx = p.rx ∧ q.dec = p.dec ∧ q.tx = p.tx ∧ q.line = p.line ∧ q.rawDrops = p.rawDrops := by
  simp only [bitLevel, BitLevel.mk.injEq]

/-- The bit level with the interrupt enable, which freezes it (R151). -/
def bitLevelAndEnable (s : State) : BitLevel × Bool := (bitLevel s.ps2, s.ps2.irqEn)

/-- Translation works on the rings, the outbound queue, the modifier and the lock state alone. -/
theorem bitLevelAndEnable_translate (s : State) :
    bitLevelAndEnable { s with ps2 := translate s.cfg s.ps2 } = bitLevelAndEnable s := by
  rw [(translates_translate s.cfg s.ps2).frame]
  rfl

theorem queueSequence_keeps_bitLevel (items : List TxItem) (s : State) :
    Keeps bitLevelAndEnable s (queueSequence items s) := by
  obtain ⟨-, h⟩ | ⟨-, h⟩ := queueSequence_cases items s <;> rw [h] <;> exact .next rfl

/-- A command that keeps the whole unit keeps its bit level. -/
theorem Keeps.bitLevel {s : State} {o : Outcome State Fault Refusal} (h : Keeps State.ps2 s o) :
    Keeps bitLevelAndEnable s o :=
  fun t ht => congrArg (fun p => (Machine.bitLevel p, p.irqEn)) (h t ht)

/-- The fifteen commands beside PS2_INIT and the interrupt commands keep the bit level and the enable. -/
theorem exec_keeps_bitLevel {i : Instr} (init : i ≠ .ps2Init) (enable : i ≠ .ps2EnableIrq)
    (disable : i ≠ .ps2DisableIrq) (s : State) : Keeps bitLevelAndEnable s (exec i s) := by
  cases i with
  | ps2Init => exact absurd rfl init
  | ps2EnableIrq => exact absurd rfl enable
  | ps2DisableIrq => exact absurd rfl disable
  | engInit | engSetPlugboard | engEncrypt => exact (exec_keeps_ps2_of_changesEngine rfl s).bitLevel
  | engRotorOffset n => exact (execEngRotorOffset_keeps_ps2 n s).bitLevel
  | ps2Available => exact .next (bitLevelAndEnable_translate s)
  | ps2Read =>
    simp only [exec, execPs2Read]
    split <;> exact .next (bitLevelAndEnable_translate s)
  | ps2GetLock => exact .next rfl
  | ps2SetLock mask =>
    simp only [exec, execPs2SetLock]
    split
    · exact .next rfl
    · split <;> exact .next rfl
  | ps2SetNoBreaks flag =>
    simp only [exec, execPs2SetNoBreaks]
    split <;> exact .next rfl
  | ps2SetNoRepeats flag =>
    simp only [exec, execPs2SetNoRepeats]
    split <;> exact .next rfl
  | ps2Echo | ps2ReadId | ps2GetScancodeSet | ps2Reset => exact queueSequence_keeps_bitLevel _ s
  | ps2Typematic rate delay =>
    simp only [exec, execPs2Typematic]
    split
    · exact queueSequence_keeps_bitLevel _ s
    · exact .next rfl

/-! ### The statements -/

/-- Settles O20: the count of events is below 256, so its byte has its value. -/
theorem ps2AvailableAnswersTheCount : Obligations.Ps2AvailableAnswersTheCount := by
  intro s fits cap
  refine ⟨decode_encode (i := .ps2Available) rfl,
    BitVec.ofNat 8 (translate s.cfg s.ps2).evt.length, ?_, rfl⟩
  exact Nat.mod_eq_of_lt (translate_evt_length_lt fits cap)

/-- Settles O24: each command is one sequence, queued whole or refused. -/
theorem deviceCommandsQueueTheirSequenceWhole : Obligations.DeviceCommandsQueueTheirSequenceWhole := by
  intro s room queued full
  exact ⟨decode_encode (i := .ps2Echo) rfl, decode_encode (i := .ps2ReadId) rfl,
    decode_encode (i := .ps2GetScancodeSet) rfl, decode_encode (i := .ps2Reset) rfl,
    queueSequence_of_room (items := echoSequence), queueSequence_of_full (items := echoSequence),
    queueSequence_of_room (items := readIdSequence), queueSequence_of_full (items := readIdSequence),
    queueSequence_of_room (items := getScancodeSetSequence),
    queueSequence_of_full (items := getScancodeSetSequence),
    queueSequence_of_room (items := resetSequence), queueSequence_of_full (items := resetSequence)⟩

/-- Settles O25: a legal pair of arguments is read as its parameter byte, whose sequence is then queued
whole or refused. -/
theorem ps2TypematicQueuesItsParameter : Obligations.Ps2TypematicQueuesItsParameter := by
  intro rate delay s
  refine ⟨decode_encode (i := .ps2Typematic rate delay) rfl,
    execPs2Typematic_of_bad_argument, fun hr hd full => ?_, fun hr hd room => ?_⟩
  · exact (execPs2Typematic_of_legal hr hd).trans (queueSequence_of_full (Nat.not_le_of_lt full))
  · exact (execPs2Typematic_of_legal hr hd).trans (queueSequence_of_room room)

/-- Settles O56: the interrupt commands write the enable alone, and every other command keeps it too. -/
theorem commandsLeaveTheBitLevelUnitAlone : Obligations.CommandsLeaveTheBitLevelUnitAlone := by
  intro i s t init h
  by_cases enable : i = .ps2EnableIrq
  · cases enable
    cases h
    exact ⟨rfl, rfl, rfl, rfl, rfl, fun other _ => absurd rfl other⟩
  by_cases disable : i = .ps2DisableIrq
  · cases disable
    cases h
    exact ⟨rfl, rfl, rfl, rfl, rfl, fun _ other => absurd rfl other⟩
  obtain ⟨level, irqEn⟩ := Prod.mk.inj (exec_keeps_bitLevel init enable disable s t h)
  obtain ⟨rx, dec, tx, line, rawDrops⟩ := (bitLevel_eq_iff s.ps2 t.ps2).1 level
  exact ⟨rx, dec, tx, line, rawDrops, fun _ _ => irqEn⟩

/-- Settles O19: `Ps2.reset` lists the reset values. -/
theorem ps2InitResetsTheUnit : Obligations.Ps2InitResetsTheUnit :=
  fun _ => ⟨decode_encode (i := .ps2Init) rfl, rfl⟩

/-- Settles O21: by whether an event is left after translation. -/
theorem ps2ReadPopsTheOldestEvent : Obligations.Ps2ReadPopsTheOldestEvent := fun _ =>
  ⟨decode_encode (i := .ps2Read) rfl, execPs2Read_of_empty, fun _ _ => execPs2Read_of_event⟩

/-- Settles O22: PS2_SET_LOCK by the range of its mask, then by the room for its sequence. -/
theorem lockCommandsReadAndWriteTheMask : Obligations.LockCommandsReadAndWriteTheMask := by
  intro mask s
  refine ⟨decode_encode (i := .ps2GetLock) rfl, decode_encode (i := .ps2SetLock mask) rfl, ?_,
    execPs2SetLock_of_bad_mask, execPs2SetLock_of_full, execPs2SetLock_of_room⟩
  rw [← ledByte_eq]
  rfl

/-- Settles O23: the option commands by whether their flag is read. -/
theorem controlCommandsWriteTheirOwnBit : Obligations.ControlCommandsWriteTheirOwnBit := by
  intro flag s
  refine ⟨decode_encode (i := .ps2EnableIrq) rfl, decode_encode (i := .ps2DisableIrq) rfl,
    decode_encode (i := .ps2SetNoBreaks flag) rfl, decode_encode (i := .ps2SetNoRepeats flag) rfl,
    rfl, rfl, fun legal => ?_, fun bad => ?_⟩
  · simp only [exec, execPs2SetNoBreaks, execPs2SetNoRepeats, flagOfByte_of_le legal]
    exact ⟨rfl, rfl⟩
  · simp only [exec, execPs2SetNoBreaks, execPs2SetNoRepeats, flagOfByte_of_gt bad]
    exact ⟨rfl, rfl⟩

end Sys2Proof.Machine
end

section
/-! PROOFS. The shape of a response (30_encoding.md R87, R88; 60_exceptions.md R261): a refusal is its status
byte alone and changes nothing, an OK response carries the result bytes of its command. -/

namespace Sys2Proof.Machine

open Host (Outcome)

/-! ### Refusals (R91, R261) -/

/-- A response begins with 0x00 when the command answered OK, and only then. -/
theorem respond_head?_eq_zero_iff (st : Status) (data : List Byte) (s : State) :
    (respond st data s).response.head? = some 0x00 ↔ st = .ok := by
  rw [respond_response, List.head?_cons, Option.some_inj, statusByte_eq_zero]

/-- An exchange refuses with the status byte alone and no other change (IllegalCommand included, R89), or
answers OK. -/
theorem exchange_next {packet : List Byte} {s t : State} (h : exchange packet s = .next t) :
    (∃ st, st ≠ .ok ∧ t = respond st [] s) ∨ ∃ data u, t = respond .ok data u := by
  obtain ⟨i, -, hx⟩ | ⟨-, ho⟩ := exchange_cases h
  · obtain refused | ⟨data, u, -, ht⟩ := exec_next hx
    · exact .inl refused
    · exact .inr ⟨data, u, ht⟩
  · cases ho
    exact .inl ⟨.illegalCommand, by decide, rfl⟩

/-! ### Result bytes of an OK response (R87, R88) -/

/-- A next state of the outcome `o` whose response begins with 0x00 has `n` result bytes after it. -/
def OkCarries (n : Nat) (o : Outcome State Fault Refusal) : Prop :=
  ∀ t, o = .next t → t.response.head? = some 0x00 → t.response.length = 1 + n

theorem OkCarries.answer (data : List Byte) (s : State) : OkCarries data.length (answer data s) := by
  rintro _ ⟨⟩ -
  exact Nat.add_comm _ 1

theorem OkCarries.raiseStatus {n : Nat} {st : Status} (error : st ≠ .ok) (s : State) :
    OkCarries n (raiseStatus st s) := by
  rintro _ ⟨⟩ zero
  exact absurd ((respond_head?_eq_zero_iff st [] s).1 zero) error

theorem OkCarries.fault {n : Nat} (r : Fault) : OkCarries n (.fault r) := by
  rintro _ ⟨⟩

theorem queueSequence_okCarries (items : List TxItem) (s : State) :
    OkCarries 0 (queueSequence items s) := by
  obtain ⟨-, h⟩ | ⟨-, h⟩ := queueSequence_cases items s <;> rw [h]
  · exact .answer [] _
  · exact .raiseStatus (by decide) s

/-- R88's column "OK response", row by row. -/
theorem exec_okCarries_resultBytes (i : Instr) (s : State) : OkCarries (resultBytes i) (exec i s) := by
  cases i with
  | engInit rot1 rot2 rot3 refl off1 off2 off3 =>
    simp only [exec]
    obtain ⟨st, h, hst⟩ | ⟨n1, n2, n3, f, o1, o2, o3, h⟩ :=
      execEngInit_cases rot1 rot2 rot3 refl off1 off2 off3 s <;> rw [h]
    · exact .raiseStatus (by rintro rfl; simp at hst) s
    · exact .answer [] _
  | engSetPlugboard p =>
    simp only [exec]
    obtain h | ⟨pb, -, h⟩ := execEngSetPlugboard_cases p s <;> rw [h]
    · exact .raiseStatus (by decide) s
    · exact .answer [] _
  | engEncrypt ch =>
    simp only [exec]
    obtain h | h | ⟨c, h⟩ := execEngEncrypt_cases ch s <;> rw [h]
    · exact .raiseStatus (by decide) s
    · exact .fault _
    · exact .answer [_] _
  | engRotorOffset n =>
    simp only [exec]
    obtain ⟨st, h, hst⟩ | ⟨b, h⟩ := execEngRotorOffset_cases n s <;> rw [h]
    · exact .raiseStatus (by rintro rfl; simp at hst) s
    · exact .answer [b] s
  | ps2Init | ps2EnableIrq | ps2DisableIrq => exact .answer [] _
  | ps2Available | ps2GetLock => exact .answer [_] _
  | ps2Read =>
    simp only [exec, execPs2Read]
    split <;> exact .answer (eventBytes _) _
  | ps2SetLock mask =>
    simp only [exec, execPs2SetLock]
    split
    · exact .raiseStatus (by decide) s
    · split
      · exact .answer [] _
      · exact .raiseStatus (by decide) s
  | ps2SetNoBreaks flag =>
    simp only [exec, execPs2SetNoBreaks]
    split
    · exact .answer [] _
    · exact .raiseStatus (by decide) s
  | ps2SetNoRepeats flag =>
    simp only [exec, execPs2SetNoRepeats]
    split
    · exact .answer [] _
    · exact .raiseStatus (by decide) s
  | ps2Echo | ps2ReadId | ps2GetScancodeSet | ps2Reset => exact queueSequence_okCarries _ s
  | ps2Typematic rate delay =>
    simp only [exec, execPs2Typematic]
    split
    · exact queueSequence_okCarries _ s
    · exact .raiseStatus (by decide) s

/-! ### The statement -/

/-- Settles O6: an exchange that does not answer OK refuses with its status byte; OK responses by the rows
of R88. -/
theorem responsesHaveTheirShapeAndRefusalsChangeNothing :
    Obligations.ResponsesHaveTheirShapeAndRefusalsChangeNothing := by
  refine ⟨fun packet s t h notOk => ?_, fun i s => exec_okCarries_resultBytes i s⟩
  obtain ⟨st, -, rfl⟩ | ⟨data, u, rfl⟩ := exchange_next h
  · exact ⟨rfl, rfl⟩
  · exact absurd ((respond_head?_eq_zero_iff .ok data u).2 rfl) notOk

end Sys2Proof.Machine
end

section
/-! PROOFS. Reset (70_reset_and_hazards.md R280, R282): the values it gives, the invariants it establishes, and
why the engine's choices, which it leaves open, show in no answer. -/

namespace Sys2Proof.Machine

/-! ### The reset state (R280) -/

/-- The plugboard at reset is the identity (R27). -/
@[simp] theorem plug_reset (c : Letter) : plug Engine.reset c = c := by
  simp [plug, Engine.reset]

theorem engineInv_reset : EngineInv Engine.reset :=
  ⟨fun c => by rw [plug_reset, plug_reset], rfl, rfl⟩

theorem queuesFit_reset (cfg : Config.Params) : QueuesFit cfg Ps2.reset :=
  ⟨Nat.zero_le _, Nat.zero_le _, .nil cfg⟩

theorem coreInv_reset : CoreInv State.reset :=
  (coreInv_iff _).2 ⟨engineInv_reset, .zero rfl, queuesFit_reset _⟩

/-! ### Engines that differ in their choices (R23 to R25) -/

/-- Two engines that agree on all but the rotor choices, the reflector and the offsets. -/
structure SameButChoice (d e : Engine) : Prop where
  configured : e.configured = d.configured
  fastFlag : e.r1.stepNext = d.r1.stepNext
  middleFlag : e.r2.stepNext = d.r2.stepNext
  slowFlag : e.r3.stepNext = d.r3.stepNext
  pb : e.pb = d.pb

theorem SameButChoice.refl (d : Engine) : SameButChoice d d := ⟨rfl, rfl, rfl, rfl, rfl⟩

theorem sameButConfiguration_iff (s t : State) :
    SameButConfiguration s t ↔ Related SameButChoice Eq s t := by
  constructor
  · intro h
    rw [SameButConfiguration] at h
    rw [h]
    exact ⟨⟨rfl, rfl, rfl, rfl, rfl⟩, rfl, rfl, rfl, rfl⟩
  · obtain ⟨⟨_, ⟨_, _, _⟩, ⟨_, _, _⟩, ⟨_, _, _⟩, _, _⟩, _, _, _, _⟩ := t
    rintro ⟨⟨rfl, rfl, rfl, rfl, rfl⟩, rfl, rfl, rfl, rfl⟩
    rfl

section
variable {d e : Engine} {s t : State}

/-- ENG_INIT replaces the choices, so it leaves two such engines equal (R134, R282). -/
theorem SameButChoice.configure_eq (h : SameButChoice d e) (n1 n2 n3 : RotorNo) (f : ReflectorNo)
    (o1 o2 o3 : Letter) : configure e n1 n2 n3 f o1 o2 o3 = configure d n1 n2 n3 f o1 o2 o3 := by
  simp only [configure, h.pb]

theorem SameButChoice.plugboard (h : SameButChoice d e) (pb : Vector Letter 26) :
    SameButChoice { d with pb := pb } { e with pb := pb } :=
  { h with pb := rfl }

/-! ### The engine commands of an unconfigured engine -/

theorem Related.execEngInit_of_choice (h : Related SameButChoice Eq s t)
    (rot1 rot2 rot3 refl off1 off2 off3 : Byte) : SameOutcome (Related SameButChoice Eq)
      (Machine.execEngInit rot1 rot2 rot3 refl off1 off2 off3 s)
      (Machine.execEngInit rot1 rot2 rot3 refl off1 off2 off3 t) := by
  simp only [Machine.execEngInit, h.eng.configure_eq]
  split
  · split
    · split
      · exact (h.withEng (.refl _)).respond .ok []
      · exact h.respond .invalidReflector []
    · exact h.respond .invalidOffset []
  · exact h.respond .invalidRotorIndex []

theorem Related.execEngSetPlugboard_of_choice (h : Related SameButChoice Eq s t) (p : List Byte) :
    SameOutcome (Related SameButChoice Eq) (Machine.execEngSetPlugboard p s)
      (Machine.execEngSetPlugboard p t) := by
  simp only [Machine.execEngSetPlugboard]
  split
  · exact (h.withEng (h.eng.plugboard _)).respond .ok []
  · exact h.respond .invalidPlugboard []

/-- While the engine is unconfigured every command answers the two machines alike: the two commands that read
the choices refuse, ENG_INIT replaces them, and no other command looks at them. -/
theorem Related.exec_of_unconfigured (h : Related SameButChoice Eq s t)
    (unconfigured : s.eng.configured = false) (i : Instr) :
    SameOutcome (Related SameButChoice Eq) (Machine.exec i s) (Machine.exec i t) := by
  have unconfigured' : t.eng.configured = false := h.eng.configured.trans unconfigured
  have unit : UnitCongruence Eq := .eq
  cases i with
  | engInit => exact h.execEngInit_of_choice _ _ _ _ _ _ _
  | engSetPlugboard p => exact h.execEngSetPlugboard_of_choice p
  | engEncrypt ch =>
    simp only [Machine.exec, execEngEncrypt_of_not_configured unconfigured,
      execEngEncrypt_of_not_configured unconfigured']
    exact h.respond .notConfigured []
  | engRotorOffset n =>
    simp only [Machine.exec, execEngRotorOffset_of_not_configured unconfigured,
      execEngRotorOffset_of_not_configured unconfigured']
    exact h.respond .notConfigured []
  | ps2Init => exact (h.withPs2 rfl).respond .ok []
  | ps2EnableIrq => exact (h.withPs2 (unit.setIrqEn true h.ps2)).respond .ok []
  | ps2DisableIrq => exact (h.withPs2 (unit.setIrqEn false h.ps2)).respond .ok []
  | ps2Available => exact h.execPs2Available unit
  | ps2Read => exact h.execPs2Read unit
  | ps2GetLock =>
    simp only [Machine.exec, execPs2GetLock, h.ps2]
    exact h.respond .ok _
  | ps2SetLock mask => exact h.execPs2SetLock unit mask
  | ps2SetNoBreaks flag => exact h.execPs2SetNoBreaks unit flag
  | ps2SetNoRepeats flag => exact h.execPs2SetNoRepeats unit flag
  | ps2Typematic rate delay => exact h.execPs2Typematic unit rate delay
  | ps2Echo | ps2ReadId | ps2GetScancodeSet | ps2Reset => exact h.queueSequence unit _

/-- An unconfigured engine never faults: R266's fault comes after the check of `configured`. -/
theorem exists_exec_next_of_unconfigured (unconfigured : s.eng.configured = false) (i : Instr) :
    ∃ s', exec i s = .next s' := by
  have outcome := exec_outcome i s
  generalize exec i s = o at outcome ⊢
  cases outcome with
  | refused => exact ⟨_, rfl⟩
  | answered => exact ⟨_, rfl⟩
  | fault ch _ configured => exact absurd configured (Bool.eq_false_iff.1 unconfigured)

end

/-! ### The statements -/

/-- Settles O17: every command answers on an unconfigured engine, and answers the two machines alike. -/
theorem unconfiguredChoiceIsNeverObserved : Obligations.UnconfiguredChoiceIsNeverObserved := by
  intro i s t unconfigured same
  have related := (sameButConfiguration_iff s t).1 same
  obtain ⟨s', hs'⟩ := exists_exec_next_of_unconfigured unconfigured i
  obtain ⟨t', ht', related'⟩ := (related.exec_of_unconfigured unconfigured i).exists_next hs'
  exact ⟨s', t', hs', ht', (sameButConfiguration_iff s' t').2 related'⟩

/-- Settles O49: `Ps2.reset` lists the unit's values, and the plugboard is the identity. -/
theorem resetValues : Obligations.ResetValues :=
  ⟨rfl, plug_reset, rfl, rfl, rfl, rfl⟩

/-- Settles O55: the base case of the five invariants. -/
theorem invariantsHoldAtReset : Obligations.InvariantsHoldAtReset :=
  ⟨coreInv_reset, rfl, .of_clear rfl rfl rfl, ringsSound_reset, answersBounded_reset⟩

end Sys2Proof.Machine
end
